-- ==== Sys2Proof/Word.lean ====
section
/-! DEFINITION. The words of HUFF-CORE: bytes, register words, and the entity, which the spec keeps as a
byte string (00_scope.md R13, 10_state.md R34). -/

namespace Sys2Proof

/-- A byte of IN or OUT. -/
abbrev Byte := BitVec 8

/-- A 32-bit word: the command word (R59), STATUS, ENTITY_COUNT and TREE_BYTE_COUNT (R29). -/
abbrev Word32 := BitVec 32

/-- A 64-bit word: OPERAND, RESULT, ICUR (R29) and a frequency count (R9). -/
abbrev Word64 := BitVec 64

/-- An entity: the W bytes read from IN, in stream order (R34). -/
abbrev Entity := List Byte

end Sys2Proof
end

