-- ==== Sys2Proof/Syntax.lean ====
section
/-! DEFINITION. The commands of HC1 (30_encoding.md R62): one constructor per row of spec/opcode_table.json. -/

namespace Sys2Proof

/-- An HC1 command with its operands as R61 assembles them. -/
inductive Instr where
  /-- GETBIT byte, pos (R69). -/
  | getbit (byte : BitVec 8) (pos : BitVec 4)
  /-- SETBIT byte, pos (R70). -/
  | setbit (byte : BitVec 8) (pos : BitVec 4)
  /-- RDFIX n (R71); `nw` is the NW field, legal values 1, 2, 4, 8. -/
  | rdfix (nw : BitVec 4)
  /-- WRFIX n (R72); `nw` is the NW field, legal values 1, 2, 4, 8. -/
  | wrfix (nw : BitVec 4)
  /-- ANALYZE (R74). -/
  | analyze
  /-- BUILD (R75). -/
  | build
  /-- TENC (R87). -/
  | tenc
  /-- TDEC (R89). -/
  | tdec
  /-- EENC (R95). -/
  | eenc
  /-- EDEC (R96). -/
  | edec
  /-- PENC (R99). -/
  | penc
  /-- PDEC (R100). -/
  | pdec
deriving DecidableEq, Repr

end Sys2Proof
end

