-- ==== Sys2Proof/WellFormed.lean ====
section
/-! DEFINITION. Which commands have a word: the byte width of RDFIX and WRFIX is 1, 2, 4 or 8 (R61, R63). Every other
operand is as wide as its field, and POS 8..15 decodes (R63), so nothing else is checked. -/

namespace Sys2Proof

/-- "NW in {1,2,4,8}" (R62, R63). -/
def nwLegal (nw : BitVec 4) : Bool := nw == 1#4 || nw == 2#4 || nw == 4#4 || nw == 8#4

/-- The command is one a command word can say. -/
def Instr.wellFormed : Instr → Bool
  | .getbit _ _ => true
  | .setbit _ _ => true
  | .rdfix nw => nwLegal nw
  | .wrfix nw => nwLegal nw
  | .analyze => true
  | .build => true
  | .tenc => true
  | .tdec => true
  | .eenc => true
  | .edec => true
  | .penc => true
  | .pdec => true

end Sys2Proof
end

