-- ==== Sys2Proof/Decode.lean ====
section
/-! DEFINITION. `Decode(c)` of 30_encoding.md R63, total on every 32-bit word, its rejects by name, the encoder from
the bit patterns of R60 and the opcode map of R62, and the match and mask rows of R62. -/

namespace Sys2Proof

/-- Why a word does not decode (R63); each is the reason code of the same name (60_exceptions.md R107). -/
inductive DecodeReject where
  /-- OPC not in the opcode map. -/
  | badOpcode
  /-- A nonzero reserved or must-be-zero field, or NW not in {1, 2, 4, 8}. -/
  | badEncoding
deriving DecidableEq, Repr

/-- The opcode map of R62. -/
inductive Opcode where
  | getbit | setbit | rdfix | wrfix | analyze | build | tenc | tdec | eenc | edec | penc | pdec
deriving DecidableEq, Repr

/-- The three formats of R60. -/
inductive Format where
  | fb | fn | fz
deriving DecidableEq, Repr

/-- `OPMAP` (R62): the command an OPC value selects. -/
def opcodeOf (opc : BitVec 8) : Option Opcode :=
  match opc.toNat with
  | 0x01 => some .getbit
  | 0x02 => some .setbit
  | 0x03 => some .rdfix
  | 0x04 => some .wrfix
  | 0x10 => some .analyze
  | 0x11 => some .build
  | 0x20 => some .tenc
  | 0x21 => some .tdec
  | 0x30 => some .eenc
  | 0x31 => some .edec
  | 0x40 => some .penc
  | 0x41 => some .pdec
  | _ => none

/-- `format(opc)` (R60, R62). -/
def formatOf : Opcode → Format
  | .getbit => .fb
  | .setbit => .fb
  | .rdfix => .fn
  | .wrfix => .fn
  | .analyze => .fz
  | .build => .fz
  | .tenc => .fz
  | .tdec => .fz
  | .eenc => .fz
  | .edec => .fz
  | .penc => .fz
  | .pdec => .fz

/-- OPC, `c[7:0]` (R59). -/
def fieldOpc (c : Word32) : BitVec 8 := c.extractLsb' 0 8

/-- POS, `c[11:8]` (R59). -/
def fieldPos (c : Word32) : BitVec 4 := c.extractLsb' 8 4

/-- NW, `c[15:12]` (R59). -/
def fieldNw (c : Word32) : BitVec 4 := c.extractLsb' 12 4

/-- BYTE, `c[23:16]` (R59). -/
def fieldByte (c : Word32) : BitVec 8 := c.extractLsb' 16 8

/-- RSV, `c[31:24]` (R59). -/
def fieldRsv (c : Word32) : BitVec 8 := c.extractLsb' 24 8

/-- The must-be-zero and width checks of R63 for a word of a format, RSV apart. -/
def formatOk (f : Format) (c : Word32) : Bool :=
  match f with
  | .fb => fieldNw c == 0#4
  | .fn => fieldPos c == 0#4 && fieldByte c == 0#8 && nwLegal (fieldNw c)
  | .fz => fieldPos c == 0#4 && fieldNw c == 0#4 && fieldByte c == 0#8

/-- The command with the operands of R61. -/
def assemble (o : Opcode) (c : Word32) : Instr :=
  match o with
  | .getbit => .getbit (fieldByte c) (fieldPos c)
  | .setbit => .setbit (fieldByte c) (fieldPos c)
  | .rdfix => .rdfix (fieldNw c)
  | .wrfix => .wrfix (fieldNw c)
  | .analyze => .analyze
  | .build => .build
  | .tenc => .tenc
  | .tdec => .tdec
  | .eenc => .eenc
  | .edec => .edec
  | .penc => .penc
  | .pdec => .pdec

/-- `Decode(c)` (R63): the first failing line wins, BAD_OPCODE before BAD_ENCODING. -/
def decode (c : Word32) : Except DecodeReject Instr :=
  match opcodeOf (fieldOpc c) with
  | none => .error .badOpcode
  | some o =>
    if fieldRsv c ≠ 0#8 then .error .badEncoding
    else if formatOk (formatOf o) c then .ok (assemble o c)
    else .error .badEncoding

/-- The word with the five fields of R59, most significant field first. -/
def wordOf (byte : BitVec 8) (nw pos : BitVec 4) (opc : BitVec 8) : Word32 :=
  0x00#8 ++ byte ++ nw ++ pos ++ opc

/-- The command word of a command, from the bit patterns of R60 and the opcodes of R62. -/
def encode : Instr → Word32
  | .getbit byte pos => wordOf byte 0#4 pos 0x01#8
  | .setbit byte pos => wordOf byte 0#4 pos 0x02#8
  | .rdfix nw => wordOf 0#8 nw 0#4 0x03#8
  | .wrfix nw => wordOf 0#8 nw 0#4 0x04#8
  | .analyze => wordOf 0#8 0#4 0#4 0x10#8
  | .build => wordOf 0#8 0#4 0#4 0x11#8
  | .tenc => wordOf 0#8 0#4 0#4 0x20#8
  | .tdec => wordOf 0#8 0#4 0#4 0x21#8
  | .eenc => wordOf 0#8 0#4 0#4 0x30#8
  | .edec => wordOf 0#8 0#4 0#4 0x31#8
  | .penc => wordOf 0#8 0#4 0#4 0x40#8
  | .pdec => wordOf 0#8 0#4 0#4 0x41#8

/-- The `mask` column of R62. -/
def rowMask : Instr → Word32
  | .getbit _ _ => 0xFF00F0FF#32
  | .setbit _ _ => 0xFF00F0FF#32
  | .rdfix _ => 0xFFFF0FFF#32
  | .wrfix _ => 0xFFFF0FFF#32
  | .analyze => 0xFFFFFFFF#32
  | .build => 0xFFFFFFFF#32
  | .tenc => 0xFFFFFFFF#32
  | .tdec => 0xFFFFFFFF#32
  | .eenc => 0xFFFFFFFF#32
  | .edec => 0xFFFFFFFF#32
  | .penc => 0xFFFFFFFF#32
  | .pdec => 0xFFFFFFFF#32

/-- The `match` column of R62. -/
def rowMatch : Instr → Word32
  | .getbit _ _ => 0x00000001#32
  | .setbit _ _ => 0x00000002#32
  | .rdfix _ => 0x00000003#32
  | .wrfix _ => 0x00000004#32
  | .analyze => 0x00000010#32
  | .build => 0x00000011#32
  | .tenc => 0x00000020#32
  | .tdec => 0x00000021#32
  | .eenc => 0x00000030#32
  | .edec => 0x00000031#32
  | .penc => 0x00000040#32
  | .pdec => 0x00000041#32

/-- The command word an opcode-table row's bits give: the row's `nbits` bits are one number and every bit above them
is 0 (log 12). Every HC1 word is 32 bits (R59), so a number that needs more is no word. -/
def tableWord (nbits w : Nat) : Option Word32 :=
  if w % 2 ^ nbits < 2 ^ 32 then some (BitVec.ofNat 32 (w % 2 ^ nbits)) else none

/-- The command the decoder reads from the word whose bits, numbered as spec/opcode_table.json numbers them, are `w`. -/
def decodeTableWord (nbits w : Nat) : Option Instr :=
  match tableWord nbits w with
  | none => none
  | some c =>
    match decode c with
    | .ok i => some i
    | .error _ => none

end Sys2Proof
end

