-- ==== Sys2Proof/Config.lean ====
section
/-! DEFINITION. What an implementation of HUFF-CORE fixes (00_scope.md R7) and the free values the spec leaves open.
The chip the model speaks of is the opaque `Config.params`: nothing can be proved of it but the bounds of R7. -/

namespace Sys2Proof

/-- The two byte orders of NATIVE_ORDER (R7, R16). -/
inductive ByteOrder where
  /-- `LE`: the first byte has weight 1. -/
  | le
  /-- `BE`: the last byte has weight 1. -/
  | be
deriving DecidableEq, Repr, Inhabited

/-- The implementation parameters of R7, one field each, and the one value the spec does not state (`olenBeyond`).
`none` in a limit means unbounded. -/
structure Params where
  /-- NATIVE_ORDER. -/
  nativeOrder : ByteOrder
  /-- FORMAT_VERSION, the reset value of VERSION. -/
  formatVersion : BitVec 8
  /-- MAX_DISTINCT. -/
  maxDistinct : Option Nat
  /-- MAX_DNODES. -/
  maxDnodes : Option Nat
  /-- MAX_IN_LEN: "at most 2^64 - 1 bytes", which its type says. -/
  maxInLen : BitVec 64
  /-- MAX_OUT_LEN. -/
  maxOutLen : Option Nat
  /-- TIE_BREAK: the draw made at the k-th CHOOSE (R79). DESIGN CHOICE, log 4. -/
  tieBreak : Nat → Nat
  /-- What OLEN reads when len(OUT) does not fit its 64 bits. DESIGN CHOICE (the spec states no value), log 7. -/
  olenBeyond : Nat → BitVec 64
deriving Inhabited

/-- The bounds R7 puts on the parameters: MAX_DISTINCT and MAX_DNODES are positive, MAX_OUT_LEN is at least 2^64 - 1. -/
structure Params.Legal (P : Params) : Prop where
  distinct_pos : ∀ m, P.maxDistinct = some m → 1 ≤ m
  dnodes_pos : ∀ m, P.maxDnodes = some m → 1 ≤ m
  outLen_ge : ∀ m, P.maxOutLen = some m → 2 ^ 64 - 1 ≤ m

/-- Parameters raised to the bounds of R7; legal parameters are left as they are (`Params.legalize_of_legal`). -/
def Params.legalize (P : Params) : Params :=
  { P with
    maxDistinct := P.maxDistinct.map (max 1)
    maxDnodes := P.maxDnodes.map (max 1)
    maxOutLen := P.maxOutLen.map (max (2 ^ 64 - 1)) }

/-- The chip's own choice of every parameter: a constant without a body. Log 5 (parameters), 4 (draws), 7 (OLEN). -/
opaque Config.chip : Params

/-- The parameters of the modelled chip: any that R7 allows. -/
def Config.params : Params := Config.chip.legalize

/-- The reference tie-break REF (R80): the pool is held in order of its sequence numbers, so REF always takes the
first candidate. It is one instance of TIE_BREAK, used by tests only. -/
def Config.refTieBreak : Nat → Nat := fun _ => 0

end Sys2Proof
end

