-- ==== Sys2Proof/Machine/State.lean ====
section
/-! DEFINITION. The state of HUFF-CORE as plain data (10_state.md R29, R31, R33), its reset value (R39), the host's
actions (R25), the reason codes' names (60_exceptions.md R107), and the reasons a step of the model can stop. -/

namespace Sys2Proof.Machine

/-- `Option ETree` of R35 as one type: `absent` is None, the absent child or no tree (log 8). -/
inductive ETree where
  /-- No tree, an absent child. -/
  | absent
  /-- `Leaf(v, f)`. -/
  | leaf (v : Entity) (f : Word64)
  /-- `Branch(f, l, r)`. -/
  | branch (f : Word64) (l r : ETree)
deriving DecidableEq, Repr

/-- `Option DTree` of R36 as one type: `absent` is None (log 8). -/
inductive DTree where
  /-- No tree, an absent child. -/
  | absent
  /-- `DLeaf(v)`. -/
  | leaf (v : Entity)
  /-- `DBranch(l, r)`. -/
  | branch (l r : DTree)
deriving DecidableEq, Repr

/-- The kinds of fault (R106). -/
inductive FaultKind where
  | malformed | contract | capacity
deriving DecidableEq, Repr

/-- The reasons of R107, by name; `Reason.code` and `Reason.kind` give their codes and kinds. A raised reason is a
NEXT state of the model (R111), never a stop. -/
inductive Reason where
  | exhausted | noOpenBranch | listExhausted | slotFull | walkNotBranch | endMismatch | emptySectionMismatch
  | badEntitySize | badOpcode | badEncoding | bitPosRange | badWidth | codeMissing | distinctOverflow | nodeOverflow
  | countOverflow | outOverflow
deriving DecidableEq, Repr

/-- The host's actions, exactly those of R25. -/
inductive HostAction where
  /-- `WriteCSR(i, v)` (R30). -/
  | writeCsr (i : BitVec 4) (v : Word64)
  /-- `ReadCSR(i)`. -/
  | readCsr (i : BitVec 4)
  /-- `LoadIn(bs)`. -/
  | loadIn (bs : List Byte)
  /-- `ReadOut()`. -/
  | readOut
  /-- `ClearOut()`. -/
  | clearOut
  /-- `Issue(c)`. -/
  | issue (c : Word32)
  /-- `Reset()`. -/
  | reset
deriving DecidableEq, Repr

/-- What a read action returned to the host (R25). -/
inductive HostReply where
  /-- The value `ReadCSR(i)` returned. -/
  | csr (i : BitVec 4) (v : Word64)
  /-- The bytes `ReadOut()` returned. -/
  | bytes (bs : List Byte)
deriving DecidableEq, Repr

/-- The reasons a step stops with a fault. No fault of HUFF-CORE itself is here: each is a next state with ERR set
(R111, R112). -/
inductive Fault where
  /-- Raised by `hostAct` on a `LoadIn(bs)` with `len(bs) > MAX_IN_LEN`: the spec gives that action no effect, since it
  "requires `len(bs) <= MAX_IN_LEN`" and "A host action other than these has no meaning in the model" (R25). Safe: the
  model stops (log 6). -/
  | loadInTooLong
deriving DecidableEq, Repr

/-- The reasons a step is refused. -/
inductive Refusal where
  /-- Raised by an arm of `exec` whose command has no meaning yet; no arm of this model does. Safe: the model stops. -/
  | notModelled (mnemonic : String)
deriving DecidableEq, Repr

/-- The state: the registers of R29 that hold a value, the stored STATUS bits of R31, the structures of R33, and three
fields of the model's own (`host`, `replies`, `draws`). TREE_VALID, DTREE_VALID, IN_EOF, ILEN and OLEN are live values
and are computed; CMD and the reserved indices hold nothing. -/
structure State where
  /-- STATUS.ERR (R31). -/
  err : Bool
  /-- STATUS.KIND (R31): 0 none, 1 MALFORMED, 2 CONTRACT, 3 CAPACITY. -/
  kind : BitVec 2
  /-- STATUS.REASON (R31, R107). -/
  reason : BitVec 8
  /-- STATUS.REJ (R31). -/
  rej : Bool
  /-- VERSION (R29). -/
  version : BitVec 8
  /-- TREE_LAST_BITS (R29). -/
  treeLastBits : BitVec 8
  /-- DATA_LAST_BITS (R29). -/
  dataLastBits : BitVec 8
  /-- ENTITY_SIZE (R29). -/
  entitySize : BitVec 8
  /-- ENTITY_COUNT (R29). -/
  entityCount : Word32
  /-- TREE_BYTE_COUNT (R29). -/
  treeByteCount : Word32
  /-- DATA_BYTE_COUNT (R29). -/
  dataByteCount : Word64
  /-- OPERAND (R29). -/
  operand : Word64
  /-- RESULT (R29). -/
  result : Word64
  /-- ICUR (R29, R40). -/
  icur : Word64
  /-- IN (R33, R40). -/
  inStream : List Byte
  /-- OUT (R33, R40). -/
  outStream : List Byte
  /-- FREQ (R33), keys strictly ascending: the one canonical list of the map (log 9). -/
  freq : List (Entity × Word64)
  /-- TREE (R33, R35). -/
  tree : ETree
  /-- ELIST (R33). -/
  elist : List Entity
  /-- DTREE (R33, R36). -/
  dtree : DTree
  /-- The host's actions still to come (R131). The model's own field; log 1. -/
  host : List HostAction
  /-- What the host's reads returned, oldest first. The model's own field; log 3. -/
  replies : List HostReply
  /-- How many TIE_BREAK draws have been made (R79). The model's own field; log 4. -/
  draws : Nat
deriving DecidableEq, Repr

/-- The state after `Reset()` and at power-on (R39, R123, R124); the model's own fields as log 1, 3 and 4 say. -/
def State.reset : State where
  err := false
  kind := 0#2
  reason := 0#8
  rej := false
  version := Config.params.formatVersion
  treeLastBits := 0#8
  dataLastBits := 0#8
  entitySize := 0#8
  entityCount := 0#32
  treeByteCount := 0#32
  dataByteCount := 0#64
  operand := 0#64
  result := 0#64
  icur := 0#64
  inStream := []
  outStream := []
  freq := []
  tree := .absent
  elist := []
  dtree := .absent
  host := []
  replies := []
  draws := 0

end Sys2Proof.Machine
end

