-- ==== Sys2Proof/Machine/Flags.lean ====
section
/-! DEFINITION. STATUS: the codes of the kinds and reasons (60_exceptions.md R106, R107), the live bits and the whole
word (10_state.md R31). HUFF-CORE has no other flags (R32). -/

namespace Sys2Proof.Machine

/-- The code of a kind in STATUS.KIND (R106). -/
def FaultKind.code : FaultKind → BitVec 2
  | .malformed => 1#2
  | .contract => 2#2
  | .capacity => 3#2

/-- The KIND column of R107. -/
def Reason.kind : Reason → FaultKind
  | .exhausted => .malformed
  | .noOpenBranch => .malformed
  | .listExhausted => .malformed
  | .slotFull => .malformed
  | .walkNotBranch => .malformed
  | .endMismatch => .malformed
  | .emptySectionMismatch => .malformed
  | .badEntitySize => .malformed
  | .badOpcode => .contract
  | .badEncoding => .contract
  | .bitPosRange => .contract
  | .badWidth => .contract
  | .codeMissing => .contract
  | .distinctOverflow => .capacity
  | .nodeOverflow => .capacity
  | .countOverflow => .capacity
  | .outOverflow => .capacity

/-- The code column of R107. -/
def Reason.code : Reason → BitVec 8
  | .exhausted => 0x01#8
  | .noOpenBranch => 0x02#8
  | .listExhausted => 0x03#8
  | .slotFull => 0x04#8
  | .walkNotBranch => 0x05#8
  | .endMismatch => 0x06#8
  | .emptySectionMismatch => 0x07#8
  | .badEntitySize => 0x08#8
  | .badOpcode => 0x10#8
  | .badEncoding => 0x11#8
  | .bitPosRange => 0x12#8
  | .badWidth => 0x13#8
  | .codeMissing => 0x14#8
  | .distinctOverflow => 0x20#8
  | .nodeOverflow => 0x21#8
  | .countOverflow => 0x22#8
  | .outOverflow => 0x23#8

/-- TREE_VALID: "1 exactly when TREE is not None" (R31). -/
def treeValid (s : State) : Bool := s.tree != .absent

/-- DTREE_VALID: "1 exactly when DTREE is not None" (R31). -/
def dtreeValid (s : State) : Bool := s.dtree != .absent

/-- IN_EOF: "1 exactly when ICUR = len(IN)" (R31). -/
def inEof (s : State) : Bool := s.icur.toNat == s.inStream.length

/-- STATUS as the host reads it (R31), most significant field first. -/
def statusWord (s : State) : Word32 :=
  0#16 ++ s.reason ++ 0#1 ++ BitVec.ofBool s.rej ++ BitVec.ofBool (inEof s) ++ BitVec.ofBool (dtreeValid s) ++
    BitVec.ofBool (treeValid s) ++ s.kind ++ BitVec.ofBool s.err

end Sys2Proof.Machine
end

