-- ==== Sys2Proof/Machine/Operands.lean ====
section
/-! DEFINITION. Operand assembly (30_encoding.md R61): the bit position, the byte width of RDFIX and WRFIX, the entity
width, the effective last-bits value (00_scope.md R20), and integers as byte strings (R16). -/

namespace Sys2Proof.Machine

/-- `pos = zext_64(c[11:8])` (R61). -/
def posOf (pos : BitVec 4) : Nat := pos.toNat

/-- The supported widths, {1, 2, 4, 8} (R3, R61). -/
def widthLegal (w : Nat) : Bool := w == 1 || w == 2 || w == 4 || w == 8

/-- `n = c[15:12]`, the byte count, where it is one of {1, 2, 4, 8} (R61). -/
def fixWidth (nw : BitVec 4) : Option Nat := if widthLegal nw.toNat then some nw.toNat else none

/-- `W = csr[ENTITY_SIZE]`, where it is one of {1, 2, 4, 8} (R61). -/
def entityWidth (s : State) : Option Nat := if widthLegal s.entitySize.toNat then some s.entitySize.toNat else none

/-- `eff(lb)`: 8 when lb is 0 or above 7, lb otherwise (R20). -/
def effBits (lb : BitVec 8) : Nat := if lb.toNat = 0 ∨ 7 < lb.toNat then 8 else lb.toNat

/-- `sum bs[i] * 256^i` (R16, LE). -/
def fromBytesLE : List Byte → Nat
  | [] => 0
  | b :: bs => b.toNat + 256 * fromBytesLE bs

/-- The n bytes of v, least significant first (R16, LE). -/
def toBytesLE : Nat → Nat → List Byte
  | 0, _ => []
  | n + 1, v => BitVec.ofNat 8 (v % 256) :: toBytesLE n (v / 256)

/-- `fromBytes(bs)` in a byte order (R16); BE reads the reversed string as LE does. -/
def fromBytes (o : ByteOrder) (bs : List Byte) : Nat :=
  match o with
  | .le => fromBytesLE bs
  | .be => fromBytesLE bs.reverse

/-- `toBytes_n(v)` in a byte order, the inverse of `fromBytes` on `0 <= v < 256^n` (R16). -/
def toBytes (o : ByteOrder) (n v : Nat) : List Byte :=
  match o with
  | .le => toBytesLE n v
  | .be => (toBytesLE n v).reverse

end Sys2Proof.Machine
end

