-- ==== Sys2Proof/Machine/Ops.lean ====
section
/-! DEFINITION. The shared operations: raising a fault (60_exceptions.md R111), rejecting a command while ERR = 1
(10_state.md R26), the way out of a fault (R113, R123), reading IN (R15, R42), appending to OUT (R15, R43), and the loops
every command is built of: over a list, over the records of IN, over the bits of a section (20_memory.md R47). -/

namespace Sys2Proof.Machine

/-- `raise` (R111): ERR, KIND and REASON are written; every effect made before stays in `s`. -/
def raiseFault (r : Reason) (s : State) : State := { s with err := true, kind := r.kind.code, reason := r.code }

/-- A command issued while ERR = 1: "sets STATUS.REJ <- 1 and changes nothing else" (R26). -/
def rejectCommand (s : State) : State := { s with rej := true }

/-- `Reset()` (R123), the only way out of the fault state (R113): every piece of the block's state takes its reset
value. The host's remaining actions, what it was told, and the count of draws are not the block's state and stay
(log 1, 3, 4). -/
def resetBlock (s : State) : State := { State.reset with host := s.host, replies := s.replies, draws := s.draws }

/-- How the pseudocode of a command ends: normally, or at a `raise` (R17). The state is the one at that point. -/
inductive CmdResult where
  | done (s : State)
  | raised (s : State) (r : Reason)
deriving DecidableEq, Repr

/-- The state a command leaves (R17, R111). -/
def settle : CmdResult → State
  | .done s => s
  | .raised s r => raiseFault r s

/-- One command as a whole: with ERR = 1 it is rejected, otherwise its pseudocode runs (R26; log 10). -/
def runCommand (body : State → CmdResult) (s : State) : State := if s.err then rejectCommand s else settle (body s)

/-- The read cursor as an offset into IN (R40). -/
def cursor (s : State) : Nat := s.icur.toNat

/-- `ICUR <- n`. -/
def setCursor (n : Nat) (s : State) : State := { s with icur := BitVec.ofNat 64 n }

/-- `csr[RESULT] <- v`. -/
def setResult (v : Word64) (s : State) : State := { s with result := v }

/-- `MemRead(a, n)`: `IN[a..a+n)`, "defined only when `a + n <= len(IN)`" (R15). -/
def memRead (s : State) (a n : Nat) : Option (List Byte) :=
  if a + n ≤ s.inStream.length then some ((s.inStream.drop a).take n) else none

/-- The part of IN a read at the cursor can reach. -/
def inRest (s : State) : List Byte := s.inStream.drop (cursor s)

/-- Whether an OUT of `n` bytes would exceed MAX_OUT_LEN (R43). -/
def outTooLong (P : Params) (n : Nat) : Bool :=
  match P.maxOutLen with
  | none => false
  | some m => m < n

/-- `Emit(bs)` on an OUT: the stream with `bs` appended, or none when that would make it longer than MAX_OUT_LEN, and
then nothing is appended (R15, R43). -/
def appendOut (P : Params) (out bs : List Byte) : Option (List Byte) :=
  if outTooLong P (out.length + bs.length) then none else some (out ++ bs)

/-- Whether a node count exceeds MAX_DNODES (R89). -/
def nodesOver (P : Params) (k : Nat) : Bool :=
  match P.maxDnodes with
  | none => false
  | some m => m < k

/-- One step of a loop: on, with the loop's new state, or a `raise` with the state it had reached. -/
abbrev Attempt (σ : Type) := Except (σ × Reason) σ

/-- A loop over a list that ends at the first `raise`. -/
def feedList {σ β : Type} (f : σ → β → Attempt σ) : List β → σ → Attempt σ
  | [], a => .ok a
  | b :: bs, a =>
    match f a b with
    | .error e => .error e
    | .ok a' => feedList f bs a'

/-- How a loop that reads IN ends: the cursor it leaves, the loop's state, and the reason where it raised. -/
inductive Feed (σ : Type) where
  | done (cur : Nat) (a : σ)
  | raised (cur : Nat) (a : σ) (r : Reason)
deriving DecidableEq, Repr

/-- The record loop of ANALYZE and PENC (R74, R99): while bytes are left, read W of them at the cursor and run `f` on
them. With fewer than W left it raises EXHAUSTED and the cursor goes to `len`, the length of IN (R42). `fuel` is at
least the number of bytes left. -/
def feedRecords {σ : Type} (f : σ → Entity → Attempt σ) (W len : Nat) : Nat → List Byte → Nat → σ → Feed σ
  | _, [], cur, a => .done cur a
  | 0, _ :: _, cur, a => .done cur a
  | fuel + 1, b :: bs, cur, a =>
    if (b :: bs).length < W then .raised len a .exhausted
    else
      match f a ((b :: bs).take W) with
      | .error (a', r) => .raised (cur + W) a' r
      | .ok a' => feedRecords f W len fuel ((b :: bs).drop W) (cur + W) a'

/-- The record loop of EDEC (R96): `n` records of W bytes each, collected in order. -/
def takeRecords (W len : Nat) : Nat → List Byte → Nat → List Entity → Feed (List Entity)
  | 0, _, cur, es => .done cur es
  | n + 1, rest, cur, es =>
    if rest.length < W then .raised len es .exhausted
    else takeRecords W len n (rest.drop W) (cur + W) (es ++ [rest.take W])

/-- `get_bit(b, p) = (b >> (7 - p)) & 1` (40_bit_primitives.md R68): the bit at offset p from the most significant bit. -/
def getBit (b : Byte) (p : Nat) : Byte := (b >>> (7 - p)) &&& 1#8

/-- `set_bit(b, p) = b | (1 << (7 - p))` (R68). -/
def setBit (b : Byte) (p : Nat) : Byte := b ||| (1#8 <<< (7 - p))

/-- The first `nb` bits of a byte, most significant first (R47). -/
def byteBits (b : Byte) (nb : Nat) : List Bool := (List.range nb).map (fun p => getBit b p == 1#8)

/-- The loop of a section of `n` bytes with last-bits value `lb` (R47): each byte is read at the cursor, each of its
bits is processed as soon as it is yielded, the last byte yields `eff(lb)` bits, and a missing byte raises EXHAUSTED with
the cursor at `len`, the length of IN (R42). `n = 0` reads nothing. -/
def feedSection {σ : Type} (f : σ → Bool → Attempt σ) (lb : BitVec 8) (len : Nat) :
    List Byte → Nat → Nat → σ → Feed σ
  | rest, n, cur, a =>
    if n = 0 then .done cur a
    else
      match rest with
      | [] => .raised len a .exhausted
      | b :: rest' =>
        match feedList f (byteBits b (if n = 1 then effBits lb else 8)) a with
        | .error (a', r) => .raised (cur + 1) a' r
        | .ok a' => feedSection f lb len rest' (n - 1) (cur + 1) a'

/-- The packer of R46, with the OUT it appends to: `acc`, the number `n` of bits in it, the count of bytes appended. -/
structure Packer where
  acc : Byte
  n : Nat
  nbytes : Nat
  out : List Byte
deriving DecidableEq, Repr

/-- The packer at command start (R46). -/
def Packer.start (out : List Byte) : Packer := { acc := 0#8, n := 0, nbytes := 0, out := out }

/-- `Put(bit)` (R46): a byte is appended as soon as its eighth bit is put. -/
def putBit (P : Params) (p : Packer) (bit : Bool) : Attempt Packer :=
  let acc := if bit then setBit p.acc p.n else p.acc
  if p.n + 1 = 8 then
    match appendOut P p.out [acc] with
    | none => .error (p, .outOverflow)
    | some out => .ok { acc := 0#8, n := 0, nbytes := p.nbytes + 1, out := out }
  else .ok { p with acc := acc, n := p.n + 1 }

/-- `Put` of each bit in order (R46). -/
def putBits (P : Params) (bits : List Bool) (p : Packer) : Attempt Packer := feedList (putBit P) bits p

/-- `Flush()` (R46): a partial final byte is appended, its unused low positions 0. The byte count is `nbytes` of the
answer and the last-bits value its `n`. -/
def flush (P : Params) (p : Packer) : Attempt Packer :=
  if 0 < p.n then
    match appendOut P p.out [p.acc] with
    | none => .error (p, .outOverflow)
    | some out => .ok { p with nbytes := p.nbytes + 1, out := out }
  else .ok p

/-- `Pack(bits)` (R46): put each bit in order, then flush. -/
def pack (P : Params) (bits : List Bool) (out : List Byte) : Attempt Packer :=
  match putBits P bits (Packer.start out) with
  | .error e => .error e
  | .ok p => flush P p

end Sys2Proof.Machine
end

