-- ==== Sys2Proof/Machine/BitPrimitives.lean ====
section
/-! DEFINITION. GETBIT, SETBIT, RDFIX, WRFIX (40_bit_primitives.md R69-R72). -/

namespace Sys2Proof.Machine

/-- GETBIT's pseudocode (R69). -/
def getbitBody (byte : BitVec 8) (pos : BitVec 4) (s : State) : CmdResult :=
  if 7 < posOf pos then .raised s .bitPosRange
  else .done (setResult ((getBit byte (posOf pos)).setWidth 64) s)

/-- SETBIT's pseudocode (R70). -/
def setbitBody (byte : BitVec 8) (pos : BitVec 4) (s : State) : CmdResult :=
  if 7 < posOf pos then .raised s .bitPosRange
  else .done (setResult ((setBit byte (posOf pos)).setWidth 64) s)

/-- RDFIX's pseudocode (R71). A width outside {1, 2, 4, 8} has no word; it is answered as R63 answers it (log 11). -/
def rdfixBody (P : Params) (nw : BitVec 4) (s : State) : CmdResult :=
  match fixWidth nw with
  | none => .raised s .badEncoding
  | some n =>
    match memRead s (cursor s) n with
    | none => .raised (setCursor s.inStream.length s) .exhausted
    | some bs => .done (setResult (BitVec.ofNat 64 (fromBytes P.nativeOrder bs)) (setCursor (cursor s + n) s))

/-- WRFIX's pseudocode (R72): the low n bytes of OPERAND. A width outside {1, 2, 4, 8} as for RDFIX (log 11). -/
def wrfixBody (P : Params) (nw : BitVec 4) (s : State) : CmdResult :=
  match fixWidth nw with
  | none => .raised s .badEncoding
  | some n =>
    match appendOut P s.outStream (toBytes P.nativeOrder n (s.operand.toNat % 256 ^ n)) with
    | none => .raised s .outOverflow
    | some out => .done { s with outStream := out }

/-- GETBIT (R69). -/
def execGetbit (byte : BitVec 8) (pos : BitVec 4) (s : State) : Host.Outcome State Fault Refusal :=
  .next (runCommand (getbitBody byte pos) s)

/-- SETBIT (R70). -/
def execSetbit (byte : BitVec 8) (pos : BitVec 4) (s : State) : Host.Outcome State Fault Refusal :=
  .next (runCommand (setbitBody byte pos) s)

/-- RDFIX (R71). -/
def execRdfix (nw : BitVec 4) (s : State) : Host.Outcome State Fault Refusal :=
  .next (runCommand (rdfixBody Config.params nw) s)

/-- WRFIX (R72). -/
def execWrfix (nw : BitVec 4) (s : State) : Host.Outcome State Fault Refusal :=
  .next (runCommand (wrfixBody Config.params nw) s)

end Sys2Proof.Machine
end

