-- ==== Sys2Proof/Machine/EntityCodec.lean ====
section
/-! DEFINITION. EENC and EDEC (43_entity_codec.md R95, R96). -/

namespace Sys2Proof.Machine

/-- The leaf entities of a tree in pre-order (00_scope.md R21). -/
def leaves : ETree → List Entity
  | .absent => []
  | .leaf v _ => [v]
  | .branch _ l r => leaves l ++ leaves r

/-- EENC's working values (R95): OUT and the value of ENTITY_COUNT. -/
structure EencWork where
  out : List Byte
  count : Nat
deriving DecidableEq, Repr

/-- EENC on one leaf (R95). -/
def eencLeaf (P : Params) (a : EencWork) (v : Entity) : Attempt EencWork :=
  if a.count = 2 ^ 32 - 1 then .error (a, .countOverflow)
  else
    match appendOut P a.out v with
    | none => .error (a, .outOverflow)
    | some out => .ok { out := out, count := a.count + 1 }

/-- The state with EENC's working values written back. -/
def eencStore (s : State) (a : EencWork) : State :=
  { s with outStream := a.out, entityCount := BitVec.ofNat 32 a.count }

/-- EENC's pseudocode (R95). TREE = None has no leaf, so it only clears ENTITY_COUNT. -/
def eencBody (P : Params) (s : State) : CmdResult :=
  match feedList (eencLeaf P) (leaves s.tree) { out := s.outStream, count := 0 } with
  | .error (a, r) => .raised (eencStore s a) r
  | .ok a => .done (eencStore s a)

/-- EDEC's pseudocode (R96). -/
def edecBody (s : State) : CmdResult :=
  match entityWidth s with
  | none => .raised s .badEntitySize
  | some W =>
    match takeRecords W s.inStream.length s.entityCount.toNat (inRest s) (cursor s) [] with
    | .done cur es => .done (setCursor cur { s with elist := es })
    | .raised cur es r => .raised (setCursor cur { s with elist := es }) r

/-- EENC (R95). -/
def execEenc (s : State) : Host.Outcome State Fault Refusal := .next (runCommand (eencBody Config.params) s)

/-- EDEC (R96). -/
def execEdec (s : State) : Host.Outcome State Fault Refusal := .next (runCommand edecBody s)

end Sys2Proof.Machine
end

