-- ==== Sys2Proof/Machine/TreeBuilder.lean ====
section
/-! DEFINITION. ANALYZE, BUILD and the code table (41_tree_builder.md R74-R80, R84). -/

namespace Sys2Proof.Machine

/-- Lexicographic order of entity bytes: the order FREQ is kept in (log 9) and REF numbers the leaves by (R80). -/
def entityLt : Entity → Entity → Bool
  | [], [] => false
  | [], _ :: _ => true
  | _ :: _, [] => false
  | a :: as, b :: bs => decide (a.toNat < b.toNat) || (a == b && entityLt as bs)

/-- `v in FREQ`. -/
def freqHas (m : List (Entity × Word64)) (v : Entity) : Bool := m.any (fun e => e.1 == v)

/-- `FREQ[v] <- FREQ[v] + 1`, with `FREQ[v] <- 0` first where v is new; a new key goes to its place in key order. -/
def freqBump : List (Entity × Word64) → Entity → List (Entity × Word64)
  | [], v => [(v, 1#64)]
  | (u, c) :: m, v =>
    if u = v then (u, c + 1#64) :: m
    else if entityLt v u then (v, 1#64) :: (u, c) :: m
    else (u, c) :: freqBump m v

/-- The body of ANALYZE's loop on one entity (R74): DISTINCT_OVERFLOW on a new entity when FREQ is full. -/
def countEntity (P : Params) (m : List (Entity × Word64)) (v : Entity) : Attempt (List (Entity × Word64)) :=
  if !freqHas m v && P.maxDistinct == some m.length then .error (m, .distinctOverflow) else .ok (freqBump m v)

/-- ANALYZE's pseudocode (R74). -/
def analyzeBody (P : Params) (s : State) : CmdResult :=
  match entityWidth s with
  | none => .raised s .badWidth
  | some W =>
    match feedRecords (countEntity P) W s.inStream.length s.inStream.length s.inStream 0 [] with
    | .done cur m => .done (setCursor cur { s with freq := m })
    | .raised cur m r => .raised (setCursor cur { s with freq := m }) r

/-- `freq(t)`, with `freq(None) = 0` (00_scope.md R19). -/
def treeFreq : ETree → Word64
  | .absent => 0#64
  | .leaf _ f => f
  | .branch f _ _ => f

/-- `min { freq(t) | t in P }` of a pool given by its first tree and the rest (R78). -/
def minFreq (t : ETree) (pool : List ETree) : Nat := pool.foldl (fun m u => min m (treeFreq u).toNat) (treeFreq t).toNat

/-- The places of the pool whose tree has frequency `m`: what CHOOSE may take (R78, R79). -/
def candidates (m : Nat) (pool : List ETree) : List Nat :=
  (List.range pool.length).filter (fun i => (treeFreq (pool.getD i .absent)).toNat == m)

/-- The draw numbered `k` among the candidates: any of them (R79; log 4). -/
def drawCandidate (P : Params) (k : Nat) (cs : List Nat) : Nat := cs.getD (P.tieBreak k % cs.length) 0

/-- `x <- CHOOSE t in P with freq(t) = min; P <- P - {x}` (R78), by the draw numbered `k`. None on an empty pool. -/
def removeMin (P : Params) (k : Nat) : List ETree → Option (ETree × List ETree)
  | [] => none
  | t :: ts =>
    let i := drawCandidate P k (candidates (minFreq t ts) (t :: ts))
    some ((t :: ts).getD i .absent, (t :: ts).eraseIdx i)

/-- The loop of `Merge` (R78), at most `fuel` rounds, from draw `k` on; the tree that is left and the next draw's
number. The first tree removed becomes the left child, the second the right. -/
def mergePool (P : Params) : Nat → List ETree → Nat → ETree × Nat
  | 0, pool, k => (pool.headD .absent, k)
  | fuel + 1, pool, k =>
    if pool.length < 2 then (pool.headD .absent, k)
    else
      match removeMin P k pool with
      | none => (.absent, k)
      | some (x, pool1) =>
        match removeMin P (k + 1) pool1 with
        | none => (x, k + 1)
        | some (y, pool2) => mergePool P fuel (pool2 ++ [.branch (treeFreq x + treeFreq y) x y]) (k + 2)

/-- The pool `Merge` starts from: a Leaf for every entry of FREQ (R78). -/
def leafPool (m : List (Entity × Word64)) : List ETree := m.map (fun e => .leaf e.1 e.2)

/-- The tree BUILD writes and the next draw's number (R75-R78). -/
def buildTree (P : Params) (m : List (Entity × Word64)) (k : Nat) : ETree × Nat :=
  match m with
  | [] => (.absent, k)
  | [(v, f)] => (.branch f (.leaf v f) .absent, k)
  | _ => mergePool P m.length (leafPool m) k

/-- BUILD's pseudocode (R75). -/
def buildBody (P : Params) (s : State) : CmdResult :=
  .done { s with tree := (buildTree P s.freq s.draws).1, draws := (buildTree P s.freq s.draws).2, freq := [] }

/-- The assignments `table[v] <- path` of `walk` (R84), in the order it makes them: 0 (false) for left, 1 (true) for right. -/
def codeWalk : ETree → List Bool → List (Entity × List Bool)
  | .absent, _ => []
  | .leaf v _, path => [(v, path)]
  | .branch _ l r, path => codeWalk l (path ++ [false]) ++ codeWalk r (path ++ [true])

/-- `CodeTable(t)` (R84). -/
def codeTable (t : ETree) : List (Entity × List Bool) := codeWalk t []

/-- `table[v]`, none where v has no code. A later assignment replaces an earlier one (log 16). -/
def codeOf (table : List (Entity × List Bool)) (v : Entity) : Option (List Bool) := table.reverse.lookup v

/-- ANALYZE (R74). -/
def execAnalyze (s : State) : Host.Outcome State Fault Refusal := .next (runCommand (analyzeBody Config.params) s)

/-- BUILD (R75). -/
def execBuild (s : State) : Host.Outcome State Fault Refusal := .next (runCommand (buildBody Config.params) s)

end Sys2Proof.Machine
end

