-- ==== Sys2Proof/Machine/PayloadCodec.lean ====
section
/-! DEFINITION. PENC and PDEC (44_payload_codec.md R99-R101). -/

namespace Sys2Proof.Machine

/-- The body of PENC's loop on one entity (R99). -/
def encodeEntity (P : Params) (table : List (Entity × List Bool)) (p : Packer) (v : Entity) : Attempt Packer :=
  match codeOf table v with
  | none => .error (p, .codeMissing)
  | some code => putBits P code p

/-- Both data counts are cleared, as after every fault of PENC (R99, R111). -/
def pencClear (s : State) : State := { s with dataByteCount := 0#64, dataLastBits := 0#8 }

/-- PENC's pseudocode (R99). DESIGN CHOICE, log 23: BAD_WIDTH clears the counts too ("On a fault DATA_BYTE_COUNT =
DATA_LAST_BITS = 0"; R111, D34), although the pseudocode makes that check one line before it clears them. -/
def pencBody (P : Params) (s : State) : CmdResult :=
  match entityWidth s with
  | none => .raised (pencClear s) .badWidth
  | some W =>
    match feedRecords (encodeEntity P (codeTable s.tree)) W s.inStream.length s.inStream.length s.inStream 0
        (Packer.start s.outStream) with
    | .raised cur p r => .raised (setCursor cur { pencClear s with outStream := p.out }) r
    | .done cur p =>
      match flush P p with
      | .error (p', r) => .raised (setCursor cur { pencClear s with outStream := p'.out }) r
      | .ok p' =>
        if 2 ^ 64 - 1 < p'.nbytes then
          .raised (setCursor cur { pencClear s with outStream := p'.out }) .countOverflow
        else
          .done (setCursor cur { s with
            outStream := p'.out, dataByteCount := BitVec.ofNat 64 p'.nbytes, dataLastBits := BitVec.ofNat 8 p'.n })

/-- PDEC's working values (R100): the walk position and OUT. -/
structure PdecWork where
  pos : DTree
  out : List Byte
deriving DecidableEq, Repr

/-- PDEC on one bit (R100): a move from a DBranch, and at a DLeaf its entity is emitted and the walk starts again. -/
def pdecBit (P : Params) (root : DTree) (a : PdecWork) (bit : Bool) : Attempt PdecWork :=
  match a.pos with
  | .branch l r =>
    match (if bit then r else l) with
    | .leaf v =>
      match appendOut P a.out v with
      | none => .error (a, .outOverflow)
      | some out => .ok { pos := root, out := out }
    | child => .ok { a with pos := child }
  | _ => .error (a, .walkNotBranch)

/-- PDEC's pseudocode (R100); the end of the section checks nothing (R101). -/
def pdecBody (P : Params) (s : State) : CmdResult :=
  match feedSection (pdecBit P s.dtree) s.dataLastBits s.inStream.length (inRest s) s.dataByteCount.toNat (cursor s)
      { pos := s.dtree, out := s.outStream } with
  | .raised cur a r => .raised (setCursor cur { s with outStream := a.out }) r
  | .done cur a => .done (setCursor cur { s with outStream := a.out })

/-- PENC (R99). -/
def execPenc (s : State) : Host.Outcome State Fault Refusal := .next (runCommand (pencBody Config.params) s)

/-- PDEC (R100). -/
def execPdec (s : State) : Host.Outcome State Fault Refusal := .next (runCommand (pdecBody Config.params) s)

end Sys2Proof.Machine
end

