-- ==== Sys2Proof/Machine/TreeCodec.lean ====
section
/-! DEFINITION. TENC and TDEC (42_tree_codec.md R86-R92). -/

namespace Sys2Proof.Machine

/-- `Shape(t)` (R86): pre-order, 0 (false) at a Branch, 1 (true) at a Leaf; an absent child gives no bit. -/
def shape : ETree → List Bool
  | .absent => []
  | .leaf _ _ => [true]
  | .branch _ l r => false :: (shape l ++ shape r)

/-- TENC's pseudocode (R87). DEDUCED, log 24: a fault leaves both counts as they were, as R87's order and "The counts are
then unchanged" say, although D27 has TENC set its counts from 0 at its start. -/
def tencBody (P : Params) (s : State) : CmdResult :=
  if s.tree = .absent then .done { s with treeByteCount := 0#32, treeLastBits := 0#8 }
  else
    match pack P (shape s.tree) s.outStream with
    | .error (p, r) => .raised { s with outStream := p.out } r
    | .ok p =>
      if 2 ^ 32 - 1 < p.nbytes then .raised { s with outStream := p.out } .countOverflow
      else
        .done { s with
          outStream := p.out, treeByteCount := BitVec.ofNat 32 p.nbytes, treeLastBits := BitVec.ofNat 8 p.n }

/-- `full(b)`: both slots of a DBranch are present (R88). -/
def isFull : DTree → Bool
  | .branch l r => l != .absent && r != .absent
  | _ => false

/-- `Attach(b, c)`: c goes into the left slot if it is absent, else into the right one (R88). -/
def attach : DTree → DTree → DTree
  | .branch .absent r, c => .branch c r
  | .branch l _, c => .branch l c
  | b, _ => b

/-- `Complete(r, ec)` (R89, R91). -/
def isComplete (r : DTree) (ec : Nat) : Bool :=
  isFull r ||
    (ec == 1 &&
      match r with
      | .branch (.leaf _) .absent => true
      | _ => false)

/-- TDEC's working values (R89): the stack, its top first, the index into ELIST, and the count of nodes. -/
structure TdecWork where
  stack : List DTree
  idx : Nat
  nodes : Nat
deriving DecidableEq, Repr

/-- The inner loop of R89: "while full(top(stack)) and len(stack) > 1", pop the top and attach it to the new top;
none is the SLOT_FULL raise. -/
def popFull (top : DTree) : List DTree → Option (List DTree)
  | [] => some [top]
  | par :: rest =>
    if isFull top then
      if isFull par then none else popFull (attach par top) rest
    else some (top :: par :: rest)

/-- TDEC on one bit (R89). -/
def tdecBit (P : Params) (elist : List Entity) (a : TdecWork) (bit : Bool) : Attempt TdecWork :=
  if bit = false then
    if nodesOver P (a.nodes + 1) then .error (a, .nodeOverflow)
    else .ok { a with stack := .branch .absent .absent :: a.stack, nodes := a.nodes + 1 }
  else
    match a.stack with
    | [] => .error (a, .noOpenBranch)
    | top :: rest =>
      match elist[a.idx]? with
      | none => .error (a, .listExhausted)
      | some v =>
        if isFull top then .error (a, .slotFull)
        else if nodesOver P (a.nodes + 1) then .error (a, .nodeOverflow)
        else
          match popFull (attach top (.leaf v)) rest with
          | none => .error (a, .slotFull)
          | some st => .ok { stack := st, idx := a.idx + 1, nodes := a.nodes + 1 }

/-- The end check of R89: the root where the section gave exactly one complete node and every count agrees. -/
def tdecRoot (elist : List Entity) (ec : Nat) (a : TdecWork) : Option DTree :=
  match a.stack with
  | [root] => if a.idx = ec ∧ a.idx = elist.length ∧ isComplete root ec = true then some root else none
  | _ => none

/-- TDEC's pseudocode (R89). -/
def tdecBody (P : Params) (s : State) : CmdResult :=
  if s.treeByteCount.toNat = 0 then
    if s.entityCount.toNat = 0 ∧ s.elist = [] then .done { s with dtree := .absent }
    else .raised { s with dtree := .absent } .emptySectionMismatch
  else
    match feedSection (tdecBit P s.elist) s.treeLastBits s.inStream.length (inRest s) s.treeByteCount.toNat (cursor s)
        { stack := [], idx := 0, nodes := 0 } with
    | .raised cur _ r => .raised (setCursor cur { s with dtree := .absent }) r
    | .done cur a =>
      match tdecRoot s.elist s.entityCount.toNat a with
      | none => .raised (setCursor cur { s with dtree := .absent }) .endMismatch
      | some root => .done (setCursor cur { s with dtree := root })

/-- TENC (R87). -/
def execTenc (s : State) : Host.Outcome State Fault Refusal := .next (runCommand (tencBody Config.params) s)

/-- TDEC (R89). -/
def execTdec (s : State) : Host.Outcome State Fault Refusal := .next (runCommand (tdecBody Config.params) s)

end Sys2Proof.Machine
end

