-- ==== Sys2Proof/Machine/Dispatch.lean ====
section
/-! DEFINITION. The meaning of each command, one arm per constructor (30_encoding.md R62). -/

namespace Sys2Proof.Machine

def exec (i : Instr) (s : State) : Host.Outcome State Fault Refusal :=
  match i with
  | .getbit byte pos => Sys2Proof.Machine.execGetbit byte pos s
  | .setbit byte pos => Sys2Proof.Machine.execSetbit byte pos s
  | .rdfix nw => Sys2Proof.Machine.execRdfix nw s
  | .wrfix nw => Sys2Proof.Machine.execWrfix nw s
  | .analyze => Sys2Proof.Machine.execAnalyze s
  | .build => Sys2Proof.Machine.execBuild s
  | .tenc => Sys2Proof.Machine.execTenc s
  | .tdec => Sys2Proof.Machine.execTdec s
  | .eenc => Sys2Proof.Machine.execEenc s
  | .edec => Sys2Proof.Machine.execEdec s
  | .penc => Sys2Proof.Machine.execPenc s
  | .pdec => Sys2Proof.Machine.execPdec s

end Sys2Proof.Machine
end

