-- ==== Sys2Proof/Machine/HostPort.lean ====
section
/-! DEFINITION. The host's side of the engine (10_state.md R25): reading and writing registers (R29-R31), issuing a
command word (R26, R59, R63), the seven host actions, and the pseudo-commands ENCODE and DECODE (30_encoding.md R67). -/

namespace Sys2Proof.Machine

/-- OLEN, "always `len(OUT)`" (R29); past 64 bits the spec states no value, so it is the free `olenBeyond` (log 7). -/
def olen (P : Params) (s : State) : Word64 :=
  if s.outStream.length < 2 ^ 64 then BitVec.ofNat 64 s.outStream.length else P.olenBeyond s.outStream.length

/-- What `ReadCSR(i)` returns (R29, R31). CMD and the reserved indices read 0. -/
def csrRead (P : Params) (s : State) (i : BitVec 4) : Word64 :=
  match i.toNat with
  | 0x1 => (statusWord s).setWidth 64
  | 0x2 => s.version.setWidth 64
  | 0x3 => s.treeLastBits.setWidth 64
  | 0x4 => s.dataLastBits.setWidth 64
  | 0x5 => s.entitySize.setWidth 64
  | 0x6 => s.entityCount.setWidth 64
  | 0x7 => s.treeByteCount.setWidth 64
  | 0x8 => s.dataByteCount
  | 0x9 => s.operand
  | 0xA => s.result
  | 0xB => s.icur
  | 0xC => BitVec.ofNat 64 s.inStream.length
  | 0xD => olen P s
  | _ => 0#64

/-- `WriteCSR(i, v)` for i other than CMD (R30): truncate to the width, clamp ICUR, drop writes of read-only and
reserved indices. -/
def csrWrite (i : BitVec 4) (v : Word64) (s : State) : State :=
  match i.toNat with
  | 0x2 => { s with version := v.setWidth 8 }
  | 0x3 => { s with treeLastBits := v.setWidth 8 }
  | 0x4 => { s with dataLastBits := v.setWidth 8 }
  | 0x5 => { s with entitySize := v.setWidth 8 }
  | 0x6 => { s with entityCount := v.setWidth 32 }
  | 0x7 => { s with treeByteCount := v.setWidth 32 }
  | 0x8 => { s with dataByteCount := v }
  | 0x9 => { s with operand := v }
  | 0xB => setCursor (min v.toNat s.inStream.length) s
  | _ => s

/-- The reason a rejected word is raised with (R63, R107). -/
def rejectReason : DecodeReject → Reason
  | .badOpcode => .badOpcode
  | .badEncoding => .badEncoding

/-- `Issue(c)` (R25, R26, R63): with ERR = 1 it is rejected before decoding (R114), a word that does not decode raises
its CONTRACT fault, and any other runs its command. -/
def issue (c : Word32) (s : State) : Host.Outcome State Fault Refusal :=
  if s.err then .next (rejectCommand s)
  else
    match decode c with
    | .error e => .next (raiseFault (rejectReason e) s)
    | .ok i => exec i s

/-- The effect of `LoadIn(bs)` (R25). -/
def loadStream (bs : List Byte) (s : State) : State := setCursor 0 { s with inStream := bs }

/-- `LoadIn(bs)`, which "requires `len(bs) <= MAX_IN_LEN`" (R25; log 6). -/
def loadIn (P : Params) (bs : List Byte) (s : State) : Host.Outcome State Fault Refusal :=
  if bs.length ≤ P.maxInLen.toNat then .next (loadStream bs s) else .fault .loadInTooLong

/-- The host is told `r`; the block's state does not change (R25; log 3). -/
def reply (r : HostReply) (s : State) : State := { s with replies := s.replies ++ [r] }

/-- One host action (R25). -/
def hostAct (a : HostAction) (s : State) : Host.Outcome State Fault Refusal :=
  match a with
  | .writeCsr i v => if i = 0#4 then issue (v.setWidth 32) s else .next (csrWrite i v s)
  | .readCsr i => .next (reply (.csr i (csrRead Config.params s i)) s)
  | .loadIn bs => loadIn Config.params bs s
  | .readOut => .next (reply (.bytes s.outStream) s)
  | .clearOut => .next { s with outStream := [] }
  | .issue c => issue c s
  | .reset => .next (resetBlock s)

/-- The next action of the host, or nothing: with no action left the engine is idle and holds its state (R122; log 2). -/
def hostStep (s : State) : Host.Outcome State Fault Refusal :=
  match s.host with
  | [] => .next s
  | a :: rest => hostAct a { s with host := rest }

/-- The state in which the next action of the host issues the word `c`. -/
def placeWord (c : Word32) (s : State) : State := { s with host := .issue c :: s.host }

/-- `ENCODE w` as host actions (R67). -/
def pseudoEncode (w : Word64) : List HostAction :=
  [.writeCsr 0x5#4 w, .issue (encode .analyze), .issue (encode .build), .issue (encode .eenc), .issue (encode .tenc),
    .issue (encode .penc)]

/-- `DECODE` as host actions (R67). -/
def pseudoDecode : List HostAction := [.issue (encode .edec), .issue (encode .tdec), .issue (encode .pdec)]

end Sys2Proof.Machine
end

