-- ==== Sys2Proof/Machine/Step.lean ====
section
/-! DEFINITION. One step of the machine: the host's next action (10_state.md R25, 70_reset_and_hazards.md R131). -/

namespace Sys2Proof.Machine

/-- One step (R24, R25, R131): the engine and the host do the host's next action, whole. -/
def step (s : State) : Host.Outcome State Fault Refusal := hostStep s

/-- `s` with the word of an opcode-table row placed as the host's next action: HUFF-CORE fetches nothing (R28, R57), the
host issues every command. A number that is no 32-bit word places nothing. Log 1, 12. -/
def State.withFetchWord (s : State) (nbits w : Nat) : State :=
  match tableWord nbits w with
  | none => s
  | some c => placeWord c s

end Sys2Proof.Machine
end

