-- ==== Sys2Proof/Safety.lean ====
section
/-! DEFINITION. The terms claims about HUFF-CORE are stated in: what a host observes and what a run without a fault is
(70_reset_and_hazards.md R131), the invariants of the state (10_state.md R31, R35, R36; 20_memory.md R40, R43), the
greedy merge as a relation (41_tree_builder.md R78, R79), and the closed forms of records, packed bits and codes. -/

namespace Sys2Proof.Machine

/-- "No fault recorded": `STATUS.ERR = 0 and STATUS.REJ = 0` (R131). -/
def NoFault (s : State) : Prop := s.err = false ∧ s.rej = false

/-- What the host observes of a state (R131): STATUS, the registers, and OUT. -/
structure Observation where
  csr : List Word64
  out : List Byte
deriving DecidableEq, Repr

/-- The observation of a state (R131): every register index in order, and `ReadOut()`. -/
def observe (P : Params) (s : State) : Observation :=
  { csr := (List.range 16).map (fun i => csrRead P s (BitVec.ofNat 4 i)), out := s.outStream }

/-- The fields STATUS stores are a state R31 and R107 allow: no fault and all zero, or one of R107's reasons. -/
def StatusOk (s : State) : Prop :=
  (s.err = false ∧ s.kind = 0#2 ∧ s.reason = 0#8 ∧ s.rej = false) ∨
    (s.err = true ∧ ∃ r : Reason, s.kind = r.kind.code ∧ s.reason = r.code)

/-- FREQ's keys are strictly ascending: the canonical form of the map (log 9). -/
def freqSorted : List (Entity × Word64) → Bool
  | [] => true
  | e :: m => m.all (fun e' => entityLt e.1 e'.1) && freqSorted m

/-- FREQ holds at most MAX_DISTINCT entities (R7). -/
def freqFits (P : Params) (m : List (Entity × Word64)) : Bool :=
  match P.maxDistinct with
  | none => true
  | some k => decide (m.length ≤ k)

/-- The streams and FREQ keep their form: `0 <= ICUR <= len(IN) <= MAX_IN_LEN` (R33, R40), `len(OUT) <= MAX_OUT_LEN` (R43),
FREQ canonical and within MAX_DISTINCT (R7). -/
def Memory.wf (P : Params) (s : State) : Bool :=
  decide (s.icur.toNat ≤ s.inStream.length) && decide (s.inStream.length ≤ P.maxInLen.toNat) &&
    !outTooLong P s.outStream.length && freqSorted s.freq && freqFits P s.freq

/-- The counts of FREQ together fit 64 bits, so no count and no sum of counts overflows (R9). -/
def CountsFit (s : State) : Prop := (s.freq.map (fun e => e.2.toNat)).sum < 2 ^ 64

/-- Every Branch of the tree has both children present and obeys the frequency law `f = freq(l) + freq(r)` (R35). -/
def FullTree : ETree → Prop
  | .absent => False
  | .leaf _ _ => True
  | .branch f l r => f = treeFreq l + treeFreq r ∧ FullTree l ∧ FullTree r

/-- The one-entity tree: "a Branch of frequency f. Its left child is `Leaf(v, f)` and its right child is absent" (R77). -/
def SingleTree (t : ETree) : Prop := ∃ v f, t = .branch f (.leaf v f) .absent

/-- R35's invariant of a tree of two or more entities: a Branch, full and lawful throughout, its leaves distinct. -/
def MergedTree (t : ETree) : Prop := (∃ f l r, t = .branch f l r) ∧ FullTree t ∧ (leaves t).Nodup

/-- R35's invariant of TREE: None, the one-entity tree, or full and lawful with distinct leaves. It admits trees that no
greedy merge returns; `GreedyTree` does not. -/
def BuiltTree (t : ETree) : Prop := t = .absent ∨ SingleTree t ∨ MergedTree t

/-- FREQ's entities are pairwise distinct, and TREE meets R35's invariant. -/
def EncodeOk (s : State) : Prop := (s.freq.map Prod.fst).Nodup ∧ BuiltTree s.tree

/-- Every DBranch of the tree has both children present. -/
def FullDTree : DTree → Prop
  | .absent => False
  | .leaf _ => True
  | .branch l r => FullDTree l ∧ FullDTree r

/-- The invariant of DTREE (R36): None, or "a DBranch at its root. Every DBranch except the root is full". -/
def DTreeOk (t : DTree) : Prop :=
  t = .absent ∨ ∃ l r, t = .branch l r ∧ (l = .absent ∨ FullDTree l) ∧ (r = .absent ∨ FullDTree r)

/-- `strip(T)`: "drops every frequency and keeps the shape and the leaf bytes" (42_tree_codec.md R93). -/
def strip : ETree → DTree
  | .absent => .absent
  | .leaf v _ => .leaf v
  | .branch _ l r => .branch (strip l) (strip r)

/-- The number of nodes of a tree. -/
def nodeCount : ETree → Nat
  | .absent => 0
  | .leaf _ _ => 1
  | .branch _ l r => 1 + nodeCount l + nodeCount r

/-- The height of a tree in edges; None and a Leaf have height 0. -/
def height : ETree → Nat
  | .absent => 0
  | .leaf _ _ => 0
  | .branch _ l r => 1 + max (height l) (height r)

/-- The leaves with their counts and depths, "the number of edges from the root" (R81), below a node at depth `d`. -/
def leavesAt : ETree → Nat → List (Entity × Word64 × Nat)
  | .absent, _ => []
  | .leaf v f, d => [(v, f, d)]
  | .branch _ l r, d => leavesAt l (d + 1) ++ leavesAt r (d + 1)

/-- The greedy merge as a relation between a pool and the tree it ends in (R78), with CHOOSE free among the nodes of
minimum frequency (R79). -/
inductive GreedyMerge : List ETree → ETree → Prop where
  /-- One tree is left: it is the result. -/
  | last (t : ETree) : GreedyMerge [t] t
  /-- Remove x, then y, each of minimum frequency, and put their Branch back: x left, y right. -/
  | merge (pool pool1 pool2 : List ETree) (x y t : ETree)
      (hx : pool.Perm (x :: pool1)) (minx : ∀ u ∈ pool, (treeFreq x).toNat ≤ (treeFreq u).toNat)
      (hy : pool1.Perm (y :: pool2)) (miny : ∀ u ∈ pool1, (treeFreq y).toNat ≤ (treeFreq u).toNat)
      (rest : GreedyMerge (.branch (treeFreq x + treeFreq y) x y :: pool2) t) : GreedyMerge pool t

/-- A tree BUILD can have written: None, the one-entity tree, or what the greedy merge returns for the leaves of some FREQ
(R75 to R79). -/
def GreedyTree (t : ETree) : Prop :=
  t = .absent ∨ SingleTree t ∨ ∃ m : List (Entity × Word64), (m.map Prod.fst).Nodup ∧ 2 ≤ m.length ∧ GreedyMerge (leafPool m) t

/-- The complete W-byte entities of a byte sequence, in order (R34). -/
def records (W : Nat) (bs : List Byte) : List Entity :=
  (List.range (bs.length / W)).map (fun k => (bs.drop (k * W)).take W)

/-- FREQ after ANALYZE has read the entities `es` (R74): each one once, with the number of its occurrences. -/
def CountsOf (es : List Entity) (m : List (Entity × Word64)) : Prop :=
  (m.map Prod.fst).Nodup ∧ ∀ v : Entity, m.lookup v = if v ∈ es then some (BitVec.ofNat 64 (es.count v)) else none

/-- Byte `j` of a packed bit string: "Bit i of the string goes to byte `i div 8`, at position `i mod 8` counted from the
most significant bit" (20_memory.md R46); positions past the end are 0. -/
def packedByte (bits : List Bool) (j : Nat) : Byte :=
  BitVec.ofNat 8 (((List.range 8).map (fun p => if bits.getD (8 * j + p) false then 2 ^ (7 - p) else 0)).sum)

/-- The bytes of a packed bit string: `ceil(k / 8)` of them (R46). -/
def packed (bits : List Bool) : List Byte := (List.range ((bits.length + 7) / 8)).map (packedByte bits)

/-- The codes of a list of entities, one after the other; an entity without a code gives no bit. -/
def codeBits (t : ETree) (es : List Entity) : List Bool := es.flatMap (fun v => (codeOf (codeTable t) v).getD [])

/-- The node a path leads to, 0 (false) for left and 1 (true) for right (R84); absent where the path leaves the tree. -/
def descend : ETree → List Bool → ETree
  | t, [] => t
  | .branch _ l r, b :: path => descend (if b then r else l) path
  | _, _ :: _ => .absent

/-- The OPC values of the opcode map (30_encoding.md R62), as numbers. -/
def opcAssigned (c : Word32) : Prop :=
  c.toNat % 256 ∈ [0x01, 0x02, 0x03, 0x04, 0x10, 0x11, 0x20, 0x21, 0x30, 0x31, 0x40, 0x41]

/-- A word with an assigned OPC that R64 still calls illegal: "any nonzero RSV, or a nonzero must-be-zero field", or an NW
outside {1, 2, 4, 8} in RDFIX and WRFIX; fields by division, as R59 numbers them. -/
def encodingIllegal (c : Word32) : Prop :=
  c.toNat / 2 ^ 24 ≠ 0 ∨
    (c.toNat % 256 ∈ [0x01, 0x02] ∧ c.toNat / 2 ^ 12 % 16 ≠ 0) ∨
    (c.toNat % 256 ∈ [0x03, 0x04] ∧
      (c.toNat / 2 ^ 8 % 16 ≠ 0 ∨ c.toNat / 2 ^ 16 % 256 ≠ 0 ∨ c.toNat / 2 ^ 12 % 16 ∉ [1, 2, 4, 8])) ∨
    (c.toNat % 256 ∉ [0x01, 0x02, 0x03, 0x04] ∧ c.toNat / 2 ^ 8 % 2 ^ 16 ≠ 0)

/-- The (KIND, REASON) pairs each command may raise: the "raised by" column of R107 read by command. -/
def raisedCodes : Instr → List (BitVec 2 × BitVec 8)
  | .getbit _ _ => [(2#2, 0x12#8)]
  | .setbit _ _ => [(2#2, 0x12#8)]
  | .rdfix _ => [(1#2, 0x01#8)]
  | .wrfix _ => [(3#2, 0x23#8)]
  | .analyze => [(1#2, 0x01#8), (2#2, 0x13#8), (3#2, 0x20#8)]
  | .build => []
  | .tenc => [(3#2, 0x22#8), (3#2, 0x23#8)]
  | .tdec => [(1#2, 0x01#8), (1#2, 0x02#8), (1#2, 0x03#8), (1#2, 0x04#8), (1#2, 0x06#8), (1#2, 0x07#8), (3#2, 0x21#8)]
  | .eenc => [(3#2, 0x22#8), (3#2, 0x23#8)]
  | .edec => [(1#2, 0x01#8), (1#2, 0x08#8)]
  | .penc => [(1#2, 0x01#8), (2#2, 0x13#8), (2#2, 0x14#8), (3#2, 0x22#8), (3#2, 0x23#8)]
  | .pdec => [(1#2, 0x01#8), (1#2, 0x05#8), (3#2, 0x23#8)]

/-- The state with a fault's record in STATUS (R111) and nothing else changed. -/
def faulted (kind : BitVec 2) (reason : BitVec 8) (s : State) : State :=
  { s with err := true, kind := kind, reason := reason }

/-- A run of `n` steps, to the state after them or the first stop (R131: the actions are "applied in order"). -/
def runSteps : Nat → State → Host.Outcome State Fault Refusal
  | 0, s => .next s
  | n + 1, s =>
    match step s with
    | .next t => runSteps n t
    | stop => stop

/-- What R67's ENCODE runs after it wrote ENTITY_SIZE: ANALYZE, BUILD, EENC, TENC, PENC, under the parameters P. -/
def encodeRun (P : Params) (s : State) : State :=
  runCommand (pencBody P) (runCommand (tencBody P) (runCommand (eencBody P) (runCommand (buildBody P)
    (runCommand (analyzeBody P) s))))

/-- What R67's DECODE runs: EDEC, TDEC, PDEC, under the parameters P. -/
def decodeRun (P : Params) (s : State) : State := runCommand (pdecBody P) (runCommand (tdecBody P) (runCommand edecBody s))

end Sys2Proof.Machine
end

