-- ==== Sys2Proof/Certificates/Slice0/Obligations.lean ====
section
/-! DEFINITION. The statements for the provers. Each docstring says which rule of spec/ it formalises; a statement over an
arbitrary `P : Params` holds for every chip R7 describes, and `exec` is the one with `Config.params`. -/

open Sys2Proof Sys2Proof.Machine

/-! Encoding (30_encoding.md). -/

/-- R66's example words and one word of each other family decode to the commands they stand for. -/
def Obligations.WrittenWordsDecode : Prop :=
  decode 0x00000002#32 = .ok (.setbit 0x00#8 0#4) ∧ decode 0x00580101#32 = .ok (.getbit 0x58#8 1#4) ∧
    decode 0x00004003#32 = .ok (.rdfix 4#4) ∧ decode 0x00008004#32 = .ok (.wrfix 8#4) ∧
    decode 0x00000021#32 = .ok .tdec ∧ decode 0x00000010#32 = .ok .analyze ∧
    decode 0x00000030#32 = .ok .eenc ∧ decode 0x00000040#32 = .ok .penc

/-- Every well-formed command's word decodes to that command, with every operand (R60 to R63). -/
def Obligations.DecodeInvertsEncode : Prop :=
  ∀ i : Instr, i.wellFormed = true → decode (encode i) = .ok i

/-- A word that decodes is the word of the well-formed command it decodes to: each command has one word (R63). -/
def Obligations.EncodeInvertsDecode : Prop :=
  ∀ (c : Word32) (i : Instr), decode c = .ok i → i.wellFormed = true ∧ encode i = c

/-- R63, with the fields taken by division as R59 numbers them: BAD_OPCODE first, then BAD_ENCODING, and otherwise the
command OPC selects with the operands of R61. -/
def Obligations.DecodeChecksInOrder : Prop :=
  ∀ c : Word32,
    (¬opcAssigned c → decode c = .error .badOpcode) ∧
    (opcAssigned c → encodingIllegal c → decode c = .error .badEncoding) ∧
    (¬encodingIllegal c →
      (c.toNat % 256 = 0x01 →
        decode c = .ok (.getbit (BitVec.ofNat 8 (c.toNat / 2 ^ 16)) (BitVec.ofNat 4 (c.toNat / 2 ^ 8)))) ∧
      (c.toNat % 256 = 0x02 →
        decode c = .ok (.setbit (BitVec.ofNat 8 (c.toNat / 2 ^ 16)) (BitVec.ofNat 4 (c.toNat / 2 ^ 8)))) ∧
      (c.toNat % 256 = 0x03 → decode c = .ok (.rdfix (BitVec.ofNat 4 (c.toNat / 2 ^ 12)))) ∧
      (c.toNat % 256 = 0x04 → decode c = .ok (.wrfix (BitVec.ofNat 4 (c.toNat / 2 ^ 12)))) ∧
      (c.toNat % 256 = 0x10 → decode c = .ok .analyze) ∧ (c.toNat % 256 = 0x11 → decode c = .ok .build) ∧
      (c.toNat % 256 = 0x20 → decode c = .ok .tenc) ∧ (c.toNat % 256 = 0x21 → decode c = .ok .tdec) ∧
      (c.toNat % 256 = 0x30 → decode c = .ok .eenc) ∧ (c.toNat % 256 = 0x31 → decode c = .ok .edec) ∧
      (c.toNat % 256 = 0x40 → decode c = .ok .penc) ∧ (c.toNat % 256 = 0x41 → decode c = .ok .pdec))

/-- R62's match and mask columns: "a word w selects the row when `w & mask = match`", for RDFIX and WRFIX with NW in
{1, 2, 4, 8}; and a word that decodes is selected by its command's row and by no other. -/
def Obligations.MatchAndMaskSelectTheRow : Prop :=
  (∀ (c : Word32) (i : Instr), c &&& rowMask i = rowMatch i →
    (rowMask i = 0xFFFF0FFF#32 → nwLegal (fieldNw c) = true) →
    ∃ j, decode c = .ok j ∧ rowMatch j = rowMatch i ∧ rowMask j = rowMask i) ∧
  (∀ (c : Word32) (j : Instr), decode c = .ok j →
    c &&& rowMask j = rowMatch j ∧ (rowMask j = 0xFFFF0FFF#32 → nwLegal (fieldNw c) = true) ∧
    ∀ i : Instr, c &&& rowMask i = rowMatch i → rowMatch j = rowMatch i)

/-! The host and the sticky fault (10_state.md, 60_exceptions.md, 70_reset_and_hazards.md). -/

/-- With ERR = 0, `Issue(c)` of a word that decodes, and the write of it to CMD, are that command (R24, R25, R30); the host's
next action is done and nothing else happens. `withFetchWord` places such a word as the next action. -/
def Obligations.StepRunsTheIssuedCommand : Prop :=
  ∀ (s : State) (c : Word32) (i : Instr) (rest : List HostAction), s.err = false → decode c = .ok i →
    step { s with host := .issue c :: rest } = exec i { s with host := rest } ∧
    (∀ v : Word64, BitVec.ofNat 32 v.toNat = c →
      step { s with host := .writeCsr 0#4 v :: rest } = exec i { s with host := rest }) ∧
    step (s.withFetchWord 32 c.toNat) = exec i s

/-- R64: with ERR = 0, an illegal word raises a CONTRACT fault, BAD_OPCODE (0x10) where OPC is unassigned and BAD_ENCODING
(0x11) otherwise, and changes nothing else of the block. -/
def Obligations.IllegalWordRaisesContract : Prop :=
  ∀ (s : State) (c : Word32) (rest : List HostAction), s.err = false →
    (¬opcAssigned c →
      step { s with host := .issue c :: rest } = .next (faulted 2#2 0x10#8 { s with host := rest })) ∧
    (opcAssigned c → encodingIllegal c →
      step { s with host := .issue c :: rest } = .next (faulted 2#2 0x11#8 { s with host := rest }))

/-- R26 and R113: with ERR = 1 an issued word sets REJ and changes nothing else, KIND and REASON keep the first fault, and
only `Reset()` clears ERR. That each command's own meaning rejects as well is log 10 (DEDUCED), from "Every command also
obeys 10_state.md rule R26" (40_bit_primitives.md). -/
def Obligations.FaultIsSticky : Prop :=
  ∀ s : State, s.err = true →
    (∀ i : Instr, exec i s = .next { s with rej := true }) ∧
    (∀ (c : Word32) (rest : List HostAction),
      step { s with host := .issue c :: rest } = .next { s with host := rest, rej := true }) ∧
    (∀ t : State, step s = .next t →
      (∃ rest, s.host = .reset :: rest) ∨ (t.err = true ∧ t.kind = s.kind ∧ t.reason = s.reason))

/-- R123: `Reset()`, whatever ERR is, sets every piece of the block's state to its reset value. -/
def Obligations.ResetActionSetsEveryValue : Prop :=
  ∀ (s : State) (rest : List HostAction), ∃ t, step { s with host := .reset :: rest } = .next t ∧
    statusWord t = 0x00000020#32 ∧ t.err = false ∧ t.kind = 0#2 ∧ t.reason = 0#8 ∧ t.rej = false ∧
    t.version = Config.params.formatVersion ∧ t.treeLastBits = 0#8 ∧ t.dataLastBits = 0#8 ∧ t.entitySize = 0#8 ∧
    t.entityCount = 0#32 ∧ t.treeByteCount = 0#32 ∧ t.dataByteCount = 0#64 ∧ t.operand = 0#64 ∧ t.result = 0#64 ∧
    t.inStream = [] ∧ t.icur = 0#64 ∧ t.outStream = [] ∧ t.freq = [] ∧ t.tree = .absent ∧ t.elist = [] ∧
    t.dtree = .absent

/-- R39: the registers as the host reads them after reset, index by index, and the structures. -/
def Obligations.ResetStateValues : Prop :=
  (∀ i : BitVec 4, csrRead Config.params State.reset i =
    if i = 0x1#4 then 0x20#64 else if i = 0x2#4 then Config.params.formatVersion.setWidth 64 else 0#64) ∧
  State.reset.inStream = [] ∧ State.reset.outStream = [] ∧ State.reset.freq = [] ∧ State.reset.tree = .absent ∧
  State.reset.elist = [] ∧ State.reset.dtree = .absent

/-- R30: `WriteCSR(i, v)` for every index. -/
def Obligations.WriteCsrRule : Prop :=
  ∀ (s : State) (i : BitVec 4) (v : Word64) (rest : List HostAction),
    (i = 0x0#4 → step { s with host := .writeCsr i v :: rest } =
      step { s with host := .issue (BitVec.ofNat 32 v.toNat) :: rest }) ∧
    (i ∈ [0x1#4, 0xA#4, 0xC#4, 0xD#4, 0xE#4, 0xF#4] →
      step { s with host := .writeCsr i v :: rest } = .next { s with host := rest }) ∧
    (i = 0xB#4 → step { s with host := .writeCsr i v :: rest } =
      .next { s with host := rest, icur := BitVec.ofNat 64 (min v.toNat s.inStream.length) }) ∧
    (i = 0x2#4 → step { s with host := .writeCsr i v :: rest } =
      .next { s with host := rest, version := BitVec.ofNat 8 v.toNat }) ∧
    (i = 0x3#4 → step { s with host := .writeCsr i v :: rest } =
      .next { s with host := rest, treeLastBits := BitVec.ofNat 8 v.toNat }) ∧
    (i = 0x4#4 → step { s with host := .writeCsr i v :: rest } =
      .next { s with host := rest, dataLastBits := BitVec.ofNat 8 v.toNat }) ∧
    (i = 0x5#4 → step { s with host := .writeCsr i v :: rest } =
      .next { s with host := rest, entitySize := BitVec.ofNat 8 v.toNat }) ∧
    (i = 0x6#4 → step { s with host := .writeCsr i v :: rest } =
      .next { s with host := rest, entityCount := BitVec.ofNat 32 v.toNat }) ∧
    (i = 0x7#4 → step { s with host := .writeCsr i v :: rest } =
      .next { s with host := rest, treeByteCount := BitVec.ofNat 32 v.toNat }) ∧
    (i = 0x8#4 → step { s with host := .writeCsr i v :: rest } =
      .next { s with host := rest, dataByteCount := v }) ∧
    (i = 0x9#4 → step { s with host := .writeCsr i v :: rest } = .next { s with host := rest, operand := v })

/-- R25 and R29: `ReadCSR(i)` changes no state of the block, and the value it returns (the model appends it to `replies`, log
3) is the register's; ILEN and OLEN are the lengths, CMD and the reserved indices read 0. -/
def Obligations.ReadCsrReturnsTheRegister : Prop :=
  (∀ (s : State) (i : BitVec 4) (rest : List HostAction),
    step { s with host := .readCsr i :: rest } =
      .next { s with host := rest, replies := s.replies ++ [.csr i (csrRead Config.params s i)] }) ∧
  (∀ (P : Params) (s : State),
    csrRead P s 0x0#4 = 0#64 ∧ (csrRead P s 0x2#4).toNat = s.version.toNat ∧
    (csrRead P s 0x3#4).toNat = s.treeLastBits.toNat ∧ (csrRead P s 0x4#4).toNat = s.dataLastBits.toNat ∧
    (csrRead P s 0x5#4).toNat = s.entitySize.toNat ∧ (csrRead P s 0x6#4).toNat = s.entityCount.toNat ∧
    (csrRead P s 0x7#4).toNat = s.treeByteCount.toNat ∧ csrRead P s 0x8#4 = s.dataByteCount ∧
    csrRead P s 0x9#4 = s.operand ∧ csrRead P s 0xA#4 = s.result ∧ csrRead P s 0xB#4 = s.icur ∧
    (s.inStream.length < 2 ^ 64 → (csrRead P s 0xC#4).toNat = s.inStream.length) ∧
    (s.outStream.length < 2 ^ 64 → (csrRead P s 0xD#4).toNat = s.outStream.length) ∧
    csrRead P s 0xE#4 = 0#64 ∧ csrRead P s 0xF#4 = 0#64)

/-- R31: each bit of STATUS as the host reads it. -/
def Obligations.StatusBits : Prop :=
  ∀ (P : Params) (s : State) (k : Nat), k < 64 →
    (csrRead P s 0x1#4).getLsbD k =
      if k = 0 then s.err
      else if k ≤ 2 then s.kind.getLsbD (k - 1)
      else if k = 3 then decide (s.tree ≠ .absent)
      else if k = 4 then decide (s.dtree ≠ .absent)
      else if k = 5 then decide (s.icur.toNat = s.inStream.length)
      else if k = 6 then s.rej
      else if k = 7 then false
      else if k ≤ 15 then s.reason.getLsbD (k - 8)
      else false

/-- R25's stream actions: `LoadIn` within MAX_IN_LEN, `ClearOut`, `ReadOut` (its answer goes to `replies`, log 3). -/
def Obligations.HostStreamActions : Prop :=
  ∀ (s : State) (bs : List Byte) (rest : List HostAction),
    (bs.length ≤ Config.params.maxInLen.toNat →
      step { s with host := .loadIn bs :: rest } =
        .next { s with host := rest, inStream := bs, icur := 0#64 }) ∧
    step { s with host := .clearOut :: rest } = .next { s with host := rest, outStream := [] } ∧
    step { s with host := .readOut :: rest } =
      .next { s with host := rest, replies := s.replies ++ [.bytes s.outStream] }

/-- R122: with no action of the host the engine "is idle and holds its state unchanged" (the model's step, log 2). -/
def Obligations.IdleEngineKeepsItsState : Prop :=
  ∀ s : State, s.host = [] → step s = .next s

/-- R107: a command that raises (from ERR = 0) records one of the KIND and REASON pairs the table lists for it. -/
def Obligations.CommandsRaiseOnlyTheirReasons : Prop :=
  ∀ (i : Instr) (s t : State), i.wellFormed = true → s.err = false → exec i s = .next t → t.err = true →
    (t.kind, t.reason) ∈ raisedCodes i

/-! Bit primitives (40_bit_primitives.md). -/

/-- R69: GETBIT's word, and that it reads the bit of weight 2^(7-pos), or raises BIT_POS_RANGE and keeps RESULT. -/
def Obligations.GetbitReadsThePosition : Prop :=
  ∀ (byte : BitVec 8) (pos : BitVec 4) (s : State), s.err = false →
    encode (.getbit byte pos) = BitVec.ofNat 32 (byte.toNat * 2 ^ 16 + pos.toNat * 2 ^ 8 + 0x01) ∧
    (pos.toNat ≤ 7 → exec (.getbit byte pos) s =
      .next { s with result := if byte.getLsbD (7 - pos.toNat) then 1#64 else 0#64 }) ∧
    (7 < pos.toNat → exec (.getbit byte pos) s = .next (faulted 2#2 0x12#8 s))

/-- R70: SETBIT's word, and that it gives the byte with the bit of weight 2^(7-pos) set, or raises BIT_POS_RANGE and keeps
RESULT. -/
def Obligations.SetbitSetsThePosition : Prop :=
  ∀ (byte : BitVec 8) (pos : BitVec 4) (s : State), s.err = false →
    encode (.setbit byte pos) = BitVec.ofNat 32 (byte.toNat * 2 ^ 16 + pos.toNat * 2 ^ 8 + 0x02) ∧
    (pos.toNat ≤ 7 → exec (.setbit byte pos) s =
      .next { s with
        result :=
          BitVec.ofNat 64 (if byte.getLsbD (7 - pos.toNat) then byte.toNat else byte.toNat + 2 ^ (7 - pos.toNat)) }) ∧
    (7 < pos.toNat → exec (.setbit byte pos) s = .next (faulted 2#2 0x12#8 s))

/-- R71: RDFIX n and its word, with the integer of R16 written as its sum, and the exhausted read. -/
def Obligations.RdfixReadsAnInteger : Prop :=
  ∀ (nw : BitVec 4) (s : State), s.err = false → nw.toNat ∈ [1, 2, 4, 8] →
    encode (.rdfix nw) = BitVec.ofNat 32 (nw.toNat * 2 ^ 12 + 0x03) ∧
    (s.icur.toNat + nw.toNat ≤ s.inStream.length → exec (.rdfix nw) s =
      .next { s with
        icur := BitVec.ofNat 64 (s.icur.toNat + nw.toNat)
        result := BitVec.ofNat 64 (match Config.params.nativeOrder with
          | .le => ∑ i ∈ Finset.range nw.toNat, (s.inStream.getD (s.icur.toNat + i) 0#8).toNat * 256 ^ i
          | .be => ∑ i ∈ Finset.range nw.toNat,
              (s.inStream.getD (s.icur.toNat + i) 0#8).toNat * 256 ^ (nw.toNat - 1 - i)) }) ∧
    (s.inStream.length < s.icur.toNat + nw.toNat → exec (.rdfix nw) s =
      .next (faulted 1#2 0x01#8 { s with icur := BitVec.ofNat 64 s.inStream.length }))

/-- R72 and R43: WRFIX n appends the low n bytes of OPERAND in NATIVE_ORDER, or, past MAX_OUT_LEN, nothing. -/
def Obligations.WrfixAppendsTheOperand : Prop :=
  ∀ (nw : BitVec 4) (s : State), s.err = false → nw.toNat ∈ [1, 2, 4, 8] →
    (s.outStream.length + nw.toNat ≤ 2 ^ 64 - 1 → exec (.wrfix nw) s =
      .next { s with outStream := s.outStream ++ (List.range nw.toNat).map (fun i =>
        match Config.params.nativeOrder with
        | .le => BitVec.ofNat 8 (s.operand.toNat / 256 ^ i)
        | .be => BitVec.ofNat 8 (s.operand.toNat / 256 ^ (nw.toNat - 1 - i))) }) ∧
    (∀ (P : Params) (m : Nat), P.maxOutLen = some m → m < s.outStream.length + nw.toNat →
      runCommand (wrfixBody P nw) s = faulted 3#2 0x23#8 s)

/-- R73: RDFIX n reads back what WRFIX n appended, under either byte order. -/
def Obligations.RdfixReadsBackWrfix : Prop :=
  ∀ (nw : BitVec 4) (v : Word64) (s : State), s.err = false → s.outStream = [] → nw.toNat ∈ [1, 2, 4, 8] →
    v.toNat < 256 ^ nw.toNat →
    ∃ t u, exec (.wrfix nw) { s with operand := v } = .next t ∧
      exec (.rdfix nw) { t with inStream := t.outStream, icur := 0#64 } = .next u ∧
      u.err = false ∧ u.result = v

/-! Tree builder (41_tree_builder.md). -/

/-- R74: ANALYZE of whole entities within MAX_DISTINCT counts each one; ICUR ends at len(IN), nothing else changes. -/
def Obligations.AnalyzeCountsEveryEntity : Prop :=
  ∀ s : State, s.err = false → s.entitySize.toNat ∈ [1, 2, 4, 8] → s.inStream.length % s.entitySize.toNat = 0 →
    (∀ m, Config.params.maxDistinct = some m → (records s.entitySize.toNat s.inStream).dedup.length ≤ m) →
    ∃ m, exec .analyze s = .next { s with freq := m, icur := BitVec.ofNat 64 s.inStream.length } ∧
      CountsOf (records s.entitySize.toNat s.inStream) m

/-- R74's faults: BAD_WIDTH changes nothing but STATUS; a trailing partial entity is EXHAUSTED with ICUR at len(IN); at the
first entity `v` that would be one distinct entity too many, DISTINCT_OVERFLOW with ICUR just past `v`. FREQ after a fault
"holds the counts of the complete entities read before the fault" (R74; log 22). -/
def Obligations.AnalyzeFaults : Prop :=
  ∀ s : State, s.err = false →
    (s.entitySize.toNat ∉ [1, 2, 4, 8] → exec .analyze s = .next (faulted 2#2 0x13#8 s)) ∧
    (s.entitySize.toNat ∈ [1, 2, 4, 8] → s.inStream.length % s.entitySize.toNat ≠ 0 →
      (∀ m, Config.params.maxDistinct = some m → (records s.entitySize.toNat s.inStream).dedup.length ≤ m) →
      ∃ m, exec .analyze s =
        .next (faulted 1#2 0x01#8 { s with freq := m, icur := BitVec.ofNat 64 s.inStream.length }) ∧
        CountsOf (records s.entitySize.toNat s.inStream) m) ∧
    (s.entitySize.toNat ∈ [1, 2, 4, 8] → ∀ (P : Params) (k : Nat), P.maxDistinct = some k →
      k < (records s.entitySize.toNat s.inStream).dedup.length →
      ∃ es v es' m, records s.entitySize.toNat s.inStream = es ++ v :: es' ∧ v ∉ es ∧ es.dedup.length = k ∧
        CountsOf es m ∧
        runCommand (analyzeBody P) s =
          faulted 3#2 0x20#8 { s with freq := m, icur := BitVec.ofNat 64 ((es.length + 1) * s.entitySize.toNat) })

/-- R76 and R77: BUILD of no entity gives no tree, and of one entity the Branch with its Leaf on the left. -/
def Obligations.BuildOfNoneAndOne : Prop :=
  ∀ s : State, s.err = false →
    (s.freq = [] → exec .build s = .next { s with tree := .absent }) ∧
    (∀ v f, s.freq = [(v, f)] →
      exec .build s = .next { s with freq := [], tree := .branch f (.leaf v f) .absent })

/-- R75 and R78: BUILD of two or more entities writes a tree the greedy merge can return, empties FREQ and changes nothing
else of the block; it makes two draws a round (the count of draws is the model's, log 4). -/
def Obligations.BuildIsAGreedyMerge : Prop :=
  ∀ s : State, s.err = false → 2 ≤ s.freq.length →
    ∃ T, exec .build s =
        .next { s with freq := [], tree := T, draws := s.draws + 2 * (s.freq.length - 1) } ∧
      GreedyMerge (leafPool s.freq) T

/-- R79: every tree the greedy merge can return is BUILD's under some draws (draws as a function of a counter are the
model's form of them, log 4). -/
def Obligations.EveryGreedyTreeIsReached : Prop :=
  ∀ (P : Params) (s : State) (T : ETree), s.err = false → 2 ≤ s.freq.length → GreedyMerge (leafPool s.freq) T →
    ∃ draw : Nat → Nat, (runCommand (buildBody { P with tieBreak := draw }) s).tree = T

/-- R81, but for the sibling property: the leaves are FREQ's entries, the root is a Branch with the total count, the
frequency law holds and every Branch is full for two or more entities, with 2n - 1 nodes and height at most n - 1; one
entity gives height 1. The total is modulo 2^64 (log 18), which `StepKeepsTheCountsFitting` makes exact. -/
def Obligations.BuiltTreeProperties : Prop :=
  ∀ s t : State, s.err = false → s.freq ≠ [] → exec .build s = .next t →
    (∃ f l r, t.tree = .branch f l r) ∧
    ((leavesAt t.tree 0).map (fun x => (x.1, x.2.1))).Perm s.freq ∧
    treeFreq t.tree = (s.freq.map Prod.snd).sum ∧
    (2 ≤ s.freq.length →
      FullTree t.tree ∧ nodeCount t.tree = 2 * s.freq.length - 1 ∧ height t.tree ≤ s.freq.length - 1) ∧
    (s.freq.length = 1 → SingleTree t.tree ∧ height t.tree = 1)

/-- R81's sibling property: "for all entities a, b with frequency(a) > frequency(b), depth(a) ≤ depth(b)". The premise
`CountsFit` is R9's, and an invariant (`StepKeepsTheCountsFitting`). -/
def Obligations.SiblingProperty : Prop :=
  ∀ s t : State, s.err = false → CountsFit s → exec .build s = .next t →
    ∀ a ∈ leavesAt t.tree 0, ∀ b ∈ leavesAt t.tree 0, b.2.1.toNat < a.2.1.toNat → a.2.2 ≤ b.2.2

/-- R84 and R85, for the trees R35 allows: every leaf has a code, which leads from the root to that leaf, is not empty and is
as long as the leaf is deep; with one entity it is `0`; with more, no code begins another. -/
def Obligations.CodeTableProperties : Prop :=
  ∀ T : ETree, BuiltTree T →
    (∀ v, v ∈ leaves T → ∃ c, codeOf (codeTable T) v = some c) ∧
    (∀ v, v ∉ leaves T → codeOf (codeTable T) v = none) ∧
    (∀ v c, codeOf (codeTable T) v = some c → c ≠ [] ∧ (∃ f, descend T c = .leaf v f) ∧
      ∀ f d, (v, f, d) ∈ leavesAt T 0 → c.length = d) ∧
    (SingleTree T → ∀ v c, codeOf (codeTable T) v = some c → c = [false]) ∧
    (∀ u v cu cv, codeOf (codeTable T) u = some cu → codeOf (codeTable T) v = some cv → cu <+: cv → u = v)

/-! Tree codec (42_tree_codec.md). -/

/-- R87: TENC of no tree clears the counts; of a tree it appends the packed shape and sets the counts; where the byte count
does not fit 32 bits it raises COUNT_OVERFLOW after the append and leaves the counts; where OUT would pass MAX_OUT_LEN it
raises OUT_OVERFLOW with the bytes that fit and leaves them too (R43). That a fault leaves the counts is R87 against D27, log
24; OUT after a fault is R111's, and log 22 (a chip may differ). -/
def Obligations.TencWritesTheShape : Prop :=
  ∀ s : State, s.err = false →
    (s.tree = .absent → exec .tenc s = .next { s with treeByteCount := 0#32, treeLastBits := 0#8 }) ∧
    (s.tree ≠ .absent → s.outStream.length + ((shape s.tree).length + 7) / 8 ≤ 2 ^ 64 - 1 →
      (((shape s.tree).length + 7) / 8 ≤ 2 ^ 32 - 1 → exec .tenc s =
        .next { s with
          outStream := s.outStream ++ packed (shape s.tree)
          treeByteCount := BitVec.ofNat 32 (((shape s.tree).length + 7) / 8)
          treeLastBits := BitVec.ofNat 8 ((shape s.tree).length % 8) }) ∧
      (2 ^ 32 - 1 < ((shape s.tree).length + 7) / 8 → exec .tenc s =
        .next (faulted 3#2 0x22#8 { s with outStream := s.outStream ++ packed (shape s.tree) }))) ∧
    (∀ (P : Params) (m : Nat), s.tree ≠ .absent → P.maxOutLen = some m →
      m < s.outStream.length + ((shape s.tree).length + 7) / 8 →
      runCommand (tencBody P) s = faulted 3#2 0x23#8 { s with
        outStream := s.outStream ++ (packed (shape s.tree)).take (m - s.outStream.length) })

/-- R92: a zero-byte tree section reads no bit: TDEC succeeds with no tree exactly when ENTITY_COUNT = 0 and ELIST is empty. -/
def Obligations.TdecOfAZeroByteSection : Prop :=
  ∀ s : State, s.err = false → s.treeByteCount = 0#32 →
    (s.entityCount = 0#32 ∧ s.elist = [] → exec .tdec s = .next { s with dtree := .absent }) ∧
    (¬(s.entityCount = 0#32 ∧ s.elist = []) → exec .tdec s = .next (faulted 1#2 0x07#8 { s with dtree := .absent }))

/-- R89's first check on a leaf marker: a section that begins with bit 1 raises NO_OPEN_BRANCH, one byte having been read; a
section with no byte left in IN raises EXHAUSTED. -/
def Obligations.TdecFaultsAtTheFirstBit : Prop :=
  ∀ s : State, s.err = false → s.treeByteCount ≠ 0#32 →
    (∀ b rest, s.inStream.drop s.icur.toNat = b :: rest → b.getLsbD 7 = true →
      exec .tdec s =
        .next (faulted 1#2 0x02#8 { s with dtree := .absent, icur := BitVec.ofNat 64 (s.icur.toNat + 1) })) ∧
    (s.inStream.length ≤ s.icur.toNat → exec .tdec s =
      .next (faulted 1#2 0x01#8 { s with dtree := .absent, icur := BitVec.ofNat 64 s.inStream.length }))

/-- R93: TDEC over the section TENC wrote, with ELIST the leaves in pre-order and ENTITY_COUNT their number, succeeds with
`strip` of the tree and consumes exactly the section. -/
def Obligations.TdecRebuildsTheTencTree : Prop :=
  ∀ (P : Params) (s u : State), s.err = false → s.outStream = [] → BuiltTree s.tree → s.tree ≠ .absent →
    (leaves s.tree).length < 2 ^ 32 → outTooLong P (nodeCount s.tree) = false →
    nodesOver P (nodeCount s.tree) = false →
    u = { runCommand (tencBody P) s with
      inStream := (runCommand (tencBody P) s).outStream, icur := 0#64, elist := leaves s.tree
      entityCount := BitVec.ofNat 32 (leaves s.tree).length } →
    runCommand (tdecBody P) u =
        { u with dtree := strip s.tree, icur := BitVec.ofNat 64 u.inStream.length } ∧
      (P = Config.params → exec .tdec u =
        .next { u with dtree := strip s.tree, icur := BitVec.ofNat 64 u.inStream.length })

/-- R94: TDEC over a section TENC wrote faults when the section has lost its last byte and IN then ends (EXHAUSTED), and when
ELIST has one value more (END_MISMATCH) or one less (LIST_EXHAUSTED) than the leaves. R89's and R91's end check: END_MISMATCH
also where ENTITY_COUNT is not the number of leaves, where the section goes on with 0 bits after the tree, and where it ends
inside a tree (a root with one child that is a Branch among them), but for the one-entity root `01` with ENTITY_COUNT = 1.
R89's SLOT_FULL: over a section that goes on with a second full tree (a leaf marker, or a Branch that completes) after a full
root, the attach to the root faults with ICUR past the byte of that bit. -/
def Obligations.TdecDetectsTruncationAndMiscount : Prop :=
  (∀ (P : Params) (s u : State), s.err = false → s.outStream = [] → BuiltTree s.tree → s.tree ≠ .absent →
    (leaves s.tree).length < 2 ^ 32 → outTooLong P (nodeCount s.tree) = false →
    nodesOver P (nodeCount s.tree) = false →
    u = { runCommand (tencBody P) s with
      inStream := (runCommand (tencBody P) s).outStream, icur := 0#64, elist := leaves s.tree
      entityCount := BitVec.ofNat 32 (leaves s.tree).length } →
    runCommand (tdecBody P) { u with inStream := u.inStream.dropLast } = faulted 1#2 0x01#8 { u with
      inStream := u.inStream.dropLast, dtree := .absent, icur := BitVec.ofNat 64 (u.inStream.length - 1) } ∧
    (∀ v ec, runCommand (tdecBody P) { u with elist := leaves s.tree ++ [v], entityCount := ec } =
      faulted 1#2 0x06#8 { u with
        elist := leaves s.tree ++ [v], entityCount := ec
        dtree := .absent, icur := BitVec.ofNat 64 u.inStream.length }) ∧
    (∀ ec, runCommand (tdecBody P) { u with elist := (leaves s.tree).dropLast, entityCount := ec } =
      faulted 1#2 0x03#8 { u with
        elist := (leaves s.tree).dropLast, entityCount := ec
        dtree := .absent, icur := BitVec.ofNat 64 u.inStream.length }) ∧
    (∀ ec : Word32, ec.toNat ≠ (leaves s.tree).length → runCommand (tdecBody P) { u with entityCount := ec } =
      faulted 1#2 0x06#8 { u with
        entityCount := ec, dtree := .absent, icur := BitVec.ofNat 64 u.inStream.length })) ∧
  (∀ (P : Params) (s : State) (T : ETree) (k : Nat) (vs : List Entity) (tail : List Byte), s.err = false →
    BuiltTree T → T ≠ .absent → s.elist = leaves T ++ vs → nodesOver P (nodeCount T + (k + 1)) = false →
    s.inStream.drop s.icur.toNat = packed (shape T ++ List.replicate (k + 1) false) ++ tail →
    s.treeByteCount.toNat = ((shape T).length + (k + 1) + 7) / 8 →
    s.treeLastBits = BitVec.ofNat 8 (((shape T).length + (k + 1)) % 8) →
    runCommand (tdecBody P) s = faulted 1#2 0x06#8 { s with
      dtree := .absent, icur := BitVec.ofNat 64 (s.icur.toNat + ((shape T).length + (k + 1) + 7) / 8) }) ∧
  (∀ (P : Params) (s : State) (T : ETree) (part : List Bool) (tail : List Byte), s.err = false →
    MergedTree T → part <+: shape T → part ≠ [] → part ≠ shape T →
    (part = [false, true] → s.entityCount ≠ 1#32) → part.count true ≤ s.elist.length →
    nodesOver P part.length = false → s.inStream.drop s.icur.toNat = packed part ++ tail →
    s.treeByteCount.toNat = (part.length + 7) / 8 → s.treeLastBits = BitVec.ofNat 8 (part.length % 8) →
    runCommand (tdecBody P) s = faulted 1#2 0x06#8 { s with
      dtree := .absent, icur := BitVec.ofNat 64 (s.icur.toNat + (part.length + 7) / 8) }) ∧
  (∀ (P : Params) (s : State) (T T' : ETree) (more : List Bool) (vs : List Entity) (tail : List Byte), s.err = false →
    MergedTree T → FullTree T' → s.elist = leaves T ++ leaves T' ++ vs →
    nodesOver P (nodeCount T + nodeCount T') = false →
    s.inStream.drop s.icur.toNat = packed (shape T ++ shape T' ++ more) ++ tail →
    s.treeByteCount.toNat = ((shape T ++ shape T' ++ more).length + 7) / 8 →
    s.treeLastBits = BitVec.ofNat 8 ((shape T ++ shape T' ++ more).length % 8) →
    runCommand (tdecBody P) s = faulted 1#2 0x04#8 { s with
      dtree := .absent, icur := BitVec.ofNat 64 (s.icur.toNat + ((shape T ++ shape T').length + 7) / 8) })

/-- R89's capacity check: over the same section, a tree of more than MAX_DNODES nodes raises NODE_OVERFLOW, and DTREE is None. -/
def Obligations.TdecStopsAtTheNodeLimit : Prop :=
  ∀ (P : Params) (s u : State) (m : Nat), s.err = false → s.outStream = [] → BuiltTree s.tree → s.tree ≠ .absent →
    (leaves s.tree).length < 2 ^ 32 → outTooLong P (nodeCount s.tree) = false →
    P.maxDnodes = some m → m < nodeCount s.tree →
    u = { runCommand (tencBody P) s with
      inStream := (runCommand (tencBody P) s).outStream, icur := 0#64, elist := leaves s.tree } →
    (runCommand (tdecBody P) u).err = true ∧ (runCommand (tdecBody P) u).kind = 3#2 ∧
      (runCommand (tdecBody P) u).reason = 0x21#8 ∧ (runCommand (tdecBody P) u).dtree = .absent

/-- R86: the shape code has one bit a node, 0 at a Branch and 1 at a Leaf, so a merged tree of n leaves has 2n - 1 bits and
n of them are 1; the one-entity tree's is `01`. -/
def Obligations.ShapeCodeCountsNodes : Prop :=
  ∀ T : ETree, (shape T).length = nodeCount T ∧ (shape T).count true = (leaves T).length ∧
    (MergedTree T → (shape T).length = 2 * (leaves T).length - 1) ∧
    (SingleTree T → shape T = [false, true])

/-! Entity codec (43_entity_codec.md). -/

/-- R95: EENC appends the leaves in pre-order and counts them; past 2^32 - 1 leaves it raises COUNT_OVERFLOW with the leaves
before appended; at the first leaf that would pass MAX_OUT_LEN it raises OUT_OVERFLOW likewise (R43). OUT after a fault is
R111's, and log 22 (a chip may differ). -/
def Obligations.EencWritesTheLeaves : Prop :=
  ∀ s : State, s.err = false →
    ((leaves s.tree).length ≤ 2 ^ 32 - 1 → s.outStream.length + (leaves s.tree).flatten.length ≤ 2 ^ 64 - 1 →
      exec .eenc s =
        .next { s with
          outStream := s.outStream ++ (leaves s.tree).flatten
          entityCount := BitVec.ofNat 32 (leaves s.tree).length }) ∧
    (2 ^ 32 - 1 < (leaves s.tree).length →
      s.outStream.length + ((leaves s.tree).take (2 ^ 32 - 1)).flatten.length ≤ 2 ^ 64 - 1 →
      exec .eenc s =
        .next (faulted 3#2 0x22#8 { s with
          outStream := s.outStream ++ ((leaves s.tree).take (2 ^ 32 - 1)).flatten
          entityCount := BitVec.ofNat 32 (2 ^ 32 - 1) })) ∧
    (∀ (P : Params) (es : List Entity) (v : Entity) (es' : List Entity), leaves s.tree = es ++ v :: es' →
      es.length < 2 ^ 32 - 1 → outTooLong P (s.outStream.length + es.flatten.length) = false →
      outTooLong P (s.outStream.length + es.flatten.length + v.length) = true →
      runCommand (eencBody P) s = faulted 3#2 0x23#8 { s with
        outStream := s.outStream ++ es.flatten, entityCount := BitVec.ofNat 32 es.length })

/-- R96: EDEC (0x31) reads ENTITY_COUNT records of ENTITY_SIZE bytes into ELIST; BAD_ENTITY_SIZE changes nothing but STATUS; too few
bytes are EXHAUSTED, the whole records being in ELIST and ICUR at len(IN) (R96, R111; log 22). -/
def Obligations.EdecReadsTheRecords : Prop :=
  ∀ s : State, s.err = false →
    encode .edec = 0x00000031#32 ∧
    (s.entitySize.toNat ∉ [1, 2, 4, 8] → exec .edec s = .next (faulted 1#2 0x08#8 s)) ∧
    (s.entitySize.toNat ∈ [1, 2, 4, 8] →
      (s.entityCount.toNat = 0 ∨
        s.icur.toNat + s.entityCount.toNat * s.entitySize.toNat ≤ s.inStream.length) →
      exec .edec s =
        .next { s with
          elist := (List.range s.entityCount.toNat).map (fun i =>
            (s.inStream.drop (s.icur.toNat + i * s.entitySize.toNat)).take s.entitySize.toNat)
          icur := BitVec.ofNat 64 (s.icur.toNat + s.entityCount.toNat * s.entitySize.toNat) }) ∧
    (s.entitySize.toNat ∈ [1, 2, 4, 8] → s.entityCount.toNat ≠ 0 →
      s.inStream.length < s.icur.toNat + s.entityCount.toNat * s.entitySize.toNat →
      exec .edec s =
        .next (faulted 1#2 0x01#8 { s with
          elist := records s.entitySize.toNat (s.inStream.drop s.icur.toNat)
          icur := BitVec.ofNat 64 s.inStream.length }))

/-- R97 and R98: EDEC over the section EENC wrote gives the leaves in pre-order and consumes exactly that section; where the
section has lost its last byte and IN then ends, it raises EXHAUSTED. -/
def Obligations.EdecReadsBackEenc : Prop :=
  ∀ (s t u : State) (W : Nat), s.err = false → s.outStream = [] → s.entitySize = BitVec.ofNat 8 W → W ∈ [1, 2, 4, 8] →
    (∀ v ∈ leaves s.tree, v.length = W) → (leaves s.tree).length ≤ 2 ^ 32 - 1 →
    exec .eenc s = .next t → u = { t with inStream := t.outStream, icur := 0#64 } →
    t.outStream.length = (leaves s.tree).length * W ∧ t.entityCount = BitVec.ofNat 32 (leaves s.tree).length ∧
    exec .edec u = .next { u with elist := leaves s.tree, icur := BitVec.ofNat 64 u.inStream.length } ∧
    (leaves s.tree ≠ [] → ∃ w, exec .edec { u with inStream := u.inStream.dropLast } = .next w ∧
      w.err = true ∧ w.kind = 1#2 ∧ w.reason = 0x01#8)

/-! Payload codec (44_payload_codec.md). -/

/-- R99: PENC of whole entities that all have codes appends their packed codes and sets the counts; ICUR ends at len(IN). -/
def Obligations.PencWritesTheCodes : Prop :=
  ∀ s : State, s.err = false → s.entitySize.toNat ∈ [1, 2, 4, 8] → s.inStream.length % s.entitySize.toNat = 0 →
    (∀ v ∈ records s.entitySize.toNat s.inStream, codeOf (codeTable s.tree) v ≠ none) →
    s.outStream.length + ((codeBits s.tree (records s.entitySize.toNat s.inStream)).length + 7) / 8 ≤ 2 ^ 64 - 1 →
    exec .penc s =
      .next { s with
        outStream := s.outStream ++ packed (codeBits s.tree (records s.entitySize.toNat s.inStream))
        dataByteCount :=
          BitVec.ofNat 64 (((codeBits s.tree (records s.entitySize.toNat s.inStream)).length + 7) / 8)
        dataLastBits := BitVec.ofNat 8 ((codeBits s.tree (records s.entitySize.toNat s.inStream)).length % 8)
        icur := BitVec.ofNat 64 s.inStream.length }

/-- R99's faults, each of which leaves both counts 0: BAD_WIDTH changes nothing else (that it clears the counts is the
model's choice between R99's pseudocode and R99's corner case, R111 and D34: log 23); at the first entity without a code
CODE_MISSING, and at a trailing partial entity EXHAUSTED, leave in OUT the whole bytes packed before; OUT_OVERFLOW (R43), at
a byte that the entity `v` completes or at the final partial byte, leaves the bytes that fit; COUNT_OVERFLOW, at a byte count
past 64 bits that OUT still admits, leaves the whole section. OUT after a fault is R111's,
and log 22 (a chip may differ). -/
def Obligations.PencFaults : Prop :=
  ∀ s : State, s.err = false →
    (s.entitySize.toNat ∉ [1, 2, 4, 8] →
      exec .penc s = .next (faulted 2#2 0x13#8 { s with dataByteCount := 0#64, dataLastBits := 0#8 })) ∧
    (s.entitySize.toNat ∈ [1, 2, 4, 8] → ∀ es v es', records s.entitySize.toNat s.inStream = es ++ v :: es' →
      (∀ u ∈ es, codeOf (codeTable s.tree) u ≠ none) → codeOf (codeTable s.tree) v = none →
      s.outStream.length + (codeBits s.tree es).length / 8 ≤ 2 ^ 64 - 1 →
      exec .penc s =
        .next (faulted 2#2 0x14#8 { s with
          dataByteCount := 0#64, dataLastBits := 0#8
          outStream := s.outStream ++ (packed (codeBits s.tree es)).take ((codeBits s.tree es).length / 8)
          icur := BitVec.ofNat 64 ((es.length + 1) * s.entitySize.toNat) })) ∧
    (s.entitySize.toNat ∈ [1, 2, 4, 8] → s.inStream.length % s.entitySize.toNat ≠ 0 →
      (∀ u ∈ records s.entitySize.toNat s.inStream, codeOf (codeTable s.tree) u ≠ none) →
      s.outStream.length + (codeBits s.tree (records s.entitySize.toNat s.inStream)).length / 8 ≤ 2 ^ 64 - 1 →
      exec .penc s =
        .next (faulted 1#2 0x01#8 { s with
          dataByteCount := 0#64, dataLastBits := 0#8
          outStream := s.outStream ++ (packed (codeBits s.tree (records s.entitySize.toNat s.inStream))).take
            ((codeBits s.tree (records s.entitySize.toNat s.inStream)).length / 8)
          icur := BitVec.ofNat 64 s.inStream.length })) ∧
    (s.entitySize.toNat ∈ [1, 2, 4, 8] → ∀ (P : Params) (m : Nat) es v es', P.maxOutLen = some m →
      records s.entitySize.toNat s.inStream = es ++ v :: es' →
      (∀ u ∈ es ++ [v], codeOf (codeTable s.tree) u ≠ none) →
      s.outStream.length + (codeBits s.tree es).length / 8 ≤ m →
      m < s.outStream.length + (codeBits s.tree (es ++ [v])).length / 8 →
      runCommand (pencBody P) s = faulted 3#2 0x23#8 { s with
        dataByteCount := 0#64, dataLastBits := 0#8
        outStream := s.outStream ++ (packed (codeBits s.tree (es ++ [v]))).take (m - s.outStream.length)
        icur := BitVec.ofNat 64 ((es.length + 1) * s.entitySize.toNat) }) ∧
    (s.entitySize.toNat ∈ [1, 2, 4, 8] → s.inStream.length % s.entitySize.toNat = 0 →
      (∀ u ∈ records s.entitySize.toNat s.inStream, codeOf (codeTable s.tree) u ≠ none) →
      ∀ (P : Params) (m : Nat), P.maxOutLen = some m →
      s.outStream.length + (codeBits s.tree (records s.entitySize.toNat s.inStream)).length / 8 ≤ m →
      m < s.outStream.length + ((codeBits s.tree (records s.entitySize.toNat s.inStream)).length + 7) / 8 →
      runCommand (pencBody P) s = faulted 3#2 0x23#8 { s with
        dataByteCount := 0#64, dataLastBits := 0#8
        outStream := s.outStream ++ (packed (codeBits s.tree (records s.entitySize.toNat s.inStream))).take
          (m - s.outStream.length)
        icur := BitVec.ofNat 64 s.inStream.length }) ∧
    (s.entitySize.toNat ∈ [1, 2, 4, 8] → s.inStream.length % s.entitySize.toNat = 0 →
      (∀ u ∈ records s.entitySize.toNat s.inStream, codeOf (codeTable s.tree) u ≠ none) →
      ∀ P : Params,
      outTooLong P (s.outStream.length +
        ((codeBits s.tree (records s.entitySize.toNat s.inStream)).length + 7) / 8) = false →
      2 ^ 64 - 1 < ((codeBits s.tree (records s.entitySize.toNat s.inStream)).length + 7) / 8 →
      runCommand (pencBody P) s = faulted 3#2 0x22#8 { s with
        dataByteCount := 0#64, dataLastBits := 0#8
        outStream := s.outStream ++ packed (codeBits s.tree (records s.entitySize.toNat s.inStream))
        icur := BitVec.ofNat 64 s.inStream.length })

/-- R100's corner cases: a zero-byte section changes nothing, whatever DTREE is; with no tree the first bit raises
WALK_NOT_BRANCH, one byte having been read; with no byte left EXHAUSTED. Where IN ends inside the section, every byte that is
left is read whole, and then EXHAUSTED is raised with ICUR at len(IN) and the entities of the whole codes appended (R42, R47,
R108; OUT after a fault is R111's, and log 22). -/
def Obligations.PdecCornerCases : Prop :=
  ∀ s : State, s.err = false →
    (s.dataByteCount = 0#64 → exec .pdec s = .next s) ∧
    (s.dataByteCount ≠ 0#64 → s.dtree = .absent → s.icur.toNat < s.inStream.length →
      exec .pdec s = .next (faulted 1#2 0x05#8 { s with icur := BitVec.ofNat 64 (s.icur.toNat + 1) })) ∧
    (s.dataByteCount ≠ 0#64 → s.inStream.length ≤ s.icur.toNat →
      exec .pdec s = .next (faulted 1#2 0x01#8 { s with icur := BitVec.ofNat 64 s.inStream.length })) ∧
    (∀ (T : ETree) (es : List Entity) (part : List Bool), BuiltTree T → s.dtree = strip T →
      (∀ v ∈ es, codeOf (codeTable T) v ≠ none) →
      ((∃ v c, codeOf (codeTable T) v = some c ∧ part <+: c ∧ part ≠ c) ∨ (SingleTree T ∧ part = [true])) →
      s.inStream.drop s.icur.toNat = packed (codeBits T es ++ part) → (codeBits T es ++ part).length % 8 = 0 →
      (codeBits T es ++ part).length / 8 < s.dataByteCount.toNat →
      s.outStream.length + es.flatten.length ≤ 2 ^ 64 - 1 →
      exec .pdec s = .next (faulted 1#2 0x01#8 { s with
        outStream := s.outStream ++ es.flatten, icur := BitVec.ofNat 64 s.inStream.length }))

/-- R99 and R100 together: over the packed codes of a list of entities, PDEC walks the stripped tree and appends exactly those
entities; the bytes after the section are not read (R105). At the first entity `v` that would pass MAX_OUT_LEN it raises
OUT_OVERFLOW (R43) with the entities before appended and ICUR past the byte of the code's last bit (OUT after a fault is
R111's, and log 22: a chip may differ). -/
def Obligations.PdecDecodesTheCodes : Prop :=
  ∀ (s : State) (T : ETree) (es : List Entity) (tail : List Byte), s.err = false → BuiltTree T → s.dtree = strip T →
    (∀ v ∈ es, codeOf (codeTable T) v ≠ none) →
    s.inStream.drop s.icur.toNat = packed (codeBits T es) ++ tail →
    s.dataByteCount.toNat = ((codeBits T es).length + 7) / 8 →
    s.dataLastBits = BitVec.ofNat 8 ((codeBits T es).length % 8) →
    (s.outStream.length + es.flatten.length ≤ 2 ^ 64 - 1 →
      exec .pdec s =
        .next { s with
          outStream := s.outStream ++ es.flatten
          icur := BitVec.ofNat 64 (s.icur.toNat + ((codeBits T es).length + 7) / 8) }) ∧
    (∀ (P : Params) (es₁ : List Entity) (v : Entity) (es₂ : List Entity), es = es₁ ++ v :: es₂ →
      outTooLong P (s.outStream.length + es₁.flatten.length) = false →
      outTooLong P (s.outStream.length + es₁.flatten.length + v.length) = true →
      runCommand (pdecBody P) s = faulted 3#2 0x23#8 { s with
        outStream := s.outStream ++ es₁.flatten
        icur := BitVec.ofNat 64 (s.icur.toNat + ((codeBits T (es₁ ++ [v])).length + 7) / 8) })

/-- R101: where the section's bits end in the middle of a code, or with a move into the absent child of the one-entity tree,
PDEC succeeds and the partial path is dropped. Where a bit `b` comes after that move, it raises WALK_NOT_BRANCH (R100) with
ICUR past the byte of `b` and the entities before appended (OUT after a fault: R111, log 22). -/
def Obligations.PdecDropsAnUnfinishedTail : Prop :=
  (∀ (s : State) (T : ETree) (es : List Entity) (part : List Bool), s.err = false → BuiltTree T → s.dtree = strip T →
    (∀ v ∈ es, codeOf (codeTable T) v ≠ none) →
    ((∃ v c, codeOf (codeTable T) v = some c ∧ part <+: c ∧ part ≠ c) ∨ (SingleTree T ∧ part = [true])) →
    s.inStream.drop s.icur.toNat = packed (codeBits T es ++ part) →
    s.dataByteCount.toNat = ((codeBits T es ++ part).length + 7) / 8 →
    s.dataLastBits = BitVec.ofNat 8 ((codeBits T es ++ part).length % 8) →
    s.outStream.length + es.flatten.length ≤ 2 ^ 64 - 1 →
    exec .pdec s =
      .next { s with
        outStream := s.outStream ++ es.flatten
        icur := BitVec.ofNat 64 (s.icur.toNat + ((codeBits T es ++ part).length + 7) / 8) }) ∧
  (∀ (s : State) (T : ETree) (es : List Entity) (b : Bool) (more : List Bool) (tail : List Byte), s.err = false →
    SingleTree T → s.dtree = strip T → (∀ v ∈ es, codeOf (codeTable T) v ≠ none) →
    s.inStream.drop s.icur.toNat = packed (codeBits T es ++ [true, b] ++ more) ++ tail →
    s.dataByteCount.toNat = ((codeBits T es ++ [true, b] ++ more).length + 7) / 8 →
    s.dataLastBits = BitVec.ofNat 8 ((codeBits T es ++ [true, b] ++ more).length % 8) →
    s.outStream.length + es.flatten.length ≤ 2 ^ 64 - 1 →
    exec .pdec s =
      .next (faulted 1#2 0x05#8 { s with
        outStream := s.outStream ++ es.flatten
        icur := BitVec.ofNat 64 (s.icur.toNat + ((codeBits T es ++ [true, b]).length + 7) / 8) }))

/-- R48: the positions of the final byte after `eff(lb)` are never read: changing them changes nothing TDEC or PDEC does. -/
def Obligations.PadBitsAreNeverRead : Prop :=
  ∀ (P : Params) (s : State) (front back : List Byte) (b b' : Byte), s.icur.toNat ≤ front.length →
    (s.treeByteCount.toNat = front.length + 1 - s.icur.toNat →
      (∀ p < effBits s.treeLastBits, b.getLsbD (7 - p) = b'.getLsbD (7 - p)) →
      runCommand (tdecBody P) { s with inStream := front ++ b' :: back } =
        { runCommand (tdecBody P) { s with inStream := front ++ b :: back } with inStream := front ++ b' :: back }) ∧
    (s.dataByteCount.toNat = front.length + 1 - s.icur.toNat →
      (∀ p < effBits s.dataLastBits, b.getLsbD (7 - p) = b'.getLsbD (7 - p)) →
      runCommand (pdecBody P) { s with inStream := front ++ b' :: back } =
        { runCommand (pdecBody P) { s with inStream := front ++ b :: back } with inStream := front ++ b' :: back })

/-! Whole encodes and decodes. -/

/-- R67's ENCODE w and DECODE, step by step: from any state, the six and three actions of `pseudoEncode` and `pseudoDecode`
are `encodeRun` after the write of ENTITY_SIZE, and `decodeRun`, on the modelled chip; the statements below speak of these two. -/
def Obligations.PseudoCommandsRunAsWritten : Prop :=
  ∀ (s : State) (w : Word64) (rest : List HostAction),
    runSteps 6 { s with host := pseudoEncode w ++ rest } =
      .next (encodeRun Config.params { s with host := rest, entitySize := BitVec.ofNat 8 w.toNat }) ∧
    runSteps 3 { s with host := pseudoDecode ++ rest } = .next (decodeRun Config.params { s with host := rest })

/-- R102, for inputs shorter than 2^32 bytes (longer ones can overflow ENTITY_COUNT, which is a fault by R95) and a chip
without the three limits: DECODE of what ENCODE wrote gives the input back, no command faulting, under every draw and
either byte order. -/
def Obligations.DecodeInvertsEncodeOfAnyInput : Prop :=
  ∀ (P : Params) (S : List Byte) (W : Nat) (e d : State), P.maxDistinct = none → P.maxDnodes = none →
    P.maxOutLen = none → W ∈ [1, 2, 4, 8] → S.length % W = 0 → S.length < 2 ^ 32 →
    e = encodeRun P { State.reset with inStream := S, entitySize := BitVec.ofNat 8 W } →
    d = decodeRun P { e with outStream := [], inStream := e.outStream, icur := 0#64 } →
    NoFault e ∧ NoFault d ∧ d.outStream = S

/-- R103: ENCODE of the empty input gives zero counts and no byte, and DECODE of it an empty OUT, without a fault. -/
def Obligations.EmptyInputRoundTrip : Prop :=
  ∀ (P : Params) (W : Nat) (e d : State), W ∈ [1, 2, 4, 8] →
    e = encodeRun P { State.reset with entitySize := BitVec.ofNat 8 W } → d = decodeRun P e →
    NoFault e ∧ e.entityCount = 0#32 ∧ e.treeByteCount = 0#32 ∧ e.dataByteCount = 0#64 ∧ e.outStream = [] ∧
      NoFault d ∧ d.outStream = []

/-- R104: a decode over fewer bytes than the counts call for ends in a MALFORMED fault (on a chip whose limits do not
interfere). -/
def Obligations.DecodeNeedsEveryByte : Prop :=
  ∀ (P : Params) (s : State), P.maxDnodes = none → P.maxOutLen = none → s.err = false →
    s.icur.toNat ≤ s.inStream.length → s.inStream.length < 2 ^ 64 →
    s.inStream.length - s.icur.toNat <
      s.entityCount.toNat * s.entitySize.toNat + s.treeByteCount.toNat + s.dataByteCount.toNat →
    (decodeRun P s).err = true ∧ (decodeRun P s).kind = 1#2

/-! Invariants and frames. -/

/-- Every step keeps `0 <= ICUR <= len(IN) <= MAX_IN_LEN` (R33, R40), `len(OUT) <= MAX_OUT_LEN` (R43), and FREQ canonical and
within MAX_DISTINCT (R7). -/
def Obligations.StepKeepsTheStreamsWellFormed : Prop :=
  ∀ s t : State, Memory.wf Config.params s = true → step s = .next t → Memory.wf Config.params t = true

/-- Every step keeps STATUS a value R31 and R107 allow: KIND, REASON and REJ are 0 while ERR = 0, and one of R107's pairs
stands there while ERR = 1. -/
def Obligations.StepKeepsStatusConsistent : Prop :=
  ∀ s t : State, StatusOk s → step s = .next t → StatusOk t

/-- Every step keeps R35's invariant: TREE is None, a one-entity tree or a full lawful tree with distinct leaves, and FREQ's
entities are distinct; and with it that TREE is a tree BUILD can have written, one the greedy merge returns (R79). -/
def Obligations.StepKeepsTheTreeInvariant : Prop :=
  ∀ s t : State, EncodeOk s → step s = .next t → EncodeOk t ∧ (GreedyTree s.tree → GreedyTree t.tree)

/-- Every step keeps R36's invariant: DTREE is None or has a DBranch at its root with every other DBranch full. -/
def Obligations.StepKeepsTheDtreeInvariant : Prop :=
  ∀ s t : State, DTreeOk s.dtree → step s = .next t → DTreeOk t.dtree

/-- R9: "a count never overflows": in every state that keeps the bounds of R7, every step keeps the counts of FREQ together
below 2^64. -/
def Obligations.StepKeepsTheCountsFitting : Prop :=
  ∀ s t : State, Memory.wf Config.params s = true → CountsFit s → step s = .next t → CountsFit t

/-- The invariants hold after reset. -/
def Obligations.ResetMeetsTheInvariants : Prop :=
  Memory.wf Config.params State.reset = true ∧ StatusOk State.reset ∧ EncodeOk State.reset ∧
    GreedyTree State.reset.tree ∧ DTreeOk State.reset.dtree ∧ CountsFit State.reset

/-- R29, R33 and R40: what each command leaves unchanged. No command writes IN, VERSION, ENTITY_SIZE or OPERAND, nor the
host's side; every other register and structure is written only by the commands the tables list; every byte of IN reads
as before. -/
def Obligations.CommandsWriteOnlyTheirRegisters : Prop :=
  ∀ (i : Instr) (s t : State), exec i s = .next t →
    (∀ a, memRead t a 1 = memRead s a 1) ∧ t.inStream = s.inStream ∧ t.version = s.version ∧
    t.entitySize = s.entitySize ∧ t.operand = s.operand ∧ t.host = s.host ∧ t.replies = s.replies ∧
    (t.result = s.result ∨ (∃ b p, i = .getbit b p) ∨ (∃ b p, i = .setbit b p) ∨ ∃ n, i = .rdfix n) ∧
    (t.icur = s.icur ∨ (∃ n, i = .rdfix n) ∨ i = .analyze ∨ i = .edec ∨ i = .tdec ∨ i = .penc ∨ i = .pdec) ∧
    (t.outStream = s.outStream ∨ (∃ n, i = .wrfix n) ∨ i = .eenc ∨ i = .tenc ∨ i = .penc ∨ i = .pdec) ∧
    (t.freq = s.freq ∨ i = .analyze ∨ i = .build) ∧ (t.tree = s.tree ∨ i = .build) ∧
    (t.draws = s.draws ∨ i = .build) ∧ (t.elist = s.elist ∨ i = .edec) ∧ (t.dtree = s.dtree ∨ i = .tdec) ∧
    (t.entityCount = s.entityCount ∨ i = .eenc) ∧
    (t.treeByteCount = s.treeByteCount ∧ t.treeLastBits = s.treeLastBits ∨ i = .tenc) ∧
    (t.dataByteCount = s.dataByteCount ∧ t.dataLastBits = s.dataLastBits ∨ i = .penc)

/-- R40: OUT is append-only: every byte of OUT stays where it is, whatever a command does. -/
def Obligations.CommandsOnlyAppendToOut : Prop :=
  ∀ (i : Instr) (s t : State), exec i s = .next t →
    s.outStream.length ≤ t.outStream.length ∧ ∀ a < s.outStream.length, t.outStream[a]? = s.outStream[a]?

/-- R41: a command never moves ICUR backwards, except ANALYZE and PENC. -/
def Obligations.CursorMovesForward : Prop :=
  ∀ (i : Instr) (s t : State), Memory.wf Config.params s = true → exec i s = .next t → i ≠ .analyze → i ≠ .penc →
    s.icur.toNat ≤ t.icur.toNat

/-- R45: the entity, tree and data sections do not depend on NATIVE_ORDER. -/
def Obligations.SectionsIgnoreTheByteOrder : Prop :=
  ∀ (P : Params) (o : ByteOrder) (s : State),
    encodeRun { P with nativeOrder := o } s = encodeRun P s ∧ decodeRun { P with nativeOrder := o } s = decodeRun P s

/-- R129: every command ends, whatever the state: `exec` always answers a next state. -/
def Obligations.EveryCommandEnds : Prop :=
  ∀ (i : Instr) (s : State), ∃ t, exec i s = .next t
end

