-- ==== Sys2Proof/Laws/Bytes.lean ====
section
/-! SUPPORT. Integers as byte strings (00_scope.md R16) and single bits of a byte (40_bit_primitives.md R68). -/

namespace Sys2Proof.Machine

theorem toBytesLE_length (n v : Nat) : (toBytesLE n v).length = n := by
  induction n generalizing v with
  | zero => rfl
  | succ n ih => simp [toBytesLE, ih]

/-- `toBytes_n` gives n bytes. -/
theorem toBytes_length (o : ByteOrder) (n v : Nat) : (toBytes o n v).length = n := by
  cases o <;> simp [toBytes, toBytesLE_length]

theorem fromBytesLE_lt (bs : List Byte) : fromBytesLE bs < 256 ^ bs.length := by
  induction bs with
  | nil => simp [fromBytesLE]
  | cons b bs ih =>
    have hb : b.toNat < 256 := b.isLt
    rw [fromBytesLE, List.length_cons, pow_succ]
    omega

/-- `fromBytes` of n bytes is below 256^n (R16). -/
theorem fromBytes_lt (o : ByteOrder) (bs : List Byte) : fromBytes o bs < 256 ^ bs.length := by
  cases o with
  | le => exact fromBytesLE_lt bs
  | be => simpa [fromBytes] using fromBytesLE_lt bs.reverse

theorem fromBytesLE_toBytesLE (n v : Nat) (h : v < 256 ^ n) : fromBytesLE (toBytesLE n v) = v := by
  induction n generalizing v with
  | zero => simp at h; simp [toBytesLE, fromBytesLE, h]
  | succ n ih =>
    have hq : v / 256 < 256 ^ n := by
      rw [pow_succ] at h
      exact Nat.div_lt_of_lt_mul (by rwa [mul_comm] at h)
    simp only [toBytesLE, fromBytesLE, ih _ hq, BitVec.toNat_ofNat]
    omega

/-- `toBytes_n` "is its inverse on `0 <= v < 256^n`" (R16), in either byte order. -/
theorem fromBytes_toBytes (o : ByteOrder) (n v : Nat) (h : v < 256 ^ n) : fromBytes o (toBytes o n v) = v := by
  cases o with
  | le => exact fromBytesLE_toBytesLE n v h
  | be => simpa [fromBytes, toBytes] using fromBytesLE_toBytesLE n v h

/-- `get_bit(b, p)` is the bit of weight 2^(7-p) (00_scope.md R12, R68). -/
theorem getBit_eq (b : Byte) (p : Nat) : getBit b p = if b.getLsbD (7 - p) then 1#8 else 0#8 := by
  apply BitVec.eq_of_getLsbD_eq
  intro k hk
  unfold getBit
  by_cases hk0 : k = 0
  · subst hk0; cases hb : b.getLsbD (7 - p) <;> simp [hb]
  · cases hb : b.getLsbD (7 - p) <;> simp [BitVec.getLsbD_one, hk0]

theorem getBit_beq_one (b : Byte) (p : Nat) : (getBit b p == 1#8) = b.getLsbD (7 - p) := by
  rw [getBit_eq]; cases b.getLsbD (7 - p) <;> rfl

/-- `set_bit(b, p)` sets the bit of weight 2^(7-p) and keeps every other bit (R68). -/
theorem getLsbD_setBit (b : Byte) (p k : Nat) (hp : p ≤ 7) :
    (setBit b p).getLsbD k = (b.getLsbD k || decide (k = 7 - p)) := by
  unfold setBit
  by_cases hk : k < 8
  · simp only [BitVec.getLsbD_or, BitVec.getLsbD_shiftLeft, BitVec.getLsbD_one]
    rcases Nat.lt_trichotomy k (7 - p) with h | h | h
    · simp [h, Nat.ne_of_lt h]
    · subst h; simp [hk]
    · have h1 : ¬ k < 7 - p := by omega
      have h2 : k - (7 - p) ≠ 0 := by omega
      have h3 : k ≠ 7 - p := by omega
      simp [h1, h2, h3]
  · have h3 : k ≠ 7 - p := by omega
    simp [BitVec.getLsbD_of_ge _ _ (Nat.not_lt.mp hk), h3]

/-- The bits of a byte a section yields (R47): bit p is the one of weight 2^(7-p). -/
theorem byteBits_eq (b : Byte) (nb : Nat) : byteBits b nb = (List.range nb).map (fun p => b.getLsbD (7 - p)) := by
  unfold byteBits
  exact List.map_congr_left (fun p _ => getBit_beq_one b p)

/-- `eff(lb)` is 1 to 8 (R20). -/
theorem effBits_range (lb : BitVec 8) : 1 ≤ effBits lb ∧ effBits lb ≤ 8 := by
  unfold effBits
  split <;> omega

end Sys2Proof.Machine
end

