-- ==== Sys2Proof/Laws/State.lean ====
section
/-! SUPPORT. What each named update of State does to each field: one lemma a field, so that no proof unfolds a record. -/

namespace Sys2Proof.Machine

@[simp] theorem raiseFault_err (r : Reason) (s : State) : (raiseFault r s).err = true := rfl
@[simp] theorem raiseFault_kind (r : Reason) (s : State) : (raiseFault r s).kind = r.kind.code := rfl
@[simp] theorem raiseFault_reason (r : Reason) (s : State) : (raiseFault r s).reason = r.code := rfl
@[simp] theorem raiseFault_rej (r : Reason) (s : State) : (raiseFault r s).rej = s.rej := rfl
@[simp] theorem raiseFault_version (r : Reason) (s : State) : (raiseFault r s).version = s.version := rfl
@[simp] theorem raiseFault_treeLastBits (r : Reason) (s : State) : (raiseFault r s).treeLastBits = s.treeLastBits := rfl
@[simp] theorem raiseFault_dataLastBits (r : Reason) (s : State) : (raiseFault r s).dataLastBits = s.dataLastBits := rfl
@[simp] theorem raiseFault_entitySize (r : Reason) (s : State) : (raiseFault r s).entitySize = s.entitySize := rfl
@[simp] theorem raiseFault_entityCount (r : Reason) (s : State) : (raiseFault r s).entityCount = s.entityCount := rfl
@[simp] theorem raiseFault_treeByteCount (r : Reason) (s : State) : (raiseFault r s).treeByteCount = s.treeByteCount := rfl
@[simp] theorem raiseFault_dataByteCount (r : Reason) (s : State) : (raiseFault r s).dataByteCount = s.dataByteCount := rfl
@[simp] theorem raiseFault_operand (r : Reason) (s : State) : (raiseFault r s).operand = s.operand := rfl
@[simp] theorem raiseFault_result (r : Reason) (s : State) : (raiseFault r s).result = s.result := rfl
@[simp] theorem raiseFault_icur (r : Reason) (s : State) : (raiseFault r s).icur = s.icur := rfl
@[simp] theorem raiseFault_inStream (r : Reason) (s : State) : (raiseFault r s).inStream = s.inStream := rfl
@[simp] theorem raiseFault_outStream (r : Reason) (s : State) : (raiseFault r s).outStream = s.outStream := rfl
@[simp] theorem raiseFault_freq (r : Reason) (s : State) : (raiseFault r s).freq = s.freq := rfl
@[simp] theorem raiseFault_tree (r : Reason) (s : State) : (raiseFault r s).tree = s.tree := rfl
@[simp] theorem raiseFault_elist (r : Reason) (s : State) : (raiseFault r s).elist = s.elist := rfl
@[simp] theorem raiseFault_dtree (r : Reason) (s : State) : (raiseFault r s).dtree = s.dtree := rfl
@[simp] theorem raiseFault_host (r : Reason) (s : State) : (raiseFault r s).host = s.host := rfl
@[simp] theorem raiseFault_replies (r : Reason) (s : State) : (raiseFault r s).replies = s.replies := rfl
@[simp] theorem raiseFault_draws (r : Reason) (s : State) : (raiseFault r s).draws = s.draws := rfl

@[simp] theorem rejectCommand_err (s : State) : (rejectCommand s).err = s.err := rfl
@[simp] theorem rejectCommand_kind (s : State) : (rejectCommand s).kind = s.kind := rfl
@[simp] theorem rejectCommand_reason (s : State) : (rejectCommand s).reason = s.reason := rfl
@[simp] theorem rejectCommand_rej (s : State) : (rejectCommand s).rej = true := rfl
@[simp] theorem rejectCommand_version (s : State) : (rejectCommand s).version = s.version := rfl
@[simp] theorem rejectCommand_treeLastBits (s : State) : (rejectCommand s).treeLastBits = s.treeLastBits := rfl
@[simp] theorem rejectCommand_dataLastBits (s : State) : (rejectCommand s).dataLastBits = s.dataLastBits := rfl
@[simp] theorem rejectCommand_entitySize (s : State) : (rejectCommand s).entitySize = s.entitySize := rfl
@[simp] theorem rejectCommand_entityCount (s : State) : (rejectCommand s).entityCount = s.entityCount := rfl
@[simp] theorem rejectCommand_treeByteCount (s : State) : (rejectCommand s).treeByteCount = s.treeByteCount := rfl
@[simp] theorem rejectCommand_dataByteCount (s : State) : (rejectCommand s).dataByteCount = s.dataByteCount := rfl
@[simp] theorem rejectCommand_operand (s : State) : (rejectCommand s).operand = s.operand := rfl
@[simp] theorem rejectCommand_result (s : State) : (rejectCommand s).result = s.result := rfl
@[simp] theorem rejectCommand_icur (s : State) : (rejectCommand s).icur = s.icur := rfl
@[simp] theorem rejectCommand_inStream (s : State) : (rejectCommand s).inStream = s.inStream := rfl
@[simp] theorem rejectCommand_outStream (s : State) : (rejectCommand s).outStream = s.outStream := rfl
@[simp] theorem rejectCommand_freq (s : State) : (rejectCommand s).freq = s.freq := rfl
@[simp] theorem rejectCommand_tree (s : State) : (rejectCommand s).tree = s.tree := rfl
@[simp] theorem rejectCommand_elist (s : State) : (rejectCommand s).elist = s.elist := rfl
@[simp] theorem rejectCommand_dtree (s : State) : (rejectCommand s).dtree = s.dtree := rfl
@[simp] theorem rejectCommand_host (s : State) : (rejectCommand s).host = s.host := rfl
@[simp] theorem rejectCommand_replies (s : State) : (rejectCommand s).replies = s.replies := rfl
@[simp] theorem rejectCommand_draws (s : State) : (rejectCommand s).draws = s.draws := rfl

@[simp] theorem setCursor_err (n : Nat) (s : State) : (setCursor n s).err = s.err := rfl
@[simp] theorem setCursor_kind (n : Nat) (s : State) : (setCursor n s).kind = s.kind := rfl
@[simp] theorem setCursor_reason (n : Nat) (s : State) : (setCursor n s).reason = s.reason := rfl
@[simp] theorem setCursor_rej (n : Nat) (s : State) : (setCursor n s).rej = s.rej := rfl
@[simp] theorem setCursor_version (n : Nat) (s : State) : (setCursor n s).version = s.version := rfl
@[simp] theorem setCursor_treeLastBits (n : Nat) (s : State) : (setCursor n s).treeLastBits = s.treeLastBits := rfl
@[simp] theorem setCursor_dataLastBits (n : Nat) (s : State) : (setCursor n s).dataLastBits = s.dataLastBits := rfl
@[simp] theorem setCursor_entitySize (n : Nat) (s : State) : (setCursor n s).entitySize = s.entitySize := rfl
@[simp] theorem setCursor_entityCount (n : Nat) (s : State) : (setCursor n s).entityCount = s.entityCount := rfl
@[simp] theorem setCursor_treeByteCount (n : Nat) (s : State) : (setCursor n s).treeByteCount = s.treeByteCount := rfl
@[simp] theorem setCursor_dataByteCount (n : Nat) (s : State) : (setCursor n s).dataByteCount = s.dataByteCount := rfl
@[simp] theorem setCursor_operand (n : Nat) (s : State) : (setCursor n s).operand = s.operand := rfl
@[simp] theorem setCursor_result (n : Nat) (s : State) : (setCursor n s).result = s.result := rfl
@[simp] theorem setCursor_icur (n : Nat) (s : State) : (setCursor n s).icur = BitVec.ofNat 64 n := rfl
@[simp] theorem setCursor_inStream (n : Nat) (s : State) : (setCursor n s).inStream = s.inStream := rfl
@[simp] theorem setCursor_outStream (n : Nat) (s : State) : (setCursor n s).outStream = s.outStream := rfl
@[simp] theorem setCursor_freq (n : Nat) (s : State) : (setCursor n s).freq = s.freq := rfl
@[simp] theorem setCursor_tree (n : Nat) (s : State) : (setCursor n s).tree = s.tree := rfl
@[simp] theorem setCursor_elist (n : Nat) (s : State) : (setCursor n s).elist = s.elist := rfl
@[simp] theorem setCursor_dtree (n : Nat) (s : State) : (setCursor n s).dtree = s.dtree := rfl
@[simp] theorem setCursor_host (n : Nat) (s : State) : (setCursor n s).host = s.host := rfl
@[simp] theorem setCursor_replies (n : Nat) (s : State) : (setCursor n s).replies = s.replies := rfl
@[simp] theorem setCursor_draws (n : Nat) (s : State) : (setCursor n s).draws = s.draws := rfl

@[simp] theorem setResult_err (v : Word64) (s : State) : (setResult v s).err = s.err := rfl
@[simp] theorem setResult_kind (v : Word64) (s : State) : (setResult v s).kind = s.kind := rfl
@[simp] theorem setResult_reason (v : Word64) (s : State) : (setResult v s).reason = s.reason := rfl
@[simp] theorem setResult_rej (v : Word64) (s : State) : (setResult v s).rej = s.rej := rfl
@[simp] theorem setResult_version (v : Word64) (s : State) : (setResult v s).version = s.version := rfl
@[simp] theorem setResult_treeLastBits (v : Word64) (s : State) : (setResult v s).treeLastBits = s.treeLastBits := rfl
@[simp] theorem setResult_dataLastBits (v : Word64) (s : State) : (setResult v s).dataLastBits = s.dataLastBits := rfl
@[simp] theorem setResult_entitySize (v : Word64) (s : State) : (setResult v s).entitySize = s.entitySize := rfl
@[simp] theorem setResult_entityCount (v : Word64) (s : State) : (setResult v s).entityCount = s.entityCount := rfl
@[simp] theorem setResult_treeByteCount (v : Word64) (s : State) : (setResult v s).treeByteCount = s.treeByteCount := rfl
@[simp] theorem setResult_dataByteCount (v : Word64) (s : State) : (setResult v s).dataByteCount = s.dataByteCount := rfl
@[simp] theorem setResult_operand (v : Word64) (s : State) : (setResult v s).operand = s.operand := rfl
@[simp] theorem setResult_result (v : Word64) (s : State) : (setResult v s).result = v := rfl
@[simp] theorem setResult_icur (v : Word64) (s : State) : (setResult v s).icur = s.icur := rfl
@[simp] theorem setResult_inStream (v : Word64) (s : State) : (setResult v s).inStream = s.inStream := rfl
@[simp] theorem setResult_outStream (v : Word64) (s : State) : (setResult v s).outStream = s.outStream := rfl
@[simp] theorem setResult_freq (v : Word64) (s : State) : (setResult v s).freq = s.freq := rfl
@[simp] theorem setResult_tree (v : Word64) (s : State) : (setResult v s).tree = s.tree := rfl
@[simp] theorem setResult_elist (v : Word64) (s : State) : (setResult v s).elist = s.elist := rfl
@[simp] theorem setResult_dtree (v : Word64) (s : State) : (setResult v s).dtree = s.dtree := rfl
@[simp] theorem setResult_host (v : Word64) (s : State) : (setResult v s).host = s.host := rfl
@[simp] theorem setResult_replies (v : Word64) (s : State) : (setResult v s).replies = s.replies := rfl
@[simp] theorem setResult_draws (v : Word64) (s : State) : (setResult v s).draws = s.draws := rfl

@[simp] theorem pencClear_err (s : State) : (pencClear s).err = s.err := rfl
@[simp] theorem pencClear_kind (s : State) : (pencClear s).kind = s.kind := rfl
@[simp] theorem pencClear_reason (s : State) : (pencClear s).reason = s.reason := rfl
@[simp] theorem pencClear_rej (s : State) : (pencClear s).rej = s.rej := rfl
@[simp] theorem pencClear_version (s : State) : (pencClear s).version = s.version := rfl
@[simp] theorem pencClear_treeLastBits (s : State) : (pencClear s).treeLastBits = s.treeLastBits := rfl
@[simp] theorem pencClear_dataLastBits (s : State) : (pencClear s).dataLastBits = 0#8 := rfl
@[simp] theorem pencClear_entitySize (s : State) : (pencClear s).entitySize = s.entitySize := rfl
@[simp] theorem pencClear_entityCount (s : State) : (pencClear s).entityCount = s.entityCount := rfl
@[simp] theorem pencClear_treeByteCount (s : State) : (pencClear s).treeByteCount = s.treeByteCount := rfl
@[simp] theorem pencClear_dataByteCount (s : State) : (pencClear s).dataByteCount = 0#64 := rfl
@[simp] theorem pencClear_operand (s : State) : (pencClear s).operand = s.operand := rfl
@[simp] theorem pencClear_result (s : State) : (pencClear s).result = s.result := rfl
@[simp] theorem pencClear_icur (s : State) : (pencClear s).icur = s.icur := rfl
@[simp] theorem pencClear_inStream (s : State) : (pencClear s).inStream = s.inStream := rfl
@[simp] theorem pencClear_outStream (s : State) : (pencClear s).outStream = s.outStream := rfl
@[simp] theorem pencClear_freq (s : State) : (pencClear s).freq = s.freq := rfl
@[simp] theorem pencClear_tree (s : State) : (pencClear s).tree = s.tree := rfl
@[simp] theorem pencClear_elist (s : State) : (pencClear s).elist = s.elist := rfl
@[simp] theorem pencClear_dtree (s : State) : (pencClear s).dtree = s.dtree := rfl
@[simp] theorem pencClear_host (s : State) : (pencClear s).host = s.host := rfl
@[simp] theorem pencClear_replies (s : State) : (pencClear s).replies = s.replies := rfl
@[simp] theorem pencClear_draws (s : State) : (pencClear s).draws = s.draws := rfl

@[simp] theorem eencStore_err (s : State) (a : EencWork) : (eencStore s a).err = s.err := rfl
@[simp] theorem eencStore_kind (s : State) (a : EencWork) : (eencStore s a).kind = s.kind := rfl
@[simp] theorem eencStore_reason (s : State) (a : EencWork) : (eencStore s a).reason = s.reason := rfl
@[simp] theorem eencStore_rej (s : State) (a : EencWork) : (eencStore s a).rej = s.rej := rfl
@[simp] theorem eencStore_version (s : State) (a : EencWork) : (eencStore s a).version = s.version := rfl
@[simp] theorem eencStore_treeLastBits (s : State) (a : EencWork) : (eencStore s a).treeLastBits = s.treeLastBits := rfl
@[simp] theorem eencStore_dataLastBits (s : State) (a : EencWork) : (eencStore s a).dataLastBits = s.dataLastBits := rfl
@[simp] theorem eencStore_entitySize (s : State) (a : EencWork) : (eencStore s a).entitySize = s.entitySize := rfl
@[simp] theorem eencStore_entityCount (s : State) (a : EencWork) : (eencStore s a).entityCount = BitVec.ofNat 32 a.count := rfl
@[simp] theorem eencStore_treeByteCount (s : State) (a : EencWork) : (eencStore s a).treeByteCount = s.treeByteCount := rfl
@[simp] theorem eencStore_dataByteCount (s : State) (a : EencWork) : (eencStore s a).dataByteCount = s.dataByteCount := rfl
@[simp] theorem eencStore_operand (s : State) (a : EencWork) : (eencStore s a).operand = s.operand := rfl
@[simp] theorem eencStore_result (s : State) (a : EencWork) : (eencStore s a).result = s.result := rfl
@[simp] theorem eencStore_icur (s : State) (a : EencWork) : (eencStore s a).icur = s.icur := rfl
@[simp] theorem eencStore_inStream (s : State) (a : EencWork) : (eencStore s a).inStream = s.inStream := rfl
@[simp] theorem eencStore_outStream (s : State) (a : EencWork) : (eencStore s a).outStream = a.out := rfl
@[simp] theorem eencStore_freq (s : State) (a : EencWork) : (eencStore s a).freq = s.freq := rfl
@[simp] theorem eencStore_tree (s : State) (a : EencWork) : (eencStore s a).tree = s.tree := rfl
@[simp] theorem eencStore_elist (s : State) (a : EencWork) : (eencStore s a).elist = s.elist := rfl
@[simp] theorem eencStore_dtree (s : State) (a : EencWork) : (eencStore s a).dtree = s.dtree := rfl
@[simp] theorem eencStore_host (s : State) (a : EencWork) : (eencStore s a).host = s.host := rfl
@[simp] theorem eencStore_replies (s : State) (a : EencWork) : (eencStore s a).replies = s.replies := rfl
@[simp] theorem eencStore_draws (s : State) (a : EencWork) : (eencStore s a).draws = s.draws := rfl

@[simp] theorem loadStream_err (bs : List Byte) (s : State) : (loadStream bs s).err = s.err := rfl
@[simp] theorem loadStream_kind (bs : List Byte) (s : State) : (loadStream bs s).kind = s.kind := rfl
@[simp] theorem loadStream_reason (bs : List Byte) (s : State) : (loadStream bs s).reason = s.reason := rfl
@[simp] theorem loadStream_rej (bs : List Byte) (s : State) : (loadStream bs s).rej = s.rej := rfl
@[simp] theorem loadStream_version (bs : List Byte) (s : State) : (loadStream bs s).version = s.version := rfl
@[simp] theorem loadStream_treeLastBits (bs : List Byte) (s : State) : (loadStream bs s).treeLastBits = s.treeLastBits := rfl
@[simp] theorem loadStream_dataLastBits (bs : List Byte) (s : State) : (loadStream bs s).dataLastBits = s.dataLastBits := rfl
@[simp] theorem loadStream_entitySize (bs : List Byte) (s : State) : (loadStream bs s).entitySize = s.entitySize := rfl
@[simp] theorem loadStream_entityCount (bs : List Byte) (s : State) : (loadStream bs s).entityCount = s.entityCount := rfl
@[simp] theorem loadStream_treeByteCount (bs : List Byte) (s : State) : (loadStream bs s).treeByteCount = s.treeByteCount := rfl
@[simp] theorem loadStream_dataByteCount (bs : List Byte) (s : State) : (loadStream bs s).dataByteCount = s.dataByteCount := rfl
@[simp] theorem loadStream_operand (bs : List Byte) (s : State) : (loadStream bs s).operand = s.operand := rfl
@[simp] theorem loadStream_result (bs : List Byte) (s : State) : (loadStream bs s).result = s.result := rfl
@[simp] theorem loadStream_icur (bs : List Byte) (s : State) : (loadStream bs s).icur = 0#64 := rfl
@[simp] theorem loadStream_inStream (bs : List Byte) (s : State) : (loadStream bs s).inStream = bs := rfl
@[simp] theorem loadStream_outStream (bs : List Byte) (s : State) : (loadStream bs s).outStream = s.outStream := rfl
@[simp] theorem loadStream_freq (bs : List Byte) (s : State) : (loadStream bs s).freq = s.freq := rfl
@[simp] theorem loadStream_tree (bs : List Byte) (s : State) : (loadStream bs s).tree = s.tree := rfl
@[simp] theorem loadStream_elist (bs : List Byte) (s : State) : (loadStream bs s).elist = s.elist := rfl
@[simp] theorem loadStream_dtree (bs : List Byte) (s : State) : (loadStream bs s).dtree = s.dtree := rfl
@[simp] theorem loadStream_host (bs : List Byte) (s : State) : (loadStream bs s).host = s.host := rfl
@[simp] theorem loadStream_replies (bs : List Byte) (s : State) : (loadStream bs s).replies = s.replies := rfl
@[simp] theorem loadStream_draws (bs : List Byte) (s : State) : (loadStream bs s).draws = s.draws := rfl

@[simp] theorem reply_err (r : HostReply) (s : State) : (reply r s).err = s.err := rfl
@[simp] theorem reply_kind (r : HostReply) (s : State) : (reply r s).kind = s.kind := rfl
@[simp] theorem reply_reason (r : HostReply) (s : State) : (reply r s).reason = s.reason := rfl
@[simp] theorem reply_rej (r : HostReply) (s : State) : (reply r s).rej = s.rej := rfl
@[simp] theorem reply_version (r : HostReply) (s : State) : (reply r s).version = s.version := rfl
@[simp] theorem reply_treeLastBits (r : HostReply) (s : State) : (reply r s).treeLastBits = s.treeLastBits := rfl
@[simp] theorem reply_dataLastBits (r : HostReply) (s : State) : (reply r s).dataLastBits = s.dataLastBits := rfl
@[simp] theorem reply_entitySize (r : HostReply) (s : State) : (reply r s).entitySize = s.entitySize := rfl
@[simp] theorem reply_entityCount (r : HostReply) (s : State) : (reply r s).entityCount = s.entityCount := rfl
@[simp] theorem reply_treeByteCount (r : HostReply) (s : State) : (reply r s).treeByteCount = s.treeByteCount := rfl
@[simp] theorem reply_dataByteCount (r : HostReply) (s : State) : (reply r s).dataByteCount = s.dataByteCount := rfl
@[simp] theorem reply_operand (r : HostReply) (s : State) : (reply r s).operand = s.operand := rfl
@[simp] theorem reply_result (r : HostReply) (s : State) : (reply r s).result = s.result := rfl
@[simp] theorem reply_icur (r : HostReply) (s : State) : (reply r s).icur = s.icur := rfl
@[simp] theorem reply_inStream (r : HostReply) (s : State) : (reply r s).inStream = s.inStream := rfl
@[simp] theorem reply_outStream (r : HostReply) (s : State) : (reply r s).outStream = s.outStream := rfl
@[simp] theorem reply_freq (r : HostReply) (s : State) : (reply r s).freq = s.freq := rfl
@[simp] theorem reply_tree (r : HostReply) (s : State) : (reply r s).tree = s.tree := rfl
@[simp] theorem reply_elist (r : HostReply) (s : State) : (reply r s).elist = s.elist := rfl
@[simp] theorem reply_dtree (r : HostReply) (s : State) : (reply r s).dtree = s.dtree := rfl
@[simp] theorem reply_host (r : HostReply) (s : State) : (reply r s).host = s.host := rfl
@[simp] theorem reply_replies (r : HostReply) (s : State) : (reply r s).replies = s.replies ++ [r] := rfl
@[simp] theorem reply_draws (r : HostReply) (s : State) : (reply r s).draws = s.draws := rfl

@[simp] theorem placeWord_err (c : Word32) (s : State) : (placeWord c s).err = s.err := rfl
@[simp] theorem placeWord_kind (c : Word32) (s : State) : (placeWord c s).kind = s.kind := rfl
@[simp] theorem placeWord_reason (c : Word32) (s : State) : (placeWord c s).reason = s.reason := rfl
@[simp] theorem placeWord_rej (c : Word32) (s : State) : (placeWord c s).rej = s.rej := rfl
@[simp] theorem placeWord_version (c : Word32) (s : State) : (placeWord c s).version = s.version := rfl
@[simp] theorem placeWord_treeLastBits (c : Word32) (s : State) : (placeWord c s).treeLastBits = s.treeLastBits := rfl
@[simp] theorem placeWord_dataLastBits (c : Word32) (s : State) : (placeWord c s).dataLastBits = s.dataLastBits := rfl
@[simp] theorem placeWord_entitySize (c : Word32) (s : State) : (placeWord c s).entitySize = s.entitySize := rfl
@[simp] theorem placeWord_entityCount (c : Word32) (s : State) : (placeWord c s).entityCount = s.entityCount := rfl
@[simp] theorem placeWord_treeByteCount (c : Word32) (s : State) : (placeWord c s).treeByteCount = s.treeByteCount := rfl
@[simp] theorem placeWord_dataByteCount (c : Word32) (s : State) : (placeWord c s).dataByteCount = s.dataByteCount := rfl
@[simp] theorem placeWord_operand (c : Word32) (s : State) : (placeWord c s).operand = s.operand := rfl
@[simp] theorem placeWord_result (c : Word32) (s : State) : (placeWord c s).result = s.result := rfl
@[simp] theorem placeWord_icur (c : Word32) (s : State) : (placeWord c s).icur = s.icur := rfl
@[simp] theorem placeWord_inStream (c : Word32) (s : State) : (placeWord c s).inStream = s.inStream := rfl
@[simp] theorem placeWord_outStream (c : Word32) (s : State) : (placeWord c s).outStream = s.outStream := rfl
@[simp] theorem placeWord_freq (c : Word32) (s : State) : (placeWord c s).freq = s.freq := rfl
@[simp] theorem placeWord_tree (c : Word32) (s : State) : (placeWord c s).tree = s.tree := rfl
@[simp] theorem placeWord_elist (c : Word32) (s : State) : (placeWord c s).elist = s.elist := rfl
@[simp] theorem placeWord_dtree (c : Word32) (s : State) : (placeWord c s).dtree = s.dtree := rfl
@[simp] theorem placeWord_host (c : Word32) (s : State) : (placeWord c s).host = .issue c :: s.host := rfl
@[simp] theorem placeWord_replies (c : Word32) (s : State) : (placeWord c s).replies = s.replies := rfl
@[simp] theorem placeWord_draws (c : Word32) (s : State) : (placeWord c s).draws = s.draws := rfl

@[simp] theorem faulted_err (k : BitVec 2) (r : BitVec 8) (s : State) : (faulted k r s).err = true := rfl
@[simp] theorem faulted_kind (k : BitVec 2) (r : BitVec 8) (s : State) : (faulted k r s).kind = k := rfl
@[simp] theorem faulted_reason (k : BitVec 2) (r : BitVec 8) (s : State) : (faulted k r s).reason = r := rfl
@[simp] theorem faulted_rej (k : BitVec 2) (r : BitVec 8) (s : State) : (faulted k r s).rej = s.rej := rfl
@[simp] theorem faulted_version (k : BitVec 2) (r : BitVec 8) (s : State) : (faulted k r s).version = s.version := rfl
@[simp] theorem faulted_treeLastBits (k : BitVec 2) (r : BitVec 8) (s : State) : (faulted k r s).treeLastBits = s.treeLastBits := rfl
@[simp] theorem faulted_dataLastBits (k : BitVec 2) (r : BitVec 8) (s : State) : (faulted k r s).dataLastBits = s.dataLastBits := rfl
@[simp] theorem faulted_entitySize (k : BitVec 2) (r : BitVec 8) (s : State) : (faulted k r s).entitySize = s.entitySize := rfl
@[simp] theorem faulted_entityCount (k : BitVec 2) (r : BitVec 8) (s : State) : (faulted k r s).entityCount = s.entityCount := rfl
@[simp] theorem faulted_treeByteCount (k : BitVec 2) (r : BitVec 8) (s : State) : (faulted k r s).treeByteCount = s.treeByteCount := rfl
@[simp] theorem faulted_dataByteCount (k : BitVec 2) (r : BitVec 8) (s : State) : (faulted k r s).dataByteCount = s.dataByteCount := rfl
@[simp] theorem faulted_operand (k : BitVec 2) (r : BitVec 8) (s : State) : (faulted k r s).operand = s.operand := rfl
@[simp] theorem faulted_result (k : BitVec 2) (r : BitVec 8) (s : State) : (faulted k r s).result = s.result := rfl
@[simp] theorem faulted_icur (k : BitVec 2) (r : BitVec 8) (s : State) : (faulted k r s).icur = s.icur := rfl
@[simp] theorem faulted_inStream (k : BitVec 2) (r : BitVec 8) (s : State) : (faulted k r s).inStream = s.inStream := rfl
@[simp] theorem faulted_outStream (k : BitVec 2) (r : BitVec 8) (s : State) : (faulted k r s).outStream = s.outStream := rfl
@[simp] theorem faulted_freq (k : BitVec 2) (r : BitVec 8) (s : State) : (faulted k r s).freq = s.freq := rfl
@[simp] theorem faulted_tree (k : BitVec 2) (r : BitVec 8) (s : State) : (faulted k r s).tree = s.tree := rfl
@[simp] theorem faulted_elist (k : BitVec 2) (r : BitVec 8) (s : State) : (faulted k r s).elist = s.elist := rfl
@[simp] theorem faulted_dtree (k : BitVec 2) (r : BitVec 8) (s : State) : (faulted k r s).dtree = s.dtree := rfl
@[simp] theorem faulted_host (k : BitVec 2) (r : BitVec 8) (s : State) : (faulted k r s).host = s.host := rfl
@[simp] theorem faulted_replies (k : BitVec 2) (r : BitVec 8) (s : State) : (faulted k r s).replies = s.replies := rfl
@[simp] theorem faulted_draws (k : BitVec 2) (r : BitVec 8) (s : State) : (faulted k r s).draws = s.draws := rfl

@[simp] theorem resetBlock_err (s : State) : (resetBlock s).err = State.reset.err := rfl
@[simp] theorem resetBlock_kind (s : State) : (resetBlock s).kind = State.reset.kind := rfl
@[simp] theorem resetBlock_reason (s : State) : (resetBlock s).reason = State.reset.reason := rfl
@[simp] theorem resetBlock_rej (s : State) : (resetBlock s).rej = State.reset.rej := rfl
@[simp] theorem resetBlock_version (s : State) : (resetBlock s).version = State.reset.version := rfl
@[simp] theorem resetBlock_treeLastBits (s : State) : (resetBlock s).treeLastBits = State.reset.treeLastBits := rfl
@[simp] theorem resetBlock_dataLastBits (s : State) : (resetBlock s).dataLastBits = State.reset.dataLastBits := rfl
@[simp] theorem resetBlock_entitySize (s : State) : (resetBlock s).entitySize = State.reset.entitySize := rfl
@[simp] theorem resetBlock_entityCount (s : State) : (resetBlock s).entityCount = State.reset.entityCount := rfl
@[simp] theorem resetBlock_treeByteCount (s : State) : (resetBlock s).treeByteCount = State.reset.treeByteCount := rfl
@[simp] theorem resetBlock_dataByteCount (s : State) : (resetBlock s).dataByteCount = State.reset.dataByteCount := rfl
@[simp] theorem resetBlock_operand (s : State) : (resetBlock s).operand = State.reset.operand := rfl
@[simp] theorem resetBlock_result (s : State) : (resetBlock s).result = State.reset.result := rfl
@[simp] theorem resetBlock_icur (s : State) : (resetBlock s).icur = State.reset.icur := rfl
@[simp] theorem resetBlock_inStream (s : State) : (resetBlock s).inStream = State.reset.inStream := rfl
@[simp] theorem resetBlock_outStream (s : State) : (resetBlock s).outStream = State.reset.outStream := rfl
@[simp] theorem resetBlock_freq (s : State) : (resetBlock s).freq = State.reset.freq := rfl
@[simp] theorem resetBlock_tree (s : State) : (resetBlock s).tree = State.reset.tree := rfl
@[simp] theorem resetBlock_elist (s : State) : (resetBlock s).elist = State.reset.elist := rfl
@[simp] theorem resetBlock_dtree (s : State) : (resetBlock s).dtree = State.reset.dtree := rfl
@[simp] theorem resetBlock_host (s : State) : (resetBlock s).host = s.host := rfl
@[simp] theorem resetBlock_replies (s : State) : (resetBlock s).replies = s.replies := rfl
@[simp] theorem resetBlock_draws (s : State) : (resetBlock s).draws = s.draws := rfl

/-- Raising a reason is the fault record of its codes (R107, R111). -/
theorem raiseFault_eq_faulted (r : Reason) (s : State) : raiseFault r s = faulted r.kind.code r.code s := rfl

end Sys2Proof.Machine
end

