-- ==== Sys2Proof/Laws/Commands.lean ====
section
/-! SUPPORT. What a command can do, said once for each: the form of the state its pseudocode leaves (its frame), and the
step around it. Callers cite these rather than unfold a body. -/

namespace Sys2Proof.Machine

/-! One command as a whole (10_state.md R26, 60_exceptions.md R111). -/

theorem runCommand_rejected (body : State → CmdResult) (s : State) (h : s.err = true) :
    runCommand body s = rejectCommand s := by simp [runCommand, h]

theorem runCommand_runs (body : State → CmdResult) (s : State) (h : s.err = false) :
    runCommand body s = settle (body s) := by simp [runCommand, h]

/-- The state a command's pseudocode has reached, before a raise is recorded. -/
def resultState : CmdResult → State
  | .done s => s
  | .raised s _ => s

/-- What the rejection, the raise and the pseudocode all keep, the command keeps. -/
theorem runCommand_keeps {α : Type} (f : State → α) (body : State → CmdResult) (s : State)
    (hrej : f (rejectCommand s) = f s) (hraise : ∀ r s', f (raiseFault r s') = f s')
    (hbody : f (resultState (body s)) = f s) : f (runCommand body s) = f s := by
  unfold runCommand
  split
  · exact hrej
  · cases hb : body s with
    | done s' => rw [hb] at hbody; exact hbody
    | raised s' r => rw [hb] at hbody; exact (hraise r s').trans hbody

/-! Each arm of `exec` is the command's pseudocode run as a whole. -/

@[simp] theorem exec_getbit (b : BitVec 8) (p : BitVec 4) (s : State) :
    exec (.getbit b p) s = .next (runCommand (getbitBody b p) s) := rfl
@[simp] theorem exec_setbit (b : BitVec 8) (p : BitVec 4) (s : State) :
    exec (.setbit b p) s = .next (runCommand (setbitBody b p) s) := rfl
@[simp] theorem exec_rdfix (nw : BitVec 4) (s : State) :
    exec (.rdfix nw) s = .next (runCommand (rdfixBody Config.params nw) s) := rfl
@[simp] theorem exec_wrfix (nw : BitVec 4) (s : State) :
    exec (.wrfix nw) s = .next (runCommand (wrfixBody Config.params nw) s) := rfl
@[simp] theorem exec_analyze (s : State) : exec .analyze s = .next (runCommand (analyzeBody Config.params) s) := rfl
@[simp] theorem exec_build (s : State) : exec .build s = .next (runCommand (buildBody Config.params) s) := rfl
@[simp] theorem exec_tenc (s : State) : exec .tenc s = .next (runCommand (tencBody Config.params) s) := rfl
@[simp] theorem exec_tdec (s : State) : exec .tdec s = .next (runCommand (tdecBody Config.params) s) := rfl
@[simp] theorem exec_eenc (s : State) : exec .eenc s = .next (runCommand (eencBody Config.params) s) := rfl
@[simp] theorem exec_edec (s : State) : exec .edec s = .next (runCommand edecBody s) := rfl
@[simp] theorem exec_penc (s : State) : exec .penc s = .next (runCommand (pencBody Config.params) s) := rfl
@[simp] theorem exec_pdec (s : State) : exec .pdec s = .next (runCommand (pdecBody Config.params) s) := rfl

/-- PENC with an illegal width leaves both data counts 0 (60_exceptions.md R111; log 23). -/
theorem pencBody_badWidth (P : Params) (s : State) (h : entityWidth s = none) :
    pencBody P s = .raised (pencClear s) .badWidth := by simp [pencBody, h]

/-! The widths (30_encoding.md R61). -/

theorem widthLegal_iff (w : Nat) : widthLegal w = true ↔ w ∈ [1, 2, 4, 8] := by
  simp [widthLegal, or_assoc]

theorem fixWidth_eq_some (nw : BitVec 4) (h : nw.toNat ∈ [1, 2, 4, 8]) : fixWidth nw = some nw.toNat := by
  unfold fixWidth; rw [if_pos ((widthLegal_iff _).mpr h)]

theorem entityWidth_eq_some (s : State) (h : s.entitySize.toNat ∈ [1, 2, 4, 8]) :
    entityWidth s = some s.entitySize.toNat := by
  unfold entityWidth; rw [if_pos ((widthLegal_iff _).mpr h)]

theorem entityWidth_eq_none (s : State) (h : s.entitySize.toNat ∉ [1, 2, 4, 8]) : entityWidth s = none := by
  unfold entityWidth; rw [if_neg (fun hw => h ((widthLegal_iff _).mp hw))]

/-- A width that a command accepts is 1, 2, 4 or 8. -/
theorem entityWidth_mem (s : State) (W : Nat) (h : entityWidth s = some W) : W = s.entitySize.toNat ∧ W ∈ [1, 2, 4, 8] := by
  unfold entityWidth at h
  split at h
  · next hw => simp only [Option.some.injEq] at h; subst h; exact ⟨rfl, (widthLegal_iff _).mp hw⟩
  · simp at h

/-! The form of the state each pseudocode leaves. -/

theorem getbitBody_state (b : BitVec 8) (p : BitVec 4) (s : State) :
    ∃ v, resultState (getbitBody b p s) = setResult v s := by
  unfold getbitBody
  split
  · exact ⟨s.result, rfl⟩
  · exact ⟨_, rfl⟩

theorem setbitBody_state (b : BitVec 8) (p : BitVec 4) (s : State) :
    ∃ v, resultState (setbitBody b p s) = setResult v s := by
  unfold setbitBody
  split
  · exact ⟨s.result, rfl⟩
  · exact ⟨_, rfl⟩

theorem rdfixBody_state (P : Params) (nw : BitVec 4) (s : State) :
    ∃ v c, resultState (rdfixBody P nw s) = { s with result := v, icur := c } := by
  unfold rdfixBody
  split
  · exact ⟨s.result, s.icur, rfl⟩
  · split
    · exact ⟨s.result, _, rfl⟩
    · exact ⟨_, _, rfl⟩

theorem wrfixBody_state (P : Params) (nw : BitVec 4) (s : State) :
    ∃ o, resultState (wrfixBody P nw s) = { s with outStream := o } := by
  unfold wrfixBody
  split
  · exact ⟨s.outStream, rfl⟩
  · split
    · exact ⟨s.outStream, rfl⟩
    · exact ⟨_, rfl⟩

theorem analyzeBody_state (P : Params) (s : State) :
    ∃ m c, resultState (analyzeBody P s) = { s with freq := m, icur := c } := by
  unfold analyzeBody
  split
  · exact ⟨s.freq, s.icur, rfl⟩
  · split <;> exact ⟨_, _, rfl⟩

theorem buildBody_state (P : Params) (s : State) :
    ∃ T k, resultState (buildBody P s) = { s with tree := T, draws := k, freq := [] } := ⟨_, _, rfl⟩

theorem tencBody_state (P : Params) (s : State) :
    ∃ o n l, resultState (tencBody P s) = { s with outStream := o, treeByteCount := n, treeLastBits := l } := by
  unfold tencBody
  split
  · exact ⟨s.outStream, _, _, rfl⟩
  · split
    · exact ⟨_, s.treeByteCount, s.treeLastBits, rfl⟩
    · split
      · exact ⟨_, s.treeByteCount, s.treeLastBits, rfl⟩
      · exact ⟨_, _, _, rfl⟩

theorem tdecBody_state (P : Params) (s : State) :
    ∃ t c, resultState (tdecBody P s) = { s with dtree := t, icur := c } := by
  unfold tdecBody
  split
  · split <;> exact ⟨_, s.icur, rfl⟩
  · split
    · exact ⟨_, _, rfl⟩
    · split <;> exact ⟨_, _, rfl⟩

theorem eencBody_state (P : Params) (s : State) :
    ∃ o n, resultState (eencBody P s) = { s with outStream := o, entityCount := n } := by
  unfold eencBody
  split <;> exact ⟨_, _, rfl⟩

theorem edecBody_state (s : State) : ∃ es c, resultState (edecBody s) = { s with elist := es, icur := c } := by
  unfold edecBody
  split
  · exact ⟨s.elist, s.icur, rfl⟩
  · split <;> exact ⟨_, _, rfl⟩

theorem pencBody_state (P : Params) (s : State) :
    ∃ o n l c, resultState (pencBody P s) =
      { s with outStream := o, dataByteCount := n, dataLastBits := l, icur := c } := by
  unfold pencBody
  split
  · exact ⟨s.outStream, _, _, s.icur, rfl⟩
  · split
    · exact ⟨_, _, _, _, rfl⟩
    · split
      · exact ⟨_, _, _, _, rfl⟩
      · split <;> exact ⟨_, _, _, _, rfl⟩

theorem pdecBody_state (P : Params) (s : State) :
    ∃ o c, resultState (pdecBody P s) = { s with outStream := o, icur := c } := by
  unfold pdecBody
  split <;> exact ⟨_, _, rfl⟩

/-! Appending to OUT (20_memory.md R43). -/

theorem appendOut_eq_some (P : Params) (out bs : List Byte) (h : outTooLong P (out.length + bs.length) = false) :
    appendOut P out bs = some (out ++ bs) := by simp [appendOut, h]

/-- An append that happens puts the bytes at the end and stays within MAX_OUT_LEN. -/
theorem appendOut_some (P : Params) (out bs o : List Byte) (h : appendOut P out bs = some o) :
    o = out ++ bs ∧ outTooLong P o.length = false := by
  unfold appendOut at h
  split at h
  · simp at h
  · next hn =>
    simp only [Option.some.injEq] at h
    subst h
    exact ⟨rfl, by rw [List.length_append]; simpa using hn⟩

/-! The host's step (10_state.md R25). -/

theorem step_eq_hostStep (s : State) : step s = hostStep s := rfl

@[simp] theorem step_action (s : State) (a : HostAction) (rest : List HostAction) :
    step { s with host := a :: rest } = hostAct a { s with host := rest } := rfl

/-- Issuing a word that decodes is its command, whatever ERR is: with ERR = 1 both reject it (10_state.md R26; log 10). -/
theorem issue_eq_exec (c : Word32) (i : Instr) (s : State) (hd : decode c = .ok i) : issue c s = exec i s := by
  unfold issue
  split
  · next h => cases i <;> simp [runCommand_rejected, h]
  · rw [hd]

theorem step_idle (s : State) (h : s.host = []) : hostStep s = .next s := by simp [hostStep, h]

end Sys2Proof.Machine
end

