-- ==== Sys2Proof/Laws/Config.lean ====
section
/-! SUPPORT. The bounds of 00_scope.md R7 for the modelled chip, and what they give for appends (20_memory.md R43). -/

namespace Sys2Proof

/-- Legal parameters are left as they are, so `Config.params` is any chip R7 allows. -/
theorem Params.legalize_of_legal (P : Params) (h : P.Legal) : P.legalize = P := by
  obtain ⟨h1, h2, h3⟩ := h
  obtain ⟨o, v, d, n, i, l, t, b⟩ := P
  simp only [Params.legalize, Params.mk.injEq, true_and, and_true]
  refine ⟨?_, ?_, ?_⟩
  · cases d with
    | none => rfl
    | some m => exact congrArg some (max_eq_right (h1 m rfl))
  · cases n with
    | none => rfl
    | some m => exact congrArg some (max_eq_right (h2 m rfl))
  · cases l with
    | none => rfl
    | some m => exact congrArg some (max_eq_right (h3 m rfl))

/-- The modelled chip obeys R7. -/
theorem Config.params_legal : Config.params.Legal := by
  refine ⟨?_, ?_, ?_⟩ <;>
  · intro m h
    simp only [Config.params, Params.legalize, Option.map_eq_some_iff] at h
    obtain ⟨k, -, rfl⟩ := h
    exact le_max_left _ _

end Sys2Proof

namespace Sys2Proof.Machine

/-- An OUT of at most 2^64 - 1 bytes fits on every chip (R7, R43). -/
theorem outTooLong_params (n : Nat) (h : n ≤ 2 ^ 64 - 1) : outTooLong Config.params n = false := by
  unfold outTooLong
  cases hm : Config.params.maxOutLen with
  | none => rfl
  | some m => exact decide_eq_false (Nat.not_lt.mpr (h.trans (Config.params_legal.outLen_ge m hm)))

/-- A shorter OUT fits where a longer one does. -/
theorem outTooLong_mono (P : Params) {m n : Nat} (h : m ≤ n) (hn : outTooLong P n = false) :
    outTooLong P m = false := by
  unfold outTooLong at *
  cases hm : P.maxOutLen with
  | none => rfl
  | some k =>
    rw [hm] at hn
    exact decide_eq_false (Nat.not_lt.mpr (h.trans (Nat.not_lt.mp (of_decide_eq_false hn))))

/-- Fewer nodes fit where more do. -/
theorem nodesOver_mono (P : Params) {m n : Nat} (h : m ≤ n) (hn : nodesOver P n = false) : nodesOver P m = false := by
  unfold nodesOver at *
  cases hm : P.maxDnodes with
  | none => rfl
  | some k =>
    rw [hm] at hn
    exact decide_eq_false (Nat.not_lt.mpr (h.trans (Nat.not_lt.mp (of_decide_eq_false hn))))

end Sys2Proof.Machine
end

