-- ==== Sys2Proof/Laws/Loops.lean ====
section
/-! SUPPORT. What the shared loops can do (Machine/Ops.lean): over a list, over the bits of a section (20_memory.md R47),
over the records of IN (R42). Each has an induction principle (`_holds`) and a closed form where nothing is raised (`_ok`). -/

namespace Sys2Proof.Machine

variable {σ β : Type}

/-- A loop answer satisfies `I` where it went on and `E` where it raised. -/
def AttemptHolds (I : σ → Prop) (E : σ → Reason → Prop) : Attempt σ → Prop
  | .ok a => I a
  | .error (a, r) => E a r

/-- The answer of a loop that reads IN satisfies `I` where it ended and `E` where it raised. -/
def FeedHolds (I : Nat → σ → Prop) (E : Nat → σ → Reason → Prop) : Feed σ → Prop
  | .done cur a => I cur a
  | .raised cur a r => E cur a r

/-! The list loop. -/

theorem feedList_append (f : σ → β → Attempt σ) (xs ys : List β) (a : σ) :
    feedList f (xs ++ ys) a =
      match feedList f xs a with
      | .error e => .error e
      | .ok a' => feedList f ys a' := by
  induction xs generalizing a with
  | nil => rfl
  | cons x xs ih =>
    simp only [List.cons_append, feedList]
    cases f a x with
    | error e => rfl
    | ok a' => exact ih a'

/-- An invariant of one round is an invariant of the loop. -/
theorem feedList_holds {I : σ → Prop} {E : σ → Reason → Prop} {f : σ → β → Attempt σ} {bs : List β}
    (step : ∀ a b, b ∈ bs → I a → AttemptHolds I E (f a b)) (a : σ) (ha : I a) :
    AttemptHolds I E (feedList f bs a) := by
  induction bs generalizing a with
  | nil => exact ha
  | cons b bs ih =>
    have h := step a b List.mem_cons_self ha
    simp only [feedList]
    cases hf : f a b with
    | error e => rw [hf] at h; exact h
    | ok a' =>
      rw [hf] at h
      exact ih (fun a c hc => step a c (List.mem_cons_of_mem b hc)) a' h

/-! The section loop. -/

/-- `SectionBits(n, lb)` of the bytes at hand (R47): every bit of each byte, `eff(lb)` bits of the last. -/
def sectionBits (lb : BitVec 8) : List Byte → List Bool
  | [] => []
  | [b] => byteBits b (effBits lb)
  | b :: c :: bs => byteBits b 8 ++ sectionBits lb (c :: bs)

theorem feedSection_zero (f : σ → Bool → Attempt σ) (lb : BitVec 8) (len : Nat) (rest : List Byte) (cur : Nat) (a : σ) :
    feedSection f lb len rest 0 cur a = .done cur a := by
  unfold feedSection; rfl

/-- Where every bit of the section is taken without a raise, the loop ends after its n bytes. -/
theorem feedSection_ok (f : σ → Bool → Attempt σ) (lb : BitVec 8) (len : Nat) (bs tail : List Byte) (cur : Nat)
    (a a' : σ) (h : feedList f (sectionBits lb bs) a = .ok a') :
    feedSection f lb len (bs ++ tail) bs.length cur a = .done (cur + bs.length) a' := by
  induction bs generalizing cur a with
  | nil =>
    simp only [sectionBits, feedList, Except.ok.injEq] at h
    subst h; exact feedSection_zero ..
  | cons b bs ih =>
    unfold feedSection
    cases bs with
    | nil =>
      simp only [sectionBits] at h
      simp [h, feedSection_zero]
    | cons c bs =>
      rw [sectionBits, feedList_append] at h
      cases hb : feedList f (byteBits b 8) a with
      | error e => rw [hb] at h; simp at h
      | ok a1 =>
        rw [hb] at h
        have h1 := ih (cur + 1) a1 h
        simp only [List.cons_append, List.length_cons] at h1
        simp only [List.cons_append, List.length_cons, Nat.add_eq_zero_iff, one_ne_zero, and_false, if_false,
          Nat.add_eq_right, Nat.add_sub_cancel, hb, h1]
        congr 1; omega

/-- What the section loop can do: it takes all n bytes, or raises at a bit of a byte it has read, or runs out of bytes. -/
theorem feedSection_holds {I : σ → Prop} {E : σ → Reason → Prop} {f : σ → Bool → Attempt σ} (lb : BitVec 8) (len : Nat)
    (step : ∀ a b, I a → AttemptHolds I E (f a b)) (rest : List Byte) (n cur : Nat) (a : σ) (ha : I a) :
    FeedHolds (fun c a' => c = cur + n ∧ n ≤ rest.length ∧ I a')
      (fun c a' r => (E a' r ∧ cur < c ∧ c ≤ cur + rest.length ∧ c ≤ cur + n) ∨
        (I a' ∧ r = .exhausted ∧ c = len ∧ rest.length < n))
      (feedSection f lb len rest n cur a) := by
  induction rest generalizing n cur a with
  | nil =>
    unfold feedSection
    by_cases hn : n = 0
    · simp [hn, FeedHolds, ha]
    · simp only [hn, if_false]
      exact Or.inr ⟨ha, rfl, rfl, Nat.pos_of_ne_zero hn⟩
  | cons b rest ih =>
    unfold feedSection
    by_cases hn : n = 0
    · simp [hn, FeedHolds, ha]
    · simp only [hn, if_false]
      have h := feedList_holds (bs := byteBits b (if n = 1 then effBits lb else 8)) (fun a b _ => step a b) a ha
      cases hf : feedList f (byteBits b (if n = 1 then effBits lb else 8)) a with
      | error e =>
        rw [hf] at h
        refine Or.inl ⟨h, ?_, ?_, ?_⟩
        · omega
        · simp only [List.length_cons]; omega
        · omega
      | ok a1 =>
        rw [hf] at h
        have h1 := ih (n - 1) (cur + 1) a1 h
        show FeedHolds _ _ (feedSection f lb len rest (n - 1) (cur + 1) a1)
        cases hs : feedSection f lb len rest (n - 1) (cur + 1) a1 with
        | done c a' =>
          rw [hs] at h1
          obtain ⟨h2, h3, h4⟩ := h1
          refine ⟨by omega, ?_, h4⟩
          simp only [List.length_cons]; omega
        | raised c a' r =>
          rw [hs] at h1
          rcases h1 with ⟨h2, h3, h4, h5⟩ | ⟨h2, h3, h4, h5⟩
          · refine Or.inl ⟨h2, by omega, ?_, by omega⟩
            simp only [List.length_cons]; omega
          · refine Or.inr ⟨h2, h3, h4, ?_⟩
            simp only [List.length_cons]; omega

/-! The record loops. -/

theorem records_nil (W : Nat) : records W [] = [] := by simp [records]

theorem records_short (W : Nat) (bs : List Byte) (h : bs.length < W) : records W bs = [] := by
  simp [records, Nat.div_eq_of_lt h]

/-- The records of a sequence of at least W bytes: its first W bytes, then the records of the rest. -/
theorem records_cons (W : Nat) (bs : List Byte) (hW : 1 ≤ W) (h : W ≤ bs.length) :
    records W bs = bs.take W :: records W (bs.drop W) := by
  have hd : bs.length / W = (bs.drop W).length / W + 1 := by
    rw [List.length_drop, Nat.div_eq_sub_div hW h]
  unfold records
  rw [hd, List.range_succ_eq_map, List.map_cons, List.map_map]
  refine congrArg₂ _ (by simp) (List.map_congr_left fun k _ => ?_)
  simp [List.drop_drop, Nat.succ_mul, Nat.add_comm]

/-- What the record loop of ANALYZE and PENC can do: it takes every byte, or raises on a record it has read, or meets a
trailing partial record. -/
theorem feedRecords_holds {I : σ → Prop} {E : σ → Reason → Prop} {f : σ → Entity → Attempt σ} (W len : Nat) (hW : 1 ≤ W)
    (step : ∀ a v, v.length = W → I a → AttemptHolds I E (f a v)) (fuel : Nat) (rest : List Byte) (cur : Nat) (a : σ)
    (hfuel : rest.length ≤ fuel) (ha : I a) :
    FeedHolds (fun c a' => c = cur + rest.length ∧ rest.length % W = 0 ∧ I a')
      (fun c a' r => (E a' r ∧ cur < c ∧ c ≤ cur + rest.length) ∨
        (I a' ∧ r = .exhausted ∧ c = len ∧ rest.length % W ≠ 0))
      (feedRecords f W len fuel rest cur a) := by
  induction fuel generalizing rest cur a with
  | zero =>
    have : rest = [] := List.length_eq_zero_iff.mp (by omega)
    subst this
    simp [feedRecords, FeedHolds, ha]
  | succ fuel ih =>
    cases rest with
    | nil => simp [feedRecords, FeedHolds, ha]
    | cons b bs =>
      simp only [feedRecords]
      by_cases hs : (b :: bs).length < W
      · rw [if_pos hs]
        refine Or.inr ⟨ha, rfl, rfl, ?_⟩
        rw [Nat.mod_eq_of_lt hs]; simp
      · rw [if_neg hs]
        have hle : W ≤ (b :: bs).length := Nat.not_lt.mp hs
        have h := step a ((b :: bs).take W) (by rw [List.length_take]; omega) ha
        cases hf : f a ((b :: bs).take W) with
        | error e =>
          rw [hf] at h
          exact Or.inl ⟨h, by omega, by omega⟩
        | ok a1 =>
          rw [hf] at h
          have hl : ((b :: bs).drop W).length = (b :: bs).length - W := List.length_drop
          have hmod : ((b :: bs).drop W).length % W = (b :: bs).length % W := by
            rw [hl]; exact (Nat.mod_eq_sub_mod hle).symm
          have h1 := ih ((b :: bs).drop W) (cur + W) a1 (by omega) h
          show FeedHolds _ _ (feedRecords f W len fuel ((b :: bs).drop W) (cur + W) a1)
          cases hr : feedRecords f W len fuel ((b :: bs).drop W) (cur + W) a1 with
          | done c a' =>
            rw [hr] at h1
            obtain ⟨h2, h3, h4⟩ := h1
            exact ⟨by omega, by rw [← hmod]; exact h3, h4⟩
          | raised c a' r =>
            rw [hr] at h1
            rcases h1 with ⟨h2, h3, h4⟩ | ⟨h2, h3, h4, h5⟩
            · exact Or.inl ⟨h2, by omega, by omega⟩
            · exact Or.inr ⟨h2, h3, h4, by rw [← hmod]; exact h5⟩

/-- Where every record is taken without a raise and no partial one is left, the loop ends at the last byte. -/
theorem feedRecords_ok (f : σ → Entity → Attempt σ) (W len : Nat) (hW : 1 ≤ W) (fuel : Nat) (rest : List Byte) (cur : Nat)
    (a a' : σ) (hfuel : rest.length ≤ fuel) (hmod : rest.length % W = 0)
    (h : feedList f (records W rest) a = .ok a') :
    feedRecords f W len fuel rest cur a = .done (cur + rest.length) a' := by
  induction fuel generalizing rest cur a with
  | zero =>
    have : rest = [] := List.length_eq_zero_iff.mp (by omega)
    subst this
    simp only [records_nil, feedList, Except.ok.injEq] at h
    subst h; rfl
  | succ fuel ih =>
    cases rest with
    | nil =>
      simp only [records_nil, feedList, Except.ok.injEq] at h
      subst h; rfl
    | cons b bs =>
      have hle : W ≤ (b :: bs).length := by
        by_contra hlt
        rw [Nat.mod_eq_of_lt (by omega)] at hmod
        simp at hmod
      rw [records_cons W (b :: bs) hW hle] at h
      simp only [feedList] at h
      simp only [feedRecords]
      rw [if_neg (Nat.not_lt.mpr hle)]
      cases hf : f a ((b :: bs).take W) with
      | error e => rw [hf] at h; simp at h
      | ok a1 =>
        rw [hf] at h
        have hl : ((b :: bs).drop W).length = (b :: bs).length - W := List.length_drop
        have h1 := ih ((b :: bs).drop W) (cur + W) a1 (by omega)
          (by rw [hl, ← Nat.mod_eq_sub_mod hle]; exact hmod) h
        show feedRecords f W len fuel ((b :: bs).drop W) (cur + W) a1 = _
        rw [h1]; congr 1; omega

/-- EDEC's loop where the bytes suffice (R96). -/
theorem takeRecords_ok (W len n : Nat) (rest : List Byte) (cur : Nat) (es : List Entity) (h : n * W ≤ rest.length) :
    takeRecords W len n rest cur es =
      .done (cur + n * W) (es ++ (List.range n).map (fun i => (rest.drop (i * W)).take W)) := by
  induction n generalizing rest cur es with
  | zero => simp [takeRecords]
  | succ n ih =>
    rw [Nat.succ_mul] at h
    unfold takeRecords
    rw [if_neg (by omega), ih (rest.drop W) (cur + W) (es ++ [rest.take W]) (by rw [List.length_drop]; omega)]
    congr 1
    · rw [Nat.succ_mul]; omega
    · rw [List.range_succ_eq_map, List.map_cons, List.map_map, List.append_assoc]
      congr 1
      refine congrArg₂ List.cons (by simp) (List.map_congr_left fun k _ => ?_)
      simp [List.drop_drop, Nat.succ_mul, Nat.add_comm]

/-- EDEC's loop where the bytes do not suffice (R96): the whole records are collected, the cursor is at `len`. -/
theorem takeRecords_exhausted (W len n : Nat) (hW : 1 ≤ W) (rest : List Byte) (cur : Nat) (es : List Entity)
    (h : rest.length < n * W) :
    takeRecords W len n rest cur es = .raised len (es ++ records W rest) .exhausted := by
  induction n generalizing rest cur es with
  | zero => simp at h
  | succ n ih =>
    rw [Nat.succ_mul] at h
    unfold takeRecords
    by_cases hs : rest.length < W
    · simp [hs, records_short W rest hs]
    · rw [if_neg hs, ih (rest.drop W) (cur + W) (es ++ [rest.take W]) (by rw [List.length_drop]; omega),
        records_cons W rest hW (Nat.not_lt.mp hs), List.append_assoc]
      rfl

end Sys2Proof.Machine
end

