-- ==== Sys2Proof/Laws/Memory.lean ====
section
/-! SUPPORT. The form of the streams and of FREQ (`Memory.wf`): what it says, that it holds after reset, and that every
operation on the streams and on FREQ keeps it. -/

namespace Sys2Proof.Machine

/-- `Memory.wf` read as a proposition. -/
theorem Memory.wf_iff (P : Params) (s : State) :
    Memory.wf P s = true ↔
      s.icur.toNat ≤ s.inStream.length ∧ s.inStream.length ≤ P.maxInLen.toNat ∧
        outTooLong P s.outStream.length = false ∧ freqSorted s.freq = true ∧ freqFits P s.freq = true := by
  simp only [Memory.wf, Bool.and_eq_true, decide_eq_true_eq, Bool.not_eq_true']
  constructor
  · rintro ⟨⟨⟨⟨h1, h2⟩, h3⟩, h4⟩, h5⟩; exact ⟨h1, h2, h3, h4, h5⟩
  · rintro ⟨h1, h2, h3, h4, h5⟩; exact ⟨⟨⟨⟨h1, h2⟩, h3⟩, h4⟩, h5⟩

/-- MAX_IN_LEN, and so every well-formed IN, is below 2^64 (00_scope.md R7). -/
theorem Memory.wf_inLen (P : Params) (s : State) (h : Memory.wf P s = true) : s.inStream.length < 2 ^ 64 :=
  Nat.lt_of_le_of_lt ((Memory.wf_iff P s).mp h).2.1 P.maxInLen.isLt

/-- An empty OUT fits on every chip. -/
theorem outTooLong_zero (P : Params) : outTooLong P 0 = false := by
  unfold outTooLong
  cases P.maxOutLen <;> simp

/-- The form depends on the streams, the cursor and FREQ only. -/
theorem Memory.wf_congr (P : Params) (s t : State) (h1 : t.icur = s.icur) (h2 : t.inStream = s.inStream)
    (h3 : t.outStream = s.outStream) (h4 : t.freq = s.freq) : Memory.wf P t = Memory.wf P s := by
  simp [Memory.wf, h1, h2, h3, h4]

theorem Memory.wf_raiseFault (P : Params) (r : Reason) (s : State) :
    Memory.wf P (raiseFault r s) = Memory.wf P s := Memory.wf_congr P _ _ rfl rfl rfl rfl

theorem Memory.wf_rejectCommand (P : Params) (s : State) :
    Memory.wf P (rejectCommand s) = Memory.wf P s := Memory.wf_congr P _ _ rfl rfl rfl rfl

/-- Moving the cursor to a place of IN keeps the form. -/
theorem Memory.wf_setCursor (P : Params) (n : Nat) (s : State) (h : Memory.wf P s = true) (hn : n ≤ s.inStream.length) :
    Memory.wf P (setCursor n s) = true := by
  have hlen := Memory.wf_inLen P s h
  rw [Memory.wf_iff] at *
  refine ⟨?_, h.2⟩
  show (BitVec.ofNat 64 n).toNat ≤ s.inStream.length
  rw [BitVec.toNat_ofNat, Nat.mod_eq_of_lt (by omega)]
  exact hn

/-- Loading an IN within MAX_IN_LEN keeps the form (10_state.md R25). -/
theorem Memory.wf_loadStream (P : Params) (bs : List Byte) (s : State) (h : Memory.wf P s = true)
    (hb : bs.length ≤ P.maxInLen.toNat) : Memory.wf P (loadStream bs s) = true := by
  rw [Memory.wf_iff] at *
  exact ⟨by simp, hb, h.2.2.1, h.2.2.2.1, h.2.2.2.2⟩

/-- Appending to OUT keeps the form (R43). -/
theorem Memory.wf_appendOut (P : Params) (bs o : List Byte) (s : State) (h : Memory.wf P s = true)
    (ho : appendOut P s.outStream bs = some o) : Memory.wf P { s with outStream := o } = true := by
  rw [Memory.wf_iff] at *
  exact ⟨h.1, h.2.1, (appendOut_some P _ _ _ ho).2, h.2.2.2.1, h.2.2.2.2⟩

/-- Clearing OUT keeps the form. -/
theorem Memory.wf_clearOut (P : Params) (s : State) (h : Memory.wf P s = true) :
    Memory.wf P { s with outStream := [] } = true := by
  rw [Memory.wf_iff] at *
  exact ⟨h.1, h.2.1, outTooLong_zero P, h.2.2.2.1, h.2.2.2.2⟩

/-- A register write keeps the form: ICUR is clamped (10_state.md R30). -/
theorem Memory.wf_csrWrite (P : Params) (i : BitVec 4) (v : Word64) (s : State) (h : Memory.wf P s = true) :
    Memory.wf P (csrWrite i v s) = true := by
  unfold csrWrite
  split
  case h_9 => exact Memory.wf_setCursor P _ s h (min_le_right _ _)
  all_goals exact h

/-- The streams after reset have the form on every chip. -/
theorem Memory.wf_reset_streams (P : Params) (s : State) : Memory.wf P (resetBlock s) = true := by
  rw [Memory.wf_iff]
  refine ⟨by simp [State.reset], by simp [State.reset], outTooLong_zero P, rfl, ?_⟩
  unfold freqFits
  cases P.maxDistinct <;> simp [State.reset]

/-! FREQ's canonical form (R33). -/

/-- `entityLt` is transitive. -/
theorem entityLt_trans (a b c : Entity) (h1 : entityLt a b = true) (h2 : entityLt b c = true) : entityLt a c = true := by
  induction a generalizing b c with
  | nil =>
    cases c with
    | nil => cases b <;> simp [entityLt] at h2 h1
    | cons z zs => rfl
  | cons x xs ih =>
    cases b with
    | nil => simp [entityLt] at h1
    | cons y ys =>
      cases c with
      | nil => simp [entityLt] at h2
      | cons z zs =>
        simp only [entityLt, Bool.or_eq_true, decide_eq_true_eq, Bool.and_eq_true, beq_iff_eq] at *
        rcases h1 with h1 | ⟨rfl, h1⟩
        · rcases h2 with h2 | ⟨rfl, h2⟩
          · exact Or.inl (by omega)
          · exact Or.inl h1
        · rcases h2 with h2 | ⟨rfl, h2⟩
          · exact Or.inl h2
          · exact Or.inr ⟨rfl, ih ys zs h1 h2⟩

/-- Of two different entities one comes first. -/
theorem entityLt_total (a b : Entity) (h1 : a ≠ b) (h2 : entityLt a b = false) : entityLt b a = true := by
  induction a generalizing b with
  | nil =>
    cases b with
    | nil => exact absurd rfl h1
    | cons y ys => simp [entityLt] at h2
  | cons x xs ih =>
    cases b with
    | nil => rfl
    | cons y ys =>
      simp only [entityLt, Bool.or_eq_false_iff, decide_eq_false_iff_not, Bool.and_eq_false_iff, beq_eq_false_iff_ne,
        Bool.or_eq_true, decide_eq_true_eq, Bool.and_eq_true, beq_iff_eq] at *
      by_cases hxy : x = y
      · subst hxy
        have h3 : xs ≠ ys := fun h => h1 (by rw [h])
        rcases h2.2 with h | h
        · exact absurd rfl h
        · exact Or.inr ⟨rfl, ih ys h3 h⟩
      · have : x.toNat ≠ y.toNat := fun h => hxy (BitVec.eq_of_toNat_eq h)
        exact Or.inl (by omega)

/-- No entity comes before itself. -/
theorem entityLt_irrefl (a : Entity) : entityLt a a = false := by
  induction a with
  | nil => rfl
  | cons x xs ih => simp [entityLt, ih]

/-- Counting an entity only adds it to the keys. -/
theorem mem_freqBump (m : List (Entity × Word64)) (v u : Entity) (h : u ∈ (freqBump m v).map Prod.fst) :
    u = v ∨ u ∈ m.map Prod.fst := by
  induction m with
  | nil => simpa [freqBump] using h
  | cons e m ih =>
    obtain ⟨w, c⟩ := e
    unfold freqBump at h
    split at h
    · next hw => subst hw; simpa using h
    · split at h
      · simp only [List.map_cons, List.mem_cons] at h ⊢; tauto
      · simp only [List.map_cons, List.mem_cons] at h ⊢
        rcases h with h | h
        · exact Or.inr (Or.inl h)
        · rcases ih h with h | h
          · exact Or.inl h
          · exact Or.inr (Or.inr h)

/-- `freqSorted` of a map with a first key: every other key comes after it, and the rest is sorted. -/
theorem freqSorted_cons (e : Entity × Word64) (m : List (Entity × Word64)) :
    freqSorted (e :: m) = true ↔ (∀ u ∈ m.map Prod.fst, entityLt e.1 u = true) ∧ freqSorted m = true := by
  simp [freqSorted]

/-- Counting an entity keeps FREQ canonical. -/
theorem freqSorted_freqBump (m : List (Entity × Word64)) (v : Entity) (h : freqSorted m = true) :
    freqSorted (freqBump m v) = true := by
  induction m with
  | nil => rfl
  | cons e m ih =>
    obtain ⟨u, c⟩ := e
    rw [freqSorted_cons] at h
    unfold freqBump
    split
    · rw [freqSorted_cons]; exact h
    · next hne =>
      split
      · next hlt =>
        rw [freqSorted_cons, freqSorted_cons]
        refine ⟨?_, h⟩
        intro w hw
        simp only [List.map_cons, List.mem_cons] at hw
        rcases hw with rfl | hw
        · exact hlt
        · exact entityLt_trans _ _ _ hlt (h.1 w hw)
      · next hlt =>
        rw [freqSorted_cons]
        refine ⟨?_, ih h.2⟩
        intro w hw
        rcases mem_freqBump m v w hw with rfl | hw
        · exact entityLt_total _ _ (Ne.symm hne) (by simpa using hlt)
        · exact h.1 w hw

/-- A canonical FREQ has distinct keys. -/
theorem freqSorted_nodup (m : List (Entity × Word64)) (h : freqSorted m = true) : (m.map Prod.fst).Nodup := by
  induction m with
  | nil => exact List.nodup_nil
  | cons e m ih =>
    rw [freqSorted_cons] at h
    rw [List.map_cons, List.nodup_cons]
    refine ⟨fun hm => ?_, ih h.2⟩
    have h1 := h.1 _ hm
    rw [entityLt_irrefl] at h1
    exact Bool.false_ne_true h1

end Sys2Proof.Machine
end

