-- ==== Sys2Proof/Laws/Packing.lean ====
section
/-! SUPPORT. The packer (20_memory.md R46): its bytes are the closed form `packed`, and reading a packed section gives the
bits back (R47). -/

namespace Sys2Proof.Machine

/-- "Bit i of the string goes to byte `i div 8`, at position `i mod 8` counted from the most significant bit" (R46). -/
theorem packedByte_getLsbD (bits : List Bool) (j k : Nat) (hk : k < 8) :
    (packedByte bits j).getLsbD k = bits.getD (8 * j + (7 - k)) false := by
  unfold packedByte
  have : List.range 8 = [0, 1, 2, 3, 4, 5, 6, 7] := by rfl
  rw [this]
  simp only [List.map_cons, List.map_nil]
  interval_cases k <;>
  · simp only [Nat.reduceSub]
    generalize bits.getD (8 * j + 0) false = b0
    generalize bits.getD (8 * j + 1) false = b1
    generalize bits.getD (8 * j + 2) false = b2
    generalize bits.getD (8 * j + 3) false = b3
    generalize bits.getD (8 * j + 4) false = b4
    generalize bits.getD (8 * j + 5) false = b5
    generalize bits.getD (8 * j + 6) false = b6
    generalize bits.getD (8 * j + 7) false = b7
    revert b0 b1 b2 b3 b4 b5 b6 b7
    decide

theorem packed_length (bits : List Bool) : (packed bits).length = (bits.length + 7) / 8 := by simp [packed]

/-- Two bit strings that agree on byte j's positions have the same byte j. -/
theorem packedByte_congr (xs ys : List Bool) (j : Nat)
    (h : ∀ p < 8, xs.getD (8 * j + p) false = ys.getD (8 * j + p) false) : packedByte xs j = packedByte ys j := by
  apply BitVec.eq_of_getLsbD_eq
  intro k hk
  rw [packedByte_getLsbD _ _ _ hk, packedByte_getLsbD _ _ _ hk]
  exact h _ (by omega)

theorem packedByte_beyond (bits : List Bool) (j : Nat) (h : bits.length ≤ 8 * j) : packedByte bits j = 0#8 := by
  apply BitVec.eq_of_getLsbD_eq
  intro k hk
  rw [packedByte_getLsbD _ _ _ hk, List.getD_eq_default _ _ (by omega)]
  simp

/-- Putting one more bit sets it in the byte it falls in. -/
theorem packedByte_snoc (bits : List Bool) (b : Bool) :
    packedByte (bits ++ [b]) (bits.length / 8) =
      if b then setBit (packedByte bits (bits.length / 8)) (bits.length % 8) else packedByte bits (bits.length / 8) := by
  apply BitVec.eq_of_getLsbD_eq
  intro k hk
  have hlast : ∀ i, (bits ++ [b]).getD i false = if i = bits.length then b else bits.getD i false := by
    intro i
    rcases Nat.lt_trichotomy i bits.length with h | h | h
    · rw [if_neg (by omega), List.getD_append _ _ _ _ h]
    · subst h; simp
    · rw [if_neg (by omega), List.getD_eq_default _ _ (by simp; omega), List.getD_eq_default _ _ (by omega)]
  rw [packedByte_getLsbD _ _ _ hk, hlast]
  cases b with
  | false =>
    simp only [Bool.false_eq_true, if_false]
    rw [packedByte_getLsbD _ _ _ hk]
    split
    · next h => rw [h, List.getD_eq_default _ _ le_rfl]
    · rfl
  | true =>
    simp only [if_true]
    rw [getLsbD_setBit _ _ _ (by omega), packedByte_getLsbD _ _ _ hk]
    by_cases h : 8 * (bits.length / 8) + (7 - k) = bits.length
    · rw [if_pos h]
      have : k = 7 - bits.length % 8 := by omega
      simp [this]
    · rw [if_neg h]
      have : k ≠ 7 - bits.length % 8 := by omega
      simp [this]

/-- The packer after the bits `bits` were put, from an OUT that was `out` (R46). -/
def PackerAfter (out : List Byte) (bits : List Bool) (p : Packer) : Prop :=
  p.n = bits.length % 8 ∧ p.nbytes = bits.length / 8 ∧
    p.out = out ++ (List.range (bits.length / 8)).map (packedByte bits) ∧ p.acc = packedByte bits (bits.length / 8)

theorem packerAfter_start (out : List Byte) : PackerAfter out [] (Packer.start out) := by
  refine ⟨rfl, rfl, by simp [Packer.start], ?_⟩
  exact (packedByte_beyond [] 0 (by simp)).symm

/-- One `Put` from where OUT has room. -/
theorem putBit_after (P : Params) (out : List Byte) (bits : List Bool) (b : Bool) (p : Packer)
    (hp : PackerAfter out bits p) (hroom : outTooLong P (out.length + (bits.length + 1) / 8) = false) :
    ∃ p', putBit P p b = .ok p' ∧ PackerAfter out (bits ++ [b]) p' := by
  obtain ⟨hn, hb, ho, ha⟩ := hp
  have hacc : (if b then setBit p.acc p.n else p.acc) = packedByte (bits ++ [b]) (bits.length / 8) := by
    rw [packedByte_snoc, hn, ha]
  have hpre : ∀ m, m ≤ bits.length / 8 →
      (List.range m).map (packedByte bits) = (List.range m).map (packedByte (bits ++ [b])) := by
    intro m hm
    refine List.map_congr_left fun j hj => packedByte_congr _ _ _ fun q hq => ?_
    have : j < m := List.mem_range.mp hj
    rw [List.getD_append _ _ _ _ (by omega)]
  unfold putBit
  simp only [hacc]
  by_cases h8 : p.n + 1 = 8
  · rw [if_pos h8]
    have hd : (bits.length + 1) / 8 = bits.length / 8 + 1 := by omega
    have hlen : p.out.length + 1 = out.length + (bits.length + 1) / 8 := by
      rw [ho, hd]; simp; omega
    simp only [appendOut, List.length_singleton, hlen, hroom, Bool.false_eq_true, if_false]
    refine ⟨_, rfl, ?_⟩
    refine ⟨?_, ?_, ?_, ?_⟩
    · simp only [List.length_append, List.length_singleton]; omega
    · simp only [List.length_append, List.length_singleton]; omega
    · simp only [List.length_append, List.length_singleton, hd, ho, List.append_assoc, List.range_succ, List.map_append,
        List.map_cons, List.map_nil, hpre _ le_rfl]
    · simp only [List.length_append, List.length_singleton, hd]
      exact (packedByte_beyond _ _ (by simp; omega)).symm
  · rw [if_neg h8]
    have hd : (bits.length + 1) / 8 = bits.length / 8 := by omega
    refine ⟨_, rfl, ?_, ?_, ?_, ?_⟩
    · simp only [List.length_append, List.length_singleton]; omega
    · simp only [List.length_append, List.length_singleton]; omega
    · simp only [List.length_append, List.length_singleton, hd, ho, hpre _ le_rfl]
    · simp only [List.length_append, List.length_singleton, hd]

/-- `Put` of a whole bit string, where OUT has room. -/
theorem putBits_after (P : Params) (out : List Byte) (more bits : List Bool) (p : Packer) (hp : PackerAfter out bits p)
    (hroom : outTooLong P (out.length + (bits.length + more.length) / 8) = false) :
    ∃ p', putBits P more p = .ok p' ∧ PackerAfter out (bits ++ more) p' := by
  induction more generalizing bits p with
  | nil => exact ⟨p, rfl, by simpa using hp⟩
  | cons b more ih =>
    simp only [List.length_cons] at hroom
    obtain ⟨p1, h1, hp1⟩ := putBit_after P out bits b p hp
      (outTooLong_mono P (by have := Nat.div_le_div_right (c := 8) (show bits.length + 1 ≤ bits.length + (more.length + 1) by omega); omega) hroom)
    obtain ⟨p2, h2, hp2⟩ := ih (bits ++ [b]) p1 hp1 (by
      rw [List.length_append, List.length_singleton, show bits.length + 1 + more.length = bits.length + (more.length + 1) by omega]
      exact hroom)
    refine ⟨p2, ?_, by simpa using hp2⟩
    unfold putBits at *
    simp only [feedList, h1, h2]

/-- `Flush()` appends the partial byte, if any: OUT then holds the packed string, and the answer gives the byte count and
the last-bits value `k mod 8`. -/
theorem flush_after (P : Params) (out : List Byte) (bits : List Bool) (p : Packer) (hp : PackerAfter out bits p)
    (hroom : outTooLong P (out.length + (bits.length + 7) / 8) = false) :
    ∃ p', flush P p = .ok p' ∧ p'.out = out ++ packed bits ∧ p'.nbytes = (bits.length + 7) / 8 ∧
      p'.n = bits.length % 8 := by
  obtain ⟨hn, hb, ho, ha⟩ := hp
  unfold flush
  by_cases h0 : 0 < p.n
  · rw [if_pos h0]
    have hd : (bits.length + 7) / 8 = bits.length / 8 + 1 := by omega
    have hlen : p.out.length + 1 = out.length + (bits.length + 7) / 8 := by
      rw [ho, hd]; simp; omega
    simp only [appendOut, List.length_singleton, hlen, hroom, Bool.false_eq_true, if_false]
    refine ⟨_, rfl, ?_, ?_, hn⟩
    · simp only [packed, hd, ho, ha, List.append_assoc, List.range_succ, List.map_append, List.map_cons, List.map_nil]
    · simp only [hb, hd]
  · rw [if_neg h0]
    have hd : (bits.length + 7) / 8 = bits.length / 8 := by omega
    refine ⟨p, rfl, ?_, ?_, hn⟩
    · rw [ho, packed, hd]
    · rw [hb, hd]

/-- `Pack(bits)` where OUT has room: "it appends `ceil(k / 8)` bytes and returns last-bits `k mod 8`" (R46). -/
theorem pack_ok (P : Params) (bits : List Bool) (out : List Byte)
    (hroom : outTooLong P (out.length + (bits.length + 7) / 8) = false) :
    ∃ p, pack P bits out = .ok p ∧ p.out = out ++ packed bits ∧ p.nbytes = (bits.length + 7) / 8 ∧
      p.n = bits.length % 8 := by
  obtain ⟨p1, h1, hp1⟩ := putBits_after P out bits [] (Packer.start out) (packerAfter_start out)
    (outTooLong_mono P (by simp; omega) hroom)
  obtain ⟨p2, h2, h3⟩ := flush_after P out bits p1 (by simpa using hp1) hroom
  exact ⟨p2, by unfold pack; simp only [h1, h2], h3⟩

/-- The first byte of a packed string, as bits read most significant first, is the string's first 8 bits. -/
theorem byteBits_packedByte_zero (bits : List Bool) (nb : Nat) (hnb : nb ≤ 8) (h : nb ≤ bits.length) :
    byteBits (packedByte bits 0) nb = bits.take nb := by
  rw [byteBits_eq]
  apply List.ext_getElem
  · simp [h]
  · intro i h1 h2
    have hi : i < nb := by simpa using h1
    simp only [List.getElem_map, List.getElem_range, List.getElem_take]
    rw [packedByte_getLsbD _ _ _ (by omega), List.getD_eq_getElem _ _ (by omega)]
    congr 1; omega

theorem packed_nil : packed [] = [] := by simp [packed]

/-- A packed string is its first byte and the packed rest. -/
theorem packed_cons (bits : List Bool) (h : bits ≠ []) :
    packed bits = packedByte bits 0 :: packed (bits.drop 8) := by
  have hl : 0 < bits.length := List.length_pos_iff.mpr h
  have hd : (bits.length + 7) / 8 = ((bits.drop 8).length + 7) / 8 + 1 := by
    rw [List.length_drop]; omega
  unfold packed
  rw [hd, List.range_succ_eq_map, List.map_cons, List.map_map]
  refine congrArg _ (List.map_congr_left fun j _ => ?_)
  apply BitVec.eq_of_getLsbD_eq
  intro k hk
  simp only [Function.comp_apply]
  rw [packedByte_getLsbD _ _ _ hk, packedByte_getLsbD _ _ _ hk]
  simp only [List.getD_eq_getElem?_getD, List.getElem?_drop]
  congr 2; omega

/-- Reading a packed section under the last-bits value `k mod 8` gives the string back (R46, R47, R20). -/
theorem sectionBits_packed (bits : List Bool) :
    sectionBits (BitVec.ofNat 8 (bits.length % 8)) (packed bits) = bits := by
  induction hn : bits.length using Nat.strong_induction_on generalizing bits with
  | _ n ih =>
    subst hn
    by_cases h0 : bits = []
    · subst h0; simp [packed_nil, sectionBits]
    · have hl : 0 < bits.length := List.length_pos_iff.mpr h0
      rw [packed_cons bits h0]
      by_cases h8 : bits.length ≤ 8
      · have hd : bits.drop 8 = [] := List.drop_eq_nil_of_le h8
        rw [hd, packed_nil, sectionBits]
        have he : effBits (BitVec.ofNat 8 (bits.length % 8)) = bits.length := by
          unfold effBits
          rw [BitVec.toNat_ofNat, Nat.mod_eq_of_lt (by omega : bits.length % 8 < 2 ^ 8)]
          split <;> omega
        rw [he, byteBits_packedByte_zero bits _ h8 le_rfl, List.take_length]
      · have hne : bits.drop 8 ≠ [] := by
          intro h; rw [List.drop_eq_nil_iff] at h; omega
        have h1 := ih (bits.drop 8).length (by rw [List.length_drop]; omega) (bits.drop 8) rfl
        have hm : (bits.drop 8).length % 8 = bits.length % 8 := by rw [List.length_drop]; omega
        rw [hm] at h1
        obtain ⟨c, cs, hc⟩ : ∃ c cs, packed (bits.drop 8) = c :: cs := ⟨_, _, packed_cons _ hne⟩
        rw [hc] at h1 ⊢
        rw [sectionBits, h1, byteBits_packedByte_zero bits 8 le_rfl (by omega), List.take_append_drop]

end Sys2Proof.Machine
end

