-- ==== Sys2Proof/Laws/PerInstr.lean ====
section
/-! SUPPORT. Per command: its word lies in its own row of 30_encoding.md R62, that is `word & mask = match`, and its OPC is
the row's. -/

namespace Sys2Proof.Laws.TableRow

/-- The command's word is selected by the command's own row of R62. -/
def Statement (i : Instr) : Prop := encode i &&& rowMask i = rowMatch i

theorem getbit (byte : BitVec 8) (pos : BitVec 4) : Statement (.getbit byte pos) := by
  apply BitVec.eq_of_getLsbD_eq
  intro k hk
  simp only [encode, wordOf, rowMask, rowMatch, BitVec.getLsbD_and, BitVec.getLsbD_append]
  interval_cases k <;> simp

theorem setbit (byte : BitVec 8) (pos : BitVec 4) : Statement (.setbit byte pos) := by
  apply BitVec.eq_of_getLsbD_eq
  intro k hk
  simp only [encode, wordOf, rowMask, rowMatch, BitVec.getLsbD_and, BitVec.getLsbD_append]
  interval_cases k <;> simp

theorem rdfix (nw : BitVec 4) : Statement (.rdfix nw) := by
  apply BitVec.eq_of_getLsbD_eq
  intro k hk
  simp only [encode, wordOf, rowMask, rowMatch, BitVec.getLsbD_and, BitVec.getLsbD_append]
  interval_cases k <;> simp

theorem wrfix (nw : BitVec 4) : Statement (.wrfix nw) := by
  apply BitVec.eq_of_getLsbD_eq
  intro k hk
  simp only [encode, wordOf, rowMask, rowMatch, BitVec.getLsbD_and, BitVec.getLsbD_append]
  interval_cases k <;> simp

theorem analyze : Statement .analyze := by rfl

theorem build : Statement .build := by rfl

theorem tenc : Statement .tenc := by rfl

theorem tdec : Statement .tdec := by rfl

theorem eenc : Statement .eenc := by rfl

theorem edec : Statement .edec := by rfl

theorem penc : Statement .penc := by rfl

theorem pdec : Statement .pdec := by rfl

end Sys2Proof.Laws.TableRow
end

