-- ==== Sys2Proof/Tests/Slice0.lean ====
section
/-! SUPPORT. The model's own tests: the checks of WellFormed, the decoder on words written out from 30_encoding.md, and
one step of each command on small states. Every expected value is from spec/95_test_vectors.md (the row is named) or
computed by hand from the rule named. -/

namespace Sys2Proof.Tests

open Sys2Proof.Machine

/-- The parameters of 95_test_vectors.md section 1: LE, version 0x01, REF, limits large enough. -/
def params : Params where
  nativeOrder := .le
  formatVersion := 0x01#8
  maxDistinct := none
  maxDnodes := none
  maxInLen := BitVec.allOnes 64
  maxOutLen := none
  tieBreak := Config.refTieBreak
  olenBeyond := fun _ => 0#64

/-- The same chip with BE. -/
def paramsBE : Params := { params with nativeOrder := .be }

/-- Bytes from numbers. -/
def bytes (ns : List Nat) : List Byte := ns.map (BitVec.ofNat 8)

/-- Reset with IN loaded and ENTITY_SIZE written. -/
def loaded (bs : List Byte) (w : Nat) : State :=
  { State.reset with inStream := bs, entitySize := BitVec.ofNat 8 w }

/-- The entities A, B, C, D of the vectors. -/
def eA : Entity := bytes [0x41]
def eB : Entity := bytes [0x42]
def eC : Entity := bytes [0x43]
def eD : Entity := bytes [0x44]

/-- "AAABBBCCC". -/
def abc : List Byte := bytes [0x41, 0x41, 0x41, 0x42, 0x42, 0x42, 0x43, 0x43, 0x43]

/-- The tree U5 of section 3.4. -/
def treeU5 : ETree := .branch 9 (.leaf eC 3) (.branch 6 (.leaf eA 3) (.leaf eB 3))

/-- The decode-side tree of vector T1. -/
def dtreeT1 : DTree := .branch (.leaf eC) (.branch (.leaf eA) (.leaf eB))

/-- The base set-up of section 3.5: IN = [58], TBC 1, TLB 5, EC 3, ELIST = [C, A, B]. -/
def tdecBase : State :=
  { State.reset with
    inStream := bytes [0x58], treeByteCount := 1, treeLastBits := 5, entityCount := 3, elist := [eC, eA, eB] }

/-- The set-up of section 3.7 for PDEC. -/
def pdecBase (t : DTree) (bs : List Byte) (n lb : Nat) : State :=
  { State.reset with
    dtree := t, inStream := bs, dataByteCount := BitVec.ofNat 64 n, dataLastBits := BitVec.ofNat 8 lb }

/-- The state an outcome goes on with, for comparing one field of it. -/
def nextOf (o : Host.Outcome State Fault Refusal) : Option State :=
  match o with
  | .next s => some s
  | .fault _ => none
  | .refused _ => none

/-! WellFormed: one ill-formed term for each check. -/

/-- R63: NW outside {1, 2, 4, 8}. -/
theorem test_wellFormed_rejects_rdfix_3 : (Instr.rdfix 3#4).wellFormed = false := by decide

/-- R63: NW outside {1, 2, 4, 8}. -/
theorem test_wellFormed_rejects_wrfix_0 : (Instr.wrfix 0#4).wellFormed = false := by decide

theorem test_wellFormed_accepts :
    [Instr.rdfix 1#4, .rdfix 2#4, .wrfix 4#4, .wrfix 8#4, .getbit 0xFF#8 15#4].all Instr.wellFormed = true := by decide

/-! Decode: words written out bit by bit from the patterns of R60 and the opcodes of R62. -/

/-- FB: 00000000 bbbbbbbb 0000pppp oooooooo with byte 01011000, pos 0001, OPC 0x01. -/
theorem test_decode_getbit : decode 0b00000000010110000000000100000001#32 = .ok (.getbit 0x58#8 1#4) := by rfl

/-- FB with byte 01000000, pos 0011, OPC 0x02 (vector B6). -/
theorem test_decode_setbit : decode 0b00000000010000000000001100000010#32 = .ok (.setbit 0x40#8 3#4) := by rfl

/-- FN: 00000000 00000000 nnnn0000 oooooooo with n 0100, OPC 0x03. -/
theorem test_decode_rdfix : decode 0b00000000000000000100000000000011#32 = .ok (.rdfix 4#4) := by rfl

/-- FN with n 1000, OPC 0x04. -/
theorem test_decode_wrfix : decode 0b00000000000000001000000000000100#32 = .ok (.wrfix 8#4) := by rfl

/-- FZ, OPC 0x10. -/
theorem test_decode_analyze : decode 0b00000000000000000000000000010000#32 = .ok .analyze := by rfl

/-- FZ, OPC 0x11. -/
theorem test_decode_build : decode 0b00000000000000000000000000010001#32 = .ok .build := by rfl

/-- FZ, OPC 0x20. -/
theorem test_decode_tenc : decode 0b00000000000000000000000000100000#32 = .ok .tenc := by rfl

/-- FZ, OPC 0x21. -/
theorem test_decode_tdec : decode 0b00000000000000000000000000100001#32 = .ok .tdec := by rfl

/-- FZ, OPC 0x30. -/
theorem test_decode_eenc : decode 0b00000000000000000000000000110000#32 = .ok .eenc := by rfl

/-- FZ, OPC 0x31. -/
theorem test_decode_edec : decode 0b00000000000000000000000000110001#32 = .ok .edec := by rfl

/-- FZ, OPC 0x40. -/
theorem test_decode_penc : decode 0b00000000000000000000000001000000#32 = .ok .penc := by rfl

/-- FZ, OPC 0x41. -/
theorem test_decode_pdec : decode 0b00000000000000000000000001000001#32 = .ok .pdec := by rfl

/-- Vectors K1 to K3 (BAD_OPCODE). -/
theorem test_decode_bad_opcode :
    decode 0x00000000#32 = .error .badOpcode ∧ decode 0x00000005#32 = .error .badOpcode ∧
      decode 0x000000FF#32 = .error .badOpcode := by
  refine ⟨?_, ?_, ?_⟩ <;> rfl

/-- Vectors K4 to K10 (BAD_ENCODING). -/
theorem test_decode_bad_encoding :
    decode 0x01000011#32 = .error .badEncoding ∧ decode 0x00000111#32 = .error .badEncoding ∧
      decode 0x00001001#32 = .error .badEncoding ∧ decode 0x0058F101#32 = .error .badEncoding ∧
      decode 0x00003003#32 = .error .badEncoding ∧ decode 0x00000103#32 = .error .badEncoding ∧
      decode 0x00010003#32 = .error .badEncoding := by
  refine ⟨?_, ?_, ?_, ?_, ?_, ?_, ?_⟩ <;> rfl

/-- An opcode-table row's bits: TDEC's row (match 0x00000021) and RDFIX's row with NW = 4. -/
theorem test_decodeTableWord :
    decodeTableWord 32 0x21 = some .tdec ∧ decodeTableWord 32 0x4003 = some (.rdfix 4#4) ∧
      decodeTableWord 32 0 = none := by
  refine ⟨?_, ?_, ?_⟩ <;> rfl

/-! The registers, STATUS and the host. -/

/-- Vector S9: STATUS after reset. -/
theorem test_status_at_reset : csrRead params State.reset 0x1#4 = 0x20#64 := by decide

/-- Vector S1: a write of ICUR is clamped to ILEN. -/
theorem test_icur_clamped : (csrWrite 0xB#4 10#64 (loaded (bytes [1, 2, 3]) 0)).icur = 3#64 := by decide

/-- Vectors S2 and S3: writes are truncated to the register's width. -/
theorem test_writes_truncate :
    (csrWrite 0x5#4 0x1FF#64 State.reset).entitySize = 0xFF#8 ∧
      (csrWrite 0x6#4 0x10000000005#64 State.reset).entityCount = 5#32 := by decide

/-- Vector Z1 then Z2: the first fault is kept and the next command is rejected. -/
theorem test_sticky_fault :
    statusWord (runCommand (setbitBody 0#8 0#4) (runCommand (getbitBody 0xFF#8 8#4) State.reset)) = 0x00001265#32 := by
  decide

/-- Vector Z5's first line: a word that does not decode raises BAD_OPCODE. -/
theorem test_step_bad_opcode :
    (nextOf (step (placeWord 0#32 State.reset))).map statusWord = some 0x00001025#32 := by decide

/-- Vector B4 through a whole step: the host issues 0x00580101. -/
theorem test_step_getbit :
    (nextOf (step (State.reset.withFetchWord 32 0x00580101))).map (fun s => (s.result, s.host)) = some (1#64, []) := by
  decide

/-- Vector Z4: Reset() clears the fault. -/
theorem test_step_reset :
    (nextOf (step { State.reset with err := true, kind := 2#2, reason := 0x12#8, result := 9#64, host := [.reset] })).map
      (fun s => (statusWord s, s.result)) = some (0x20#32, 0#64) := by decide

/-! Bit primitives (section 3.3). -/

/-- Vectors B1, B2, B3, B5. -/
theorem test_getBit :
    getBit 0x80#8 0 = 1#8 ∧ getBit 0x80#8 7 = 0#8 ∧ getBit 0x01#8 7 = 1#8 ∧ getBit 0x58#8 0 = 0#8 := by decide

/-- Vector B10: RESULT unchanged, STATUS 0x00001225. -/
theorem test_getbit_range :
    (runCommand (getbitBody 0xFF#8 8#4) { State.reset with result := 7#64 }).result = 7#64 ∧
      statusWord (runCommand (getbitBody 0xFF#8 8#4) State.reset) = 0x00001225#32 := by decide

/-- Vectors B6 and B9. -/
theorem test_setbit :
    (runCommand (setbitBody 0x40#8 3#4) State.reset).result = 0x50#64 ∧
      (runCommand (setbitBody 0x50#8 1#4) State.reset).result = 0x50#64 := by decide

/-- Vectors B7 and B8. -/
theorem test_setBit_ends : setBit 0x00#8 7 = 0x01#8 ∧ setBit 0x00#8 0 = 0x80#8 := by decide

/-- Vector F1 in both orders. -/
theorem test_rdfix :
    (runCommand (rdfixBody params 4#4) (loaded (bytes [1, 2, 3, 4, 5, 6, 7, 8, 9]) 0)).result = 0x04030201#64 ∧
      (runCommand (rdfixBody paramsBE 4#4) (loaded (bytes [1, 2, 3, 4, 5, 6, 7, 8, 9]) 0)).result = 0x01020304#64 := by
  decide

/-- Vector F5's kind: one byte is left for RDFIX 2; ICUR goes to len(IN). -/
theorem test_rdfix_exhausted :
    (fun s : State => (statusWord s, s.icur))
      (runCommand (rdfixBody params 2#4) { loaded (bytes [1, 2, 3]) 0 with icur := 2#64 }) = (0x00000123#32, 3#64) := by
  decide

/-- The WRFIX table of section 3.3: WRFIX 4 of 0x1122334455667788 in both orders. -/
theorem test_wrfix :
    (runCommand (wrfixBody params 4#4) { State.reset with operand := 0x1122334455667788#64 }).outStream =
        bytes [0x88, 0x77, 0x66, 0x55] ∧
      (runCommand (wrfixBody paramsBE 4#4) { State.reset with operand := 0x1122334455667788#64 }).outStream =
        bytes [0x55, 0x66, 0x77, 0x88] := by decide

/-! Tree builder (section 3.4). -/

/-- Vector A1. -/
theorem test_analyze :
    (fun s : State => (s.freq, s.icur, statusWord s)) (runCommand (analyzeBody params) (loaded abc 1)) =
      ([(eA, 3#64), (eB, 3#64), (eC, 3#64)], 9#64, 0x20#32) := by decide

/-- Vectors A2 and A5: a trailing partial entity, and the third distinct entity with MAX_DISTINCT 2. -/
theorem test_analyze_faults :
    (fun s : State => (s.freq, s.icur, statusWord s)) (runCommand (analyzeBody params) (loaded (bytes [1, 2, 3]) 2)) =
        ([(bytes [1, 2], 1#64)], 3#64, 0x00000123#32) ∧
      (fun s : State => (s.freq, s.icur, statusWord s))
          (runCommand (analyzeBody { params with maxDistinct := some 2 }) (loaded abc 1)) =
        ([(eA, 3#64), (eB, 3#64)], 7#64, 0x00002007#32) := by decide

/-- Vector U5 under REF. -/
theorem test_build_u5 :
    (fun s : State => (s.tree, s.freq))
      (runCommand (buildBody params) { State.reset with freq := [(eA, 3), (eB, 3), (eC, 3)] }) = (treeU5, []) := by decide

/-- Vector U6: no tie. -/
theorem test_build_u6 :
    (runCommand (buildBody params) { State.reset with freq := [(eA, 1), (eB, 2), (eC, 4), (eD, 8)] }).tree =
      .branch 15 (.branch 7 (.branch 3 (.leaf eA 1) (.leaf eB 2)) (.leaf eC 4)) (.leaf eD 8) := by decide

/-- The codes of U5: C = 0, A = 10, B = 11. -/
theorem test_codeTable_u5 :
    [eC, eA, eB, eD].map (codeOf (codeTable treeU5)) = [some [false], some [true, false], some [true, true], none] := by
  decide

/-! Tree codec (section 3.5). -/

/-- Vector E4: shape 01011, byte 58, TBC 1, TLB 5. -/
theorem test_tenc :
    (fun s : State => (s.outStream, s.treeByteCount, s.treeLastBits))
      (runCommand (tencBody params) { State.reset with tree := treeU5 }) = (bytes [0x58], 1#32, 5#8) := by decide

/-- Vector E7's packing: the shape of U8 is 1B 36 with TLB 7. -/
theorem test_pack :
    (match pack params ([false, false, false, true, true, false, true, true, false, false, true, true, false, true, true]) []
      with
      | .ok p => some (p.out, p.nbytes, p.n)
      | .error _ => none) = some (bytes [0x1B, 0x36], 2, 7) := by decide

/-- Vector T1. -/
theorem test_tdec :
    (fun s : State => (s.dtree, s.icur, statusWord s)) (runCommand (tdecBody params) tdecBase) =
      (dtreeT1, 1#64, 0x00000030#32) := by decide

/-- Vectors T2, T8, T12, T16, T26, T10, T19: END_MISMATCH, LIST_EXHAUSTED, NO_OPEN_BRANCH, SLOT_FULL, NODE_OVERFLOW. -/
theorem test_tdec_faults :
    statusWord (runCommand (tdecBody params) { tdecBase with treeLastBits := 0 }) = 0x00000623#32 ∧
      statusWord (runCommand (tdecBody params) { tdecBase with elist := [eC, eA], entityCount := 2 }) = 0x00000323#32 ∧
      statusWord (runCommand (tdecBody params)
        { tdecBase with inStream := bytes [0x80], treeLastBits := 1, entityCount := 1, elist := [eA] }) = 0x00000223#32 ∧
      statusWord (runCommand (tdecBody params)
        { tdecBase with
          inStream := bytes [0x6C], treeLastBits := 6, entityCount := 4, elist := [eC, eA, eB, eD] }) = 0x00000423#32 ∧
      statusWord (runCommand (tdecBody { params with maxDnodes := some 4 }) tdecBase) = 0x00002127#32 ∧
      statusWord (runCommand (tdecBody params) { tdecBase with entityCount := 2 }) = 0x00000623#32 ∧
      statusWord (runCommand (tdecBody params)
        { tdecBase with inStream := bytes [0x30], treeLastBits := 4, entityCount := 2, elist := [eA, eB] }) =
        0x00000623#32 := by decide

/-! Entity codec (section 3.6). -/

/-- Vector G3. -/
theorem test_eenc :
    (fun s : State => (s.outStream, s.entityCount))
      (runCommand (eencBody params) { State.reset with tree := treeU5 }) = (bytes [0x43, 0x41, 0x42], 3#32) := by decide

/-- The row MAX_OUT_LEN 3 of section 3.8, with EENC on an OUT of one byte: two leaves fit, the third faults. -/
theorem test_eenc_overflow :
    (fun s : State => (s.outStream, s.entityCount, s.reason))
      (runCommand (eencBody { params with maxOutLen := some 3 })
        { State.reset with tree := treeU5, outStream := bytes [0] }) = (bytes [0, 0x43, 0x41], 2#32, 0x23#8) := by decide

/-- Vector H1. -/
theorem test_edec :
    (fun s : State => (s.elist, s.icur, statusWord s))
      (runCommand edecBody { loaded (bytes [0x43, 0x41, 0x42, 0x58]) 1 with entityCount := 3 }) =
      ([eC, eA, eB], 3#64, 0#32) := by decide

/-- Vectors H3 and H6. -/
theorem test_edec_faults :
    (fun s : State => (s.icur, statusWord s)) (runCommand edecBody { loaded (bytes [1, 2, 3]) 2 with entityCount := 2 }) =
        (3#64, 0x00000123#32) ∧
      statusWord (runCommand edecBody (loaded [] 0)) = 0x00000823#32 := by decide

/-! Payload codec (section 3.7). -/

/-- Vector V2's data section: AB F0, DLB 7, DBC 2. -/
theorem test_penc :
    (fun s : State => (s.outStream, s.dataByteCount, s.dataLastBits, s.icur))
      (runCommand (pencBody params) { loaded abc 1 with tree := treeU5 }) = (bytes [0xAB, 0xF0], 2#64, 7#8, 9#64) := by
  decide

/-- Vector Q2: "AAAAD" faults CODE_MISSING after one whole byte; both counts are 0, as after BAD_WIDTH (R111, Q6's STATUS). -/
theorem test_penc_faults :
    (fun s : State => (s.outStream, s.dataByteCount, s.dataLastBits, s.icur, statusWord s))
      (runCommand (pencBody params)
        { loaded (bytes [0x41, 0x41, 0x41, 0x41, 0x44]) 1 with
          tree := treeU5, dataByteCount := 9, dataLastBits := 9 }) =
      (bytes [0xAA], 0#64, 0#8, 5#64, 0x0000142D#32) ∧
    (fun s : State => (s.dataByteCount, s.dataLastBits, statusWord s))
      (runCommand (pencBody params) { loaded [] 5 with dataByteCount := 9, dataLastBits := 9 }) =
      (0#64, 0#8, 0x00001325#32) := by decide

/-- Vectors Y1 and Y2. -/
theorem test_pdec :
    (runCommand (pdecBody params) (pdecBase dtreeT1 (bytes [0xAB, 0xF0]) 2 7)).outStream = abc ∧
      (runCommand (pdecBody params) (pdecBase dtreeT1 (bytes [0xAB, 0xF0]) 2 0)).outStream = abc ++ eC := by decide

/-- Vectors Y4, Y9, Y13: EXHAUSTED with what was emitted kept, WALK_NOT_BRANCH, OUT_OVERFLOW. -/
theorem test_pdec_faults :
    (fun s : State => (s.outStream, s.icur, statusWord s))
        (runCommand (pdecBody params) (pdecBase dtreeT1 (bytes [0xAB]) 2 7)) =
        (bytes [0x41, 0x41, 0x41, 0x42], 1#64, 0x00000133#32) ∧
      statusWord (runCommand (pdecBody params) (pdecBase (.branch (.leaf eA) .absent) (bytes [0x80]) 1 2)) =
        0x00000533#32 ∧
      (fun s : State => (s.outStream, statusWord s))
        (runCommand (pdecBody { params with maxOutLen := some 5 }) (pdecBase dtreeT1 (bytes [0xAB, 0xF0]) 2 7)) =
        (bytes [0x41, 0x41, 0x41, 0x42, 0x42], 0x00002337#32) := by decide

/-! Witnesses: for each statement of Certificates/Slice0/Obligations.lean with hypotheses, and for each of its clauses, a
state and operands that meet them together. -/

/-- A chip without a limit is the only kind an opaque parameter leaves open for one distinct entity: R7's bound is 1. -/
theorem one_distinct_fits (n : Nat) (hn : n ≤ 1) : ∀ m, Config.params.maxDistinct = some m → n ≤ m :=
  fun m h => hn.trans (Config.params_legal.distinct_pos m h)

/-- A full binary tree of the given height with empty entities: a tree too big to write out. -/
def deepTree : Nat → ETree
  | 0 => .leaf [] 0
  | n + 1 => .branch 0 (deepTree n) (deepTree n)

theorem shape_deepTree (n : Nat) : (shape (deepTree n)).length + 1 = 2 ^ (n + 1) := by
  induction n with
  | zero => rfl
  | succ n ih => simp only [deepTree, shape, List.length_cons, List.length_append]; rw [pow_succ]; omega

theorem leaves_deepTree (n : Nat) : (leaves (deepTree n)).length = 2 ^ n ∧ ∀ v ∈ leaves (deepTree n), v = [] := by
  induction n with
  | zero => exact ⟨rfl, by simp [deepTree, leaves]⟩
  | succ n ih =>
    simp only [deepTree, leaves, List.length_append, List.mem_append]
    exact ⟨by rw [ih.1, pow_succ]; omega, fun v hv => hv.elim (ih.2 v) (ih.2 v)⟩

/-- A tree that hangs to the right: entity 0 has the code of `n` 1 bits. -/
def combTree : Nat → ETree
  | 0 => .leaf (bytes [0]) 1
  | n + 1 => .branch 1 (.leaf (bytes [n + 1]) 0) (combTree n)

theorem codeWalk_combTree (n : Nat) (path : List Bool) :
    ∃ init, codeWalk (combTree n) path = init ++ [(bytes [0], path ++ List.replicate n true)] := by
  induction n generalizing path with
  | zero => exact ⟨[], by simp [combTree, codeWalk]⟩
  | succ n ih =>
    obtain ⟨init, h⟩ := ih (path ++ [true])
    exact ⟨(bytes [n + 1], path ++ [false]) :: init, by simp [combTree, codeWalk, h, List.replicate_succ]⟩

theorem codeOf_combTree (n : Nat) : codeOf (codeTable (combTree n)) (bytes [0]) = some (List.replicate n true) := by
  obtain ⟨init, h⟩ := codeWalk_combTree n []
  simp [codeOf, codeTable, h]

/-- The records of a repeated byte at width 1. -/
theorem records_replicate (n : Nat) (b : Byte) : records 1 (List.replicate n b) = List.replicate n [b] := by
  rw [List.eq_replicate_iff]
  refine ⟨by simp [records], fun v hv => ?_⟩
  obtain ⟨k, hk, rfl⟩ := List.mem_map.mp hv
  have hk' : k < n := by simpa using hk
  rw [List.drop_replicate, List.take_replicate, Nat.min_eq_left (by omega)]
  rfl

/-- `k` times entity 0 of a tree where its code is `n` bits long is `k * n` bits. -/
theorem length_codeBits_comb (n k : Nat) : (codeBits (combTree n) (List.replicate k (bytes [0]))).length = k * n := by
  simp [codeBits, List.length_flatMap, codeOf_combTree]

theorem merged_treeU5 : MergedTree treeU5 := by
  refine ⟨⟨_, _, _, rfl⟩, ?_, by decide⟩
  simp only [treeU5, FullTree, treeFreq, and_true]
  decide

theorem built_treeU5 : BuiltTree treeU5 := Or.inr (Or.inr merged_treeU5)

/-- The one-entity tree of vector U2. -/
def treeU2 : ETree := .branch 1 (.leaf (bytes [7]) 1) .absent

theorem single_treeU2 : SingleTree treeU2 := ⟨_, _, rfl⟩

theorem witness_DecodeInvertsEncode : (Instr.rdfix 8#4).wellFormed = true := by decide

theorem witness_EncodeInvertsDecode : decode 0x00FF0F01#32 = .ok (.getbit 0xFF#8 15#4) := by rfl

/-- One word for each clause, the twelve commands among them. -/
theorem witness_DecodeChecksInOrder :
    ¬opcAssigned 0x00000000#32 ∧ (opcAssigned 0x01000011#32 ∧ encodingIllegal 0x01000011#32) ∧
      ([0x00FF0F01#32, 0x00400302#32, 0x00008003#32, 0x00001004#32, 0x10#32, 0x11#32, 0x20#32, 0x21#32, 0x30#32, 0x31#32,
        0x40#32, 0x41#32].map (fun c => c.toNat % 256) =
        [0x01, 0x02, 0x03, 0x04, 0x10, 0x11, 0x20, 0x21, 0x30, 0x31, 0x40, 0x41]) ∧
      ∀ c ∈ [0x00FF0F01#32, 0x00400302#32, 0x00008003#32, 0x00001004#32, 0x10#32, 0x11#32, 0x20#32, 0x21#32, 0x30#32,
        0x31#32, 0x40#32, 0x41#32], ¬encodingIllegal c := by
  refine ⟨by unfold opcAssigned; decide, ⟨by unfold opcAssigned; decide, by unfold encodingIllegal; decide⟩, by decide, ?_⟩
  simp [encodingIllegal]

theorem witness_MatchAndMaskSelectTheRow :
    (0x00008003#32 &&& rowMask (.rdfix 1#4) = rowMatch (.rdfix 1#4) ∧ nwLegal (fieldNw 0x00008003#32) = true) ∧
      (decode 0x00000021#32 = .ok .tdec ∧ 0x00000021#32 &&& rowMask .tdec = rowMatch .tdec) := by
  refine ⟨by decide, by rfl, by decide⟩

theorem witness_StepRunsTheIssuedCommand :
    State.reset.err = false ∧ decode 0x00000021#32 = .ok .tdec ∧
      BitVec.ofNat 32 (0xAB00000021#64).toNat = 0x00000021#32 := by
  refine ⟨rfl, by rfl, by decide⟩

theorem witness_IllegalWordRaisesContract :
    State.reset.err = false ∧ ¬opcAssigned 0x00000042#32 ∧ opcAssigned 0x00000141#32 ∧ encodingIllegal 0x00000141#32 := by
  unfold opcAssigned encodingIllegal
  decide

theorem witness_FaultIsSticky :
    ({ State.reset with err := true, host := [.clearOut] } : State).err = true ∧
      ∃ t, step { State.reset with err := true, host := [.clearOut] } = .next t := ⟨rfl, _, rfl⟩

theorem witness_WriteCsrRule :
    0xF#4 ∈ [0x1#4, 0xA#4, 0xC#4, 0xD#4, 0xE#4, 0xF#4] ∧
      [0x0#4, 0x2#4, 0x3#4, 0x4#4, 0x5#4, 0x6#4, 0x7#4, 0x8#4, 0x9#4, 0xB#4].all
        (fun i => !([0x1#4, 0xA#4, 0xC#4, 0xD#4, 0xE#4, 0xF#4].contains i)) = true := by decide

theorem witness_ReadCsrReturnsTheRegister :
    State.reset.inStream.length < 2 ^ 64 ∧ State.reset.outStream.length < 2 ^ 64 := by decide

theorem witness_HostStreamActions : ([] : List Byte).length ≤ Config.params.maxInLen.toNat := Nat.zero_le _

theorem witness_IdleEngineKeepsItsState : State.reset.host = [] := rfl

theorem witness_CommandsRaiseOnlyTheirReasons :
    (Instr.getbit 0xFF#8 8#4).wellFormed = true ∧ State.reset.err = false ∧
      ∃ t, exec (.getbit 0xFF#8 8#4) State.reset = .next t ∧ t.err = true := ⟨rfl, rfl, _, rfl, by decide⟩

theorem witness_GetbitReadsThePosition : State.reset.err = false ∧ (7#4).toNat ≤ 7 ∧ 7 < (8#4).toNat := by decide

theorem witness_SetbitSetsThePosition : State.reset.err = false ∧ (0#4).toNat ≤ 7 ∧ 7 < (15#4).toNat := by decide

/-- 8 bytes at ICUR 3 of an IN of 11, and of an IN of 10. -/
theorem witness_RdfixReadsAnInteger :
    State.reset.err = false ∧ (8#4).toNat ∈ [1, 2, 4, 8] ∧ (3#64).toNat + (8#4).toNat ≤ (List.replicate 11 0#8).length ∧
      (List.replicate 10 0#8).length < (3#64).toNat + (8#4).toNat := by decide

theorem witness_WrfixAppendsTheOperand :
    State.reset.err = false ∧ (8#4).toNat ∈ [1, 2, 4, 8] ∧ State.reset.outStream.length + (8#4).toNat ≤ 2 ^ 64 - 1 ∧
      ({ params with maxOutLen := some 7 } : Params).maxOutLen = some 7 ∧
      7 < State.reset.outStream.length + (8#4).toNat := by decide

theorem witness_RdfixReadsBackWrfix :
    State.reset.err = false ∧ State.reset.outStream = [] ∧ (8#4).toNat ∈ [1, 2, 4, 8] ∧
      (BitVec.allOnes 64).toNat < 256 ^ (8#4).toNat := by decide

theorem witness_AnalyzeCountsEveryEntity :
    (loaded (eA ++ eA) 1).err = false ∧ (loaded (eA ++ eA) 1).entitySize.toNat ∈ [1, 2, 4, 8] ∧
      (loaded (eA ++ eA) 1).inStream.length % (loaded (eA ++ eA) 1).entitySize.toNat = 0 ∧
      ∀ m, Config.params.maxDistinct = some m →
        (records (loaded (eA ++ eA) 1).entitySize.toNat (loaded (eA ++ eA) 1).inStream).dedup.length ≤ m :=
  ⟨rfl, by decide, by decide, one_distinct_fits _ (by decide)⟩

theorem witness_AnalyzeFaults_width : (loaded [] 3).err = false ∧ (loaded [] 3).entitySize.toNat ∉ [1, 2, 4, 8] := by
  decide

theorem witness_AnalyzeFaults_trailing :
    (loaded (bytes [1, 2, 3]) 2).entitySize.toNat ∈ [1, 2, 4, 8] ∧
      (loaded (bytes [1, 2, 3]) 2).inStream.length % (loaded (bytes [1, 2, 3]) 2).entitySize.toNat ≠ 0 ∧
      ∀ m, Config.params.maxDistinct = some m →
        (records (loaded (bytes [1, 2, 3]) 2).entitySize.toNat (loaded (bytes [1, 2, 3]) 2).inStream).dedup.length ≤ m :=
  ⟨by decide, by decide, one_distinct_fits _ (by decide)⟩

theorem witness_AnalyzeFaults_distinct :
    ({ params with maxDistinct := some 2 } : Params).maxDistinct = some 2 ∧
      2 < (records (loaded abc 1).entitySize.toNat (loaded abc 1).inStream).dedup.length := by decide

/-- FREQ of A twice and B once. -/
def freqAB : List (Entity × Word64) := [(eA, 4#64), (eB, 1#64)]

theorem witness_BuildOfNoneAndOne :
    State.reset.err = false ∧ State.reset.freq = [] ∧
      ({ State.reset with freq := [(eA, 4#64)] } : State).freq = [(eA, 4#64)] := ⟨rfl, rfl, rfl⟩

theorem witness_BuildIsAGreedyMerge :
    ({ State.reset with freq := freqAB } : State).err = false ∧
      2 ≤ ({ State.reset with freq := freqAB } : State).freq.length := by decide

/-- With no tie every chip builds the same tree: B left, A right (vector U4). -/
theorem greedy_AB : GreedyMerge (leafPool freqAB) (.branch 5 (.leaf eB 1) (.leaf eA 4)) := by
  refine GreedyMerge.merge _ [.leaf eA 4] [] (.leaf eB 1) (.leaf eA 4) _ ?_ ?_ ?_ ?_ (.last _)
  · exact List.Perm.swap _ _ _
  · decide
  · exact List.Perm.refl _
  · decide

theorem witness_EveryGreedyTreeIsReached :
    ({ State.reset with freq := freqAB } : State).err = false ∧
      2 ≤ ({ State.reset with freq := freqAB } : State).freq.length ∧
      GreedyMerge (leafPool ({ State.reset with freq := freqAB } : State).freq) (.branch 5 (.leaf eB 1) (.leaf eA 4)) :=
  ⟨rfl, by decide, greedy_AB⟩

theorem witness_BuiltTreeProperties :
    ({ State.reset with freq := freqAB } : State).err = false ∧ ({ State.reset with freq := freqAB } : State).freq ≠ [] ∧
      (∃ t, exec .build { State.reset with freq := freqAB } = .next t) ∧
      2 ≤ ({ State.reset with freq := freqAB } : State).freq.length ∧
      ({ State.reset with freq := [(eA, 4#64)] } : State).freq.length = 1 := ⟨rfl, by decide, ⟨_, rfl⟩, by decide, rfl⟩

/-- The leaf B (count 1) and the leaf A (count 4) of the tree every chip builds. -/
theorem witness_SiblingProperty :
    ({ State.reset with freq := freqAB } : State).err = false ∧
      CountsFit { State.reset with freq := freqAB } ∧
      ∃ t, exec .build { State.reset with freq := freqAB } = .next t ∧
        (eA, 4#64, 1) ∈ leavesAt t.tree 0 ∧ (eB, 1#64, 1) ∈ leavesAt t.tree 0 ∧ (1#64).toNat < (4#64).toNat := by
  have h : ∀ P : Params, (buildTree P freqAB 0).1 = .branch 5 (.leaf eB 1) (.leaf eA 4) := by
    intro P
    have c0 : candidates (minFreq (.leaf eA 4#64) [.leaf eB 1#64]) [.leaf eA 4#64, .leaf eB 1#64] = [1] := by decide
    have c1 : candidates (minFreq (.leaf eA 4#64) []) [.leaf eA 4#64] = [0] := by decide
    simp only [buildTree, freqAB, leafPool, List.map_cons, List.map_nil, List.length_cons, List.length_nil, mergePool,
      removeMin, c0, drawCandidate, Nat.zero_add, Nat.mod_one, List.getD_cons_zero, List.getD_cons_succ,
      List.eraseIdx_cons_succ, List.eraseIdx_cons_zero, c1]
    rfl
  refine ⟨rfl, by unfold CountsFit; decide, _, rfl, ?_, ?_, by decide⟩ <;>
  · show _ ∈ leavesAt (buildTree Config.params freqAB 0).1 0
    rw [h]
    decide

theorem witness_CodeTableProperties :
    BuiltTree treeU5 ∧ eA ∈ leaves treeU5 ∧ eD ∉ leaves treeU5 ∧ codeOf (codeTable treeU5) eA = some [true, false] ∧
      (eA, 3#64, 2) ∈ leavesAt treeU5 0 ∧ [true, false] <+: [true, false] ∧
      BuiltTree treeU2 ∧ SingleTree treeU2 ∧ codeOf (codeTable treeU2) (bytes [7]) = some [false] :=
  ⟨built_treeU5, by decide, by decide, by decide, by decide, List.prefix_refl _, Or.inr (Or.inl single_treeU2),
    single_treeU2, by decide⟩

theorem witness_TencWritesTheShape :
    State.reset.err = false ∧ State.reset.tree = .absent ∧ treeU5 ≠ .absent ∧
      State.reset.outStream.length + ((shape treeU5).length + 7) / 8 ≤ 2 ^ 64 - 1 ∧
      ((shape treeU5).length + 7) / 8 ≤ 2 ^ 32 - 1 := by decide

/-- 2^36 - 1 nodes: the byte count passes 2^32 - 1. -/
theorem witness_TencWritesTheShape_overflow :
    deepTree 35 ≠ .absent ∧ State.reset.outStream.length + ((shape (deepTree 35)).length + 7) / 8 ≤ 2 ^ 64 - 1 ∧
      2 ^ 32 - 1 < ((shape (deepTree 35)).length + 7) / 8 := by
  have h := shape_deepTree 35
  refine ⟨by simp [deepTree], ?_, ?_⟩
  · have e : State.reset.outStream.length = 0 := rfl
    omega
  · omega

/-- No byte of the one-byte section fits. -/
theorem witness_TencWritesTheShape_outOverflow :
    treeU5 ≠ .absent ∧ ({ params with maxOutLen := some 0 } : Params).maxOutLen = some 0 ∧
      0 < State.reset.outStream.length + ((shape treeU5).length + 7) / 8 := by decide

theorem witness_TdecOfAZeroByteSection :
    State.reset.err = false ∧ State.reset.treeByteCount = 0#32 ∧
      (State.reset.entityCount = 0#32 ∧ State.reset.elist = []) ∧
      ¬(({ State.reset with elist := [eA] } : State).entityCount = 0#32 ∧
        ({ State.reset with elist := [eA] } : State).elist = []) := by decide

theorem witness_TdecFaultsAtTheFirstBit :
    (∃ b rest, ({ tdecBase with inStream := bytes [0x80] } : State).inStream.drop tdecBase.icur.toNat = b :: rest ∧
      b.getLsbD 7 = true) ∧ tdecBase.err = false ∧ tdecBase.treeByteCount ≠ 0#32 ∧
      ({ tdecBase with inStream := [] } : State).inStream.length ≤ tdecBase.icur.toNat :=
  ⟨⟨0x80#8, [], by decide, by decide⟩, by decide, by decide, by decide⟩

/-- The trees U5 and U2, OUT empty, no limit; the same for the truncation and miscount statement. -/
theorem witness_TdecRebuildsTheTencTree :
    ({ State.reset with tree := treeU5 } : State).err = false ∧ ({ State.reset with tree := treeU5 } : State).outStream = []
      ∧ BuiltTree treeU5 ∧ treeU5 ≠ .absent ∧ (leaves treeU5).length < 2 ^ 32 ∧
      outTooLong params (nodeCount treeU5) = false ∧ nodesOver params (nodeCount treeU5) = false ∧
      BuiltTree treeU2 ∧ treeU2 ≠ .absent ∧ (leaves treeU2).length < 2 ^ 32 ∧
      outTooLong params (nodeCount treeU2) = false ∧ nodesOver params (nodeCount treeU2) = false :=
  ⟨rfl, rfl, built_treeU5, by decide, by decide, by decide, by decide, Or.inr (Or.inl single_treeU2), by decide, by decide,
    by decide, by decide⟩

/-- The clause on the modelled chip: its premises are met by the two nodes of U2 where MAX_DNODES admits two, as on the
chip `params` it does. -/
theorem witness_TdecRebuildsTheTencTree_exec (h : nodesOver Config.params 2 = false) :
    ({ State.reset with tree := treeU2 } : State).err = false ∧ ({ State.reset with tree := treeU2 } : State).outStream = []
      ∧ BuiltTree treeU2 ∧ treeU2 ≠ .absent ∧ (leaves treeU2).length < 2 ^ 32 ∧
      outTooLong Config.params (nodeCount treeU2) = false ∧ nodesOver Config.params (nodeCount treeU2) = false ∧
      nodesOver params.legalize 2 = false :=
  ⟨rfl, rfl, Or.inr (Or.inl single_treeU2), by decide, by decide, outTooLong_params _ (by decide), h, by decide⟩

/-- Vector T5's case (a 0 bit after the full root), vector T4's (the section ends inside the tree), vector T19's (a root with
one child, a Branch), and vector T10's ENTITY_COUNT. -/
theorem witness_TdecDetectsTruncationAndMiscount_endMismatch :
    MergedTree treeU5 ∧ treeU5 ≠ .absent ∧ nodesOver params (nodeCount treeU5 + (0 + 1)) = false ∧
      (2#32).toNat ≠ (leaves treeU5).length ∧
      (fun s : State => s.err = false ∧ s.elist = leaves treeU5 ++ [] ∧
        s.inStream.drop s.icur.toNat = packed (shape treeU5 ++ List.replicate (0 + 1) false) ++ [] ∧
        s.treeByteCount.toNat = ((shape treeU5).length + (0 + 1) + 7) / 8 ∧
        s.treeLastBits = BitVec.ofNat 8 (((shape treeU5).length + (0 + 1)) % 8)) { tdecBase with treeLastBits := 6 } ∧
      ([false, true, false, true] <+: shape treeU5 ∧ [false, true, false, true] ≠ shape treeU5 ∧
        [false, true, false, true].count true ≤ tdecBase.elist.length ∧ nodesOver params 4 = false ∧
        (fun s : State => s.inStream.drop s.icur.toNat = packed [false, true, false, true] ++ [] ∧
          s.treeByteCount.toNat = ([false, true, false, true].length + 7) / 8 ∧
          s.treeLastBits = BitVec.ofNat 8 ([false, true, false, true].length % 8))
          { tdecBase with inStream := bytes [0x50], treeLastBits := 4 }) ∧
      [false, false, true, true] <+: shape (.branch 3 (.branch 2 (.leaf eA 1) (.leaf eB 1)) (.leaf eC 1)) :=
  ⟨merged_treeU5, by decide, by decide, by decide, by decide, by decide, by decide⟩

/-- A leaf marker after the full root (vector T17's case), and a Branch that completes after it (vector T16's). -/
theorem witness_TdecDetectsTruncationAndMiscount_slotFull :
    MergedTree treeU5 ∧ FullTree (.leaf eD 1) ∧ FullTree (.branch 2 (.leaf eD 1) (.leaf eA 1)) ∧
      nodesOver params (nodeCount treeU5 + 3) = false ∧
      (fun s : State => s.err = false ∧ s.elist = leaves treeU5 ++ leaves (.leaf eD 1) ++ [] ∧
        s.inStream.drop s.icur.toNat = packed (shape treeU5 ++ shape (.leaf eD 1) ++ []) ++ [] ∧
        s.treeByteCount.toNat = ((shape treeU5 ++ shape (.leaf eD 1) ++ []).length + 7) / 8 ∧
        s.treeLastBits = BitVec.ofNat 8 ((shape treeU5 ++ shape (.leaf eD 1) ++ []).length % 8))
        { tdecBase with inStream := bytes [0x5C], treeLastBits := 6, elist := [eC, eA, eB, eD] } ∧
      (fun s : State => s.err = false ∧ s.elist = leaves treeU5 ++ leaves (.branch 2 (.leaf eD 1) (.leaf eA 1)) ++ [] ∧
        s.inStream.drop s.icur.toNat =
          packed (shape treeU5 ++ shape (.branch 2 (.leaf eD 1) (.leaf eA 1)) ++ []) ++ [] ∧
        s.treeByteCount.toNat = ((shape treeU5 ++ shape (.branch 2 (.leaf eD 1) (.leaf eA 1)) ++ []).length + 7) / 8 ∧
        s.treeLastBits =
          BitVec.ofNat 8 ((shape treeU5 ++ shape (.branch 2 (.leaf eD 1) (.leaf eA 1)) ++ []).length % 8))
        { tdecBase with inStream := bytes [0x5B], treeLastBits := 0, elist := [eC, eA, eB, eD, eA] } :=
  ⟨merged_treeU5, trivial, ⟨by decide, trivial, trivial⟩, by decide, by decide, by decide⟩

theorem witness_TdecDetectsTruncationAndMiscount :
    ({ State.reset with tree := treeU5 } : State).err = false ∧ BuiltTree treeU5 ∧ treeU5 ≠ .absent ∧
      (leaves treeU5).length < 2 ^ 32 ∧ outTooLong params (nodeCount treeU5) = false ∧
      nodesOver params (nodeCount treeU5) = false := ⟨rfl, built_treeU5, by decide, by decide, by decide, by decide⟩

theorem witness_TdecStopsAtTheNodeLimit :
    ({ State.reset with tree := treeU5 } : State).err = false ∧ BuiltTree treeU5 ∧ treeU5 ≠ .absent ∧
      (leaves treeU5).length < 2 ^ 32 ∧ outTooLong { params with maxDnodes := some 4 } (nodeCount treeU5) = false ∧
      ({ params with maxDnodes := some 4 } : Params).maxDnodes = some 4 ∧ 4 < nodeCount treeU5 :=
  ⟨rfl, built_treeU5, by decide, by decide, by decide, rfl, by decide⟩

theorem witness_ShapeCodeCountsNodes : MergedTree treeU5 ∧ SingleTree treeU2 := ⟨merged_treeU5, single_treeU2⟩

theorem witness_EencWritesTheLeaves :
    State.reset.err = false ∧ (leaves treeU5).length ≤ 2 ^ 32 - 1 ∧
      State.reset.outStream.length + (leaves treeU5).flatten.length ≤ 2 ^ 64 - 1 := by decide

/-- 2^32 leaves: one more than ENTITY_COUNT can count. -/
theorem witness_EencWritesTheLeaves_overflow :
    2 ^ 32 - 1 < (leaves (deepTree 32)).length ∧
      State.reset.outStream.length + ((leaves (deepTree 32)).take (2 ^ 32 - 1)).flatten.length ≤ 2 ^ 64 - 1 := by
  have h := leaves_deepTree 32
  have hf : ((leaves (deepTree 32)).take (2 ^ 32 - 1)).flatten = [] :=
    List.flatten_eq_nil_iff.mpr fun v hv => h.2 v (List.mem_of_mem_take hv)
  refine ⟨?_, ?_⟩
  · have := h.1
    omega
  · simp only [hf, List.length_nil]
    exact Nat.zero_le _

/-- C and A fit in two bytes, B does not. -/
theorem witness_EencWritesTheLeaves_outOverflow :
    leaves treeU5 = [eC, eA] ++ eB :: [] ∧ [eC, eA].length < 2 ^ 32 - 1 ∧
      outTooLong { params with maxOutLen := some 2 } (State.reset.outStream.length + [eC, eA].flatten.length) = false ∧
      outTooLong { params with maxOutLen := some 2 }
        (State.reset.outStream.length + [eC, eA].flatten.length + eB.length) = true := by decide

theorem witness_EdecReadsTheRecords :
    (loaded [] 0).err = false ∧ (loaded [] 0).entitySize.toNat ∉ [1, 2, 4, 8] ∧
      (loaded [] 8).entitySize.toNat ∈ [1, 2, 4, 8] ∧ (loaded [] 8).entityCount.toNat = 0 ∧
      (3#64).toNat + (2#32).toNat * (loaded [] 8).entitySize.toNat ≤ (List.replicate 19 0#8).length ∧
      (2#32).toNat ≠ 0 ∧
      (List.replicate 18 0#8).length < (3#64).toNat + (2#32).toNat * (loaded [] 8).entitySize.toNat := by decide

theorem witness_EdecReadsBackEenc :
    ({ loaded [] 1 with tree := treeU5 } : State).err = false ∧ ({ loaded [] 1 with tree := treeU5 } : State).outStream = []
      ∧ (loaded [] 1).entitySize = BitVec.ofNat 8 1 ∧ 1 ∈ [1, 2, 4, 8] ∧ (∀ v ∈ leaves treeU5, v.length = 1) ∧
      (leaves treeU5).length ≤ 2 ^ 32 - 1 ∧ (∃ t, exec .eenc { loaded [] 1 with tree := treeU5 } = .next t) ∧
      leaves treeU5 ≠ [] := ⟨rfl, rfl, rfl, by decide, by decide, by decide, ⟨_, rfl⟩, by decide⟩

theorem witness_PencWritesTheCodes :
    (loaded abc 1).err = false ∧ (loaded abc 1).entitySize.toNat ∈ [1, 2, 4, 8] ∧
      (loaded abc 1).inStream.length % (loaded abc 1).entitySize.toNat = 0 ∧
      (∀ v ∈ records (loaded abc 1).entitySize.toNat (loaded abc 1).inStream, codeOf (codeTable treeU5) v ≠ none) ∧
      (loaded abc 1).outStream.length +
        ((codeBits treeU5 (records (loaded abc 1).entitySize.toNat (loaded abc 1).inStream)).length + 7) / 8
          ≤ 2 ^ 64 - 1 := by decide

/-- BAD_WIDTH; vector Q1's "ABAD"; vector Q5's kind, one byte too many at width 2. -/
theorem witness_PencFaults :
    (loaded [] 5).err = false ∧ (loaded [] 5).entitySize.toNat ∉ [1, 2, 4, 8] ∧
      (records 1 (eA ++ eB ++ eA ++ eD) = [eA, eB, eA] ++ eD :: [] ∧
        (∀ u ∈ [eA, eB, eA], codeOf (codeTable treeU5) u ≠ none) ∧ codeOf (codeTable treeU5) eD = none ∧
        State.reset.outStream.length + (codeBits treeU5 [eA, eB, eA]).length / 8 ≤ 2 ^ 64 - 1) ∧
      ((loaded (bytes [1]) 2).entitySize.toNat ∈ [1, 2, 4, 8] ∧
        (loaded (bytes [1]) 2).inStream.length % (loaded (bytes [1]) 2).entitySize.toNat ≠ 0 ∧
        (∀ u ∈ records (loaded (bytes [1]) 2).entitySize.toNat (loaded (bytes [1]) 2).inStream,
          codeOf (codeTable treeU5) u ≠ none) ∧
        State.reset.outStream.length +
          (codeBits treeU5 (records (loaded (bytes [1]) 2).entitySize.toNat (loaded (bytes [1]) 2).inStream)).length / 8
            ≤ 2 ^ 64 - 1) := by decide

/-- Of AB F0 (vector V2's data section) the byte AB does not fit in an OUT of none, nor the final byte F0 in one of one. -/
theorem witness_PencFaults_outOverflow :
    (loaded abc 1).entitySize.toNat ∈ [1, 2, 4, 8] ∧
      (records 1 abc = [eA, eA, eA] ++ eB :: [eB, eB, eC, eC, eC] ∧
        (∀ u ∈ [eA, eA, eA] ++ [eB], codeOf (codeTable treeU5) u ≠ none) ∧
        State.reset.outStream.length + (codeBits treeU5 [eA, eA, eA]).length / 8 ≤ 0 ∧
        0 < State.reset.outStream.length + (codeBits treeU5 ([eA, eA, eA] ++ [eB])).length / 8) ∧
      ((loaded abc 1).inStream.length % (loaded abc 1).entitySize.toNat = 0 ∧
        (∀ u ∈ records 1 abc, codeOf (codeTable treeU5) u ≠ none) ∧
        State.reset.outStream.length + (codeBits treeU5 (records 1 abc)).length / 8 ≤ 1 ∧
        1 < State.reset.outStream.length + ((codeBits treeU5 (records 1 abc)).length + 7) / 8) := by decide

/-- 2^60 times an entity whose code is 128 bits long: 2^64 bytes, in an OUT without a limit. -/
theorem witness_PencFaults_countOverflow :
    (loaded (List.replicate (2 ^ 60) 0#8) 1).entitySize.toNat = 1 ∧
      (loaded (List.replicate (2 ^ 60) 0#8) 1).inStream.length % 1 = 0 ∧
      (∀ u ∈ records 1 (loaded (List.replicate (2 ^ 60) 0#8) 1).inStream, codeOf (codeTable (combTree 128)) u ≠ none) ∧
      (∀ n, outTooLong params n = false) ∧
      2 ^ 64 - 1 <
        ((codeBits (combTree 128) (records 1 (loaded (List.replicate (2 ^ 60) 0#8) 1).inStream)).length + 7) / 8 := by
  have hr : records 1 (loaded (List.replicate (2 ^ 60) 0#8) 1).inStream = List.replicate (2 ^ 60) (bytes [0]) :=
    records_replicate _ _
  refine ⟨rfl, Nat.mod_one _, ?_, fun _ => rfl, ?_⟩
  · intro u hu
    rw [hr] at hu
    rw [List.eq_of_mem_replicate hu, codeOf_combTree]
    exact Option.some_ne_none _
  · rw [hr, length_codeBits_comb]
    omega

/-- Vector Y4: IN = AB ends inside a section of two bytes, after AAAB. -/
theorem witness_PdecCornerCases_exhausted :
    BuiltTree treeU5 ∧ codeOf (codeTable treeU5) eC = some [false] ∧ [] <+: [false] ∧ ([] : List Bool) ≠ [false] ∧
      (fun s : State => s.err = false ∧ s.dtree = strip treeU5 ∧
        s.inStream.drop s.icur.toNat = packed (codeBits treeU5 [eA, eA, eA, eB] ++ []) ∧
        (codeBits treeU5 [eA, eA, eA, eB] ++ []).length % 8 = 0 ∧
        (codeBits treeU5 [eA, eA, eA, eB] ++ []).length / 8 < s.dataByteCount.toNat ∧
        s.outStream.length + [eA, eA, eA, eB].flatten.length ≤ 2 ^ 64 - 1)
        (pdecBase dtreeT1 (bytes [0xAB]) 2 7) :=
  ⟨built_treeU5, by decide, by decide, by decide, by decide⟩

theorem witness_PdecCornerCases :
    State.reset.err = false ∧ State.reset.dataByteCount = 0#64 ∧
      (pdecBase .absent (bytes [0]) 1 1).dataByteCount ≠ 0#64 ∧ (pdecBase .absent (bytes [0]) 1 1).dtree = .absent ∧
      (pdecBase .absent (bytes [0]) 1 1).icur.toNat < (pdecBase .absent (bytes [0]) 1 1).inStream.length ∧
      (pdecBase .absent [] 1 1).inStream.length ≤ (pdecBase .absent [] 1 1).icur.toNat := by decide

/-- "AAABBBCCC" under U5's codes, one byte after the section. -/
theorem witness_PdecDecodesTheCodes :
    BuiltTree treeU5 ∧
      ((pdecBase dtreeT1 (bytes [0xAB, 0xF0, 9]) 2 7).err = false ∧
        (pdecBase dtreeT1 (bytes [0xAB, 0xF0, 9]) 2 7).dtree = strip treeU5 ∧
        (∀ v ∈ records 1 abc, codeOf (codeTable treeU5) v ≠ none) ∧
        (pdecBase dtreeT1 (bytes [0xAB, 0xF0, 9]) 2 7).inStream.drop (pdecBase dtreeT1 (bytes [0xAB, 0xF0, 9]) 2 7).icur.toNat
          = packed (codeBits treeU5 (records 1 abc)) ++ bytes [9] ∧
        (pdecBase dtreeT1 (bytes [0xAB, 0xF0, 9]) 2 7).dataByteCount.toNat =
          ((codeBits treeU5 (records 1 abc)).length + 7) / 8 ∧
        (pdecBase dtreeT1 (bytes [0xAB, 0xF0, 9]) 2 7).dataLastBits =
          BitVec.ofNat 8 ((codeBits treeU5 (records 1 abc)).length % 8) ∧
        (pdecBase dtreeT1 (bytes [0xAB, 0xF0, 9]) 2 7).outStream.length + (records 1 abc).flatten.length ≤ 2 ^ 64 - 1) :=
  ⟨built_treeU5, by decide⟩

/-- Vector Y13: in an OUT of five, AAABB fits and the next B does not; the section is that of the witness above. -/
theorem witness_PdecDecodesTheCodes_outOverflow :
    records 1 abc = [eA, eA, eA, eB, eB] ++ eB :: [eC, eC, eC] ∧
      outTooLong { params with maxOutLen := some 5 }
        (State.reset.outStream.length + [eA, eA, eA, eB, eB].flatten.length) = false ∧
      outTooLong { params with maxOutLen := some 5 }
        (State.reset.outStream.length + [eA, eA, eA, eB, eB].flatten.length + eB.length) = true := by decide

/-- Vector Y5 (a section that ends mid-code). -/
theorem witness_PdecDropsAnUnfinishedTail_code :
    BuiltTree treeU5 ∧ codeOf (codeTable treeU5) eA = some [true, false] ∧ [true] <+: [true, false] ∧
      ([true] : List Bool) ≠ [true, false] ∧ (pdecBase dtreeT1 (bytes [0x80]) 1 1).err = false ∧
      (pdecBase dtreeT1 (bytes [0x80]) 1 1).dtree = strip treeU5 ∧
      (pdecBase dtreeT1 (bytes [0x80]) 1 1).inStream.drop (pdecBase dtreeT1 (bytes [0x80]) 1 1).icur.toNat =
        packed (codeBits treeU5 [] ++ [true]) ∧
      (pdecBase dtreeT1 (bytes [0x80]) 1 1).dataByteCount.toNat = ((codeBits treeU5 [] ++ [true]).length + 7) / 8 ∧
      (pdecBase dtreeT1 (bytes [0x80]) 1 1).dataLastBits =
        BitVec.ofNat 8 ((codeBits treeU5 [] ++ [true]).length % 8) :=
  ⟨built_treeU5, by decide, by decide, by decide, by decide, by decide, by decide, by decide, by decide⟩

/-- Vector Y8 (a move into the absent child of the one-entity tree). -/
theorem witness_PdecDropsAnUnfinishedTail_absent :
    BuiltTree treeU2 ∧ SingleTree treeU2 ∧ (pdecBase (strip treeU2) (bytes [0x80]) 1 1).err = false ∧
      (pdecBase (strip treeU2) (bytes [0x80]) 1 1).inStream.drop
        (pdecBase (strip treeU2) (bytes [0x80]) 1 1).icur.toNat = packed (codeBits treeU2 [] ++ [true]) ∧
      (pdecBase (strip treeU2) (bytes [0x80]) 1 1).dataByteCount.toNat = ((codeBits treeU2 [] ++ [true]).length + 7) / 8 ∧
      (pdecBase (strip treeU2) (bytes [0x80]) 1 1).dataLastBits =
        BitVec.ofNat 8 ((codeBits treeU2 [] ++ [true]).length % 8) :=
  ⟨Or.inr (Or.inl single_treeU2), single_treeU2, by decide, by decide, by decide, by decide⟩

/-- Vector Y9 (a bit after the move into the absent child). -/
theorem witness_PdecDropsAnUnfinishedTail_walk :
    SingleTree treeU2 ∧
      (fun s : State => s.err = false ∧ s.dtree = strip treeU2 ∧
        s.inStream.drop s.icur.toNat = packed (codeBits treeU2 [] ++ [true, false] ++ []) ++ [] ∧
        s.dataByteCount.toNat = ((codeBits treeU2 [] ++ [true, false] ++ []).length + 7) / 8 ∧
        s.dataLastBits = BitVec.ofNat 8 ((codeBits treeU2 [] ++ [true, false] ++ []).length % 8))
        (pdecBase (strip treeU2) (bytes [0x80]) 1 2) := ⟨single_treeU2, by decide⟩

/-- 58 and 5F agree on their first five bits. -/
theorem witness_PadBitsAreNeverRead :
    tdecBase.icur.toNat ≤ ([] : List Byte).length ∧
      (tdecBase.treeByteCount.toNat = ([] : List Byte).length + 1 - tdecBase.icur.toNat ∧
        ∀ p < effBits tdecBase.treeLastBits, (0x58#8).getLsbD (7 - p) = (0x5F#8).getLsbD (7 - p)) ∧
      ((pdecBase dtreeT1 [] 1 5).dataByteCount.toNat =
          ([] : List Byte).length + 1 - (pdecBase dtreeT1 [] 1 5).icur.toNat ∧
        ∀ p < effBits (pdecBase dtreeT1 [] 1 5).dataLastBits,
          (0x58#8).getLsbD (7 - p) = (0x5F#8).getLsbD (7 - p)) := by decide

theorem witness_DecodeInvertsEncodeOfAnyInput :
    params.maxDistinct = none ∧ params.maxDnodes = none ∧ params.maxOutLen = none ∧ 1 ∈ [1, 2, 4, 8] ∧ abc.length % 1 = 0 ∧
      abc.length < 2 ^ 32 := by decide

theorem witness_EmptyInputRoundTrip : 8 ∈ [1, 2, 4, 8] := by decide

/-- The body of "AAABBBCCC" without its last byte, under the whole body's counts (program P5). -/
theorem witness_DecodeNeedsEveryByte :
    params.maxDnodes = none ∧ params.maxOutLen = none ∧ tdecBase.err = false ∧
      tdecBase.icur.toNat ≤ (bytes [0x43, 0x41, 0x42, 0x58, 0xAB]).length ∧
      (bytes [0x43, 0x41, 0x42, 0x58, 0xAB]).length < 2 ^ 64 ∧
      (bytes [0x43, 0x41, 0x42, 0x58, 0xAB]).length - tdecBase.icur.toNat <
        (3#32).toNat * (1#8).toNat + (1#32).toNat + (2#64).toNat := by decide

/-- The reset state, with one action of the host to come, meets every invariant and has a next state. -/
theorem witness_invariants :
    Memory.wf Config.params { State.reset with host := [.clearOut] } = true ∧
      StatusOk { State.reset with host := [.clearOut] } ∧ EncodeOk { State.reset with host := [.clearOut] } ∧
      GreedyTree ({ State.reset with host := [.clearOut] } : State).tree ∧
      DTreeOk ({ State.reset with host := [.clearOut] } : State).dtree ∧
      CountsFit { State.reset with host := [.clearOut] } ∧
      ∃ t, step { State.reset with host := [.clearOut] } = .next t :=
  ⟨Memory.wf_reset_streams Config.params { State.reset with host := [.clearOut] }, Or.inl ⟨rfl, rfl, rfl, rfl⟩,
    ⟨List.nodup_nil, Or.inl rfl⟩, Or.inl rfl, Or.inl rfl, Nat.two_pow_pos 64, _, rfl⟩

theorem witness_CommandsWriteOnlyTheirRegisters : ∃ t, exec (.setbit 0x40#8 3#4) State.reset = .next t := ⟨_, rfl⟩

theorem witness_CommandsOnlyAppendToOut : ∃ t, exec .eenc { State.reset with tree := treeU5 } = .next t := ⟨_, rfl⟩

theorem witness_CursorMovesForward :
    Memory.wf Config.params State.reset = true ∧ (∃ t, exec .edec State.reset = .next t) ∧ Instr.edec ≠ .analyze ∧
      Instr.edec ≠ .penc := ⟨Memory.wf_reset_streams Config.params State.reset, ⟨_, rfl⟩, by decide, by decide⟩

end Sys2Proof.Tests
end

/-! What a step can do, and what becomes of FREQ's counts in it (00_scope.md R9). -/

namespace Sys2Proof.Machine

/-! One step, said once: what each action of the host can leave (10_state.md R25). -/

/-- What one action of the host, done from `s`, can leave (R25, R26, R30, R63). -/
inductive HostEffect (s : State) : State → Prop where
  /-- A word that decodes runs its command. -/
  | command {t : State} (i : Instr) (h : exec i s = .next t) : HostEffect s t
  /-- With ERR = 1 a word is rejected. -/
  | rejected : HostEffect s (rejectCommand s)
  /-- A word that does not decode raises its reason. -/
  | raised (r : Reason) : HostEffect s (raiseFault r s)
  /-- A register other than CMD is written. -/
  | written (i : BitVec 4) (v : Word64) : HostEffect s (csrWrite i v s)
  /-- The host is told what it read. -/
  | replied (r : HostReply) : HostEffect s (reply r s)
  /-- An IN within MAX_IN_LEN is loaded. -/
  | loaded (bs : List Byte) (h : bs.length ≤ Config.params.maxInLen.toNat) : HostEffect s (loadStream bs s)
  /-- OUT is cleared. -/
  | cleared : HostEffect s { s with outStream := [] }
  /-- The block is reset. -/
  | reset : HostEffect s (resetBlock s)

theorem issue_effect {c : Word32} {s t : State} (h : issue c s = .next t) : HostEffect s t := by
  unfold issue at h
  split at h
  · cases h; exact .rejected
  · split at h
    · cases h; exact .raised _
    · next i _ => exact .command i h

theorem loadIn_effect {bs : List Byte} {s t : State} (h : loadIn Config.params bs s = .next t) : HostEffect s t := by
  unfold loadIn at h
  split at h
  · next hlen => cases h; exact .loaded bs hlen
  · cases h

theorem hostAct_effect {a : HostAction} {s t : State} (h : hostAct a s = .next t) : HostEffect s t := by
  cases a with
  | writeCsr i v =>
    simp only [hostAct] at h
    split at h
    · exact issue_effect h
    · cases h; exact .written i v
  | readCsr i => cases h; exact .replied _
  | loadIn bs => exact loadIn_effect h
  | readOut => cases h; exact .replied _
  | clearOut => cases h; exact .cleared
  | issue c => exact issue_effect h
  | reset => cases h; exact .reset

/-- A step is idle or does one action, which is then no longer to come (R122, R131). -/
theorem step_effect {s t : State} (h : step s = .next t) :
    t = s ∨ ∃ rest, HostEffect { s with host := rest } t := by
  rw [step_eq_hostStep] at h
  unfold hostStep at h
  split at h
  · cases h; exact .inl rfl
  · next rest _ => exact .inr ⟨rest, hostAct_effect h⟩

/-! FREQ's counts (41_tree_builder.md R74). -/

/-- The sum of FREQ's counts, as a natural number: what R9 bounds. -/
def freqTotal (m : List (Entity × Word64)) : Nat := (m.map (fun e => e.2.toNat)).sum

@[simp] theorem freqTotal_nil : freqTotal [] = 0 := rfl

@[simp] theorem freqTotal_cons (e : Entity × Word64) (m : List (Entity × Word64)) :
    freqTotal (e :: m) = e.2.toNat + freqTotal m := by simp [freqTotal]

theorem countsFit_iff (s : State) : CountsFit s ↔ freqTotal s.freq < 2 ^ 64 := Iff.rfl

/-- Counting an entity adds at most 1 to the total. -/
theorem freqTotal_freqBump_le (m : List (Entity × Word64)) (v : Entity) :
    freqTotal (freqBump m v) ≤ freqTotal m + 1 := by
  induction m with
  | nil => simp [freqBump]
  | cons e m ih =>
    obtain ⟨u, c⟩ := e
    unfold freqBump
    split
    · have hc : (c + 1#64).toNat ≤ c.toNat + 1 := by
        rw [BitVec.toNat_add]; exact Nat.mod_le _ _
      simp only [freqTotal_cons]; omega
    · split
      · simp only [freqTotal_cons, BitVec.toNat_ofNat]; omega
      · simp only [freqTotal_cons]; omega

/-- One round of ANALYZE's loop adds at most 1 to the total, and nothing where it raises. -/
theorem countEntity_total (P : Params) (m : List (Entity × Word64)) (v : Entity) :
    AttemptHolds (fun m' => freqTotal m' ≤ freqTotal m + 1) (fun m' _ => freqTotal m' ≤ freqTotal m + 1)
      (countEntity P m v) := by
  unfold countEntity
  split
  · exact Nat.le_succ _
  · exact freqTotal_freqBump_le m v

/-- A measure that one record raises by at most 1 is raised by at most the number of bytes of IN: a record has at least
one byte. -/
theorem feedRecords_measure {σ : Type} {f : σ → Entity → Attempt σ} (μ : σ → Nat) (W len : Nat) (hW : 1 ≤ W)
    (step : ∀ a v, AttemptHolds (fun a' => μ a' ≤ μ a + 1) (fun a' _ => μ a' ≤ μ a + 1) (f a v))
    (fuel : Nat) (rest : List Byte) (cur : Nat) (a : σ) :
    FeedHolds (fun _ a' => μ a' ≤ μ a + rest.length) (fun _ a' _ => μ a' ≤ μ a + rest.length)
      (feedRecords f W len fuel rest cur a) := by
  induction fuel generalizing rest cur a with
  | zero => cases rest <;> simp [feedRecords, FeedHolds]
  | succ fuel ih =>
    cases rest with
    | nil => simp [feedRecords, FeedHolds]
    | cons b bs =>
      simp only [feedRecords]
      split
      · exact Nat.le_add_right _ _
      · next hlen =>
        have hround := step a ((b :: bs).take W)
        have hdrop : ((b :: bs).drop W).length + 1 ≤ (b :: bs).length := by rw [List.length_drop]; omega
        split
        · next hf =>
          rw [hf] at hround
          exact Nat.le_trans hround (by omega)
        · next a1 hf =>
          rw [hf] at hround
          have hround : μ a1 ≤ μ a + 1 := hround
          have hloop := ih ((b :: bs).drop W) (cur + W) a1
          cases hr : feedRecords f W len fuel ((b :: bs).drop W) (cur + W) a1 <;>
          · rw [hr] at hloop
            exact hloop.trans (by omega)

/-! What each command does to FREQ (R33). -/

/-- A command leaves FREQ as its pseudocode does: neither the rejection nor the raise touches it. -/
theorem runCommand_freq {body : State → CmdResult} {s : State} (hbody : (resultState (body s)).freq = s.freq) :
    (runCommand body s).freq = s.freq :=
  runCommand_keeps State.freq body s rfl (fun _ _ => rfl) hbody

/-- Only ANALYZE and BUILD write FREQ (R33). -/
theorem exec_freq {i : Instr} {s t : State} (h : exec i s = .next t) :
    t.freq = s.freq ∨ i = .analyze ∨ i = .build := by
  cases i with
  | analyze => exact .inr (.inl rfl)
  | build => exact .inr (.inr rfl)
  | getbit byte pos =>
    cases h; obtain ⟨_, hb⟩ := getbitBody_state byte pos s
    exact .inl (runCommand_freq (by rw [hb]; rfl))
  | setbit byte pos =>
    cases h; obtain ⟨_, hb⟩ := setbitBody_state byte pos s
    exact .inl (runCommand_freq (by rw [hb]; rfl))
  | rdfix nw =>
    cases h; obtain ⟨_, _, hb⟩ := rdfixBody_state Config.params nw s
    exact .inl (runCommand_freq (by rw [hb]))
  | wrfix nw =>
    cases h; obtain ⟨_, hb⟩ := wrfixBody_state Config.params nw s
    exact .inl (runCommand_freq (by rw [hb]))
  | tenc =>
    cases h; obtain ⟨_, _, _, hb⟩ := tencBody_state Config.params s
    exact .inl (runCommand_freq (by rw [hb]))
  | tdec =>
    cases h; obtain ⟨_, _, hb⟩ := tdecBody_state Config.params s
    exact .inl (runCommand_freq (by rw [hb]))
  | eenc =>
    cases h; obtain ⟨_, _, hb⟩ := eencBody_state Config.params s
    exact .inl (runCommand_freq (by rw [hb]))
  | edec =>
    cases h; obtain ⟨_, _, hb⟩ := edecBody_state s
    exact .inl (runCommand_freq (by rw [hb]))
  | penc =>
    cases h; obtain ⟨_, _, _, _, hb⟩ := pencBody_state Config.params s
    exact .inl (runCommand_freq (by rw [hb]))
  | pdec =>
    cases h; obtain ⟨_, _, hb⟩ := pdecBody_state Config.params s
    exact .inl (runCommand_freq (by rw [hb]))

/-- ANALYZE's pseudocode leaves FREQ, or counts at most one for each byte of IN (R74). -/
theorem analyzeBody_freq (P : Params) (s : State) :
    (resultState (analyzeBody P s)).freq = s.freq ∨
      freqTotal (resultState (analyzeBody P s)).freq ≤ s.inStream.length := by
  unfold analyzeBody
  split
  · exact .inl rfl
  · next W hwidth =>
    have hW : 1 ≤ W := by
      have hmem := (entityWidth_mem s W hwidth).2
      simp only [List.mem_cons, List.not_mem_nil, or_false] at hmem
      omega
    have hloop := feedRecords_measure freqTotal W s.inStream.length hW (countEntity_total P) s.inStream.length
      s.inStream 0 []
    rw [freqTotal_nil, Nat.zero_add] at hloop
    right
    split <;>
    · next hfeed =>
      rw [hfeed] at hloop
      exact hloop

/-- Run as a whole, ANALYZE leaves FREQ or counts at most one for each byte of IN. -/
theorem runCommand_analyze_freq (P : Params) (s : State) :
    (runCommand (analyzeBody P) s).freq = s.freq ∨
      freqTotal (runCommand (analyzeBody P) s).freq ≤ s.inStream.length := by
  unfold runCommand
  split
  · exact .inl rfl
  · have hbody := analyzeBody_freq P s
    cases hb : analyzeBody P s <;>
    · rw [hb] at hbody
      exact hbody

/-- Run as a whole, BUILD leaves FREQ or empties it (R75). -/
theorem runCommand_build_freq (P : Params) (s : State) :
    (runCommand (buildBody P) s).freq = s.freq ∨ (runCommand (buildBody P) s).freq = [] := by
  unfold runCommand
  split
  · exact .inl rfl
  · exact .inr rfl

@[simp] theorem csrWrite_freq (i : BitVec 4) (v : Word64) (s : State) : (csrWrite i v s).freq = s.freq := by
  unfold csrWrite
  split <;> rfl

/-! The invariant of R9. -/

theorem countsFit_of_freq_eq {s t : State} (hs : CountsFit s) (h : t.freq = s.freq) : CountsFit t := by
  rw [countsFit_iff, h]; exact hs

/-- A command keeps the counts fitting: ANALYZE counts at most the bytes of IN, which are below 2^64 (R7, R9). -/
theorem exec_countsFit {i : Instr} {s t : State} (hlen : s.inStream.length < 2 ^ 64) (hs : CountsFit s)
    (h : exec i s = .next t) : CountsFit t := by
  rcases exec_freq h with hfreq | rfl | rfl
  · exact countsFit_of_freq_eq hs hfreq
  · cases h
    rcases runCommand_analyze_freq Config.params s with hfreq | htotal
    · exact countsFit_of_freq_eq hs hfreq
    · exact htotal.trans_lt hlen
  · cases h
    rcases runCommand_build_freq Config.params s with hfreq | hempty
    · exact countsFit_of_freq_eq hs hfreq
    · rw [countsFit_iff, hempty]; exact Nat.two_pow_pos 64

/-- Every action of the host keeps the counts fitting: only a command and the reset touch FREQ. -/
theorem HostEffect.countsFit {s t : State} (hlen : s.inStream.length < 2 ^ 64) (hs : CountsFit s)
    (h : HostEffect s t) : CountsFit t := by
  cases h with
  | command i h => exact exec_countsFit hlen hs h
  | written i v => exact countsFit_of_freq_eq hs (csrWrite_freq i v s)
  | reset => exact Nat.two_pow_pos 64
  | rejected | raised | replied | loaded | cleared => exact hs

/-- Settles O54, by what a step can leave: IN is shorter than 2^64, and ANALYZE counts no more than its bytes. -/
theorem stepKeepsTheCountsFitting : Obligations.StepKeepsTheCountsFitting := by
  unfold Obligations.StepKeepsTheCountsFitting
  intro s t hwf hs h
  rcases step_effect h with rfl | ⟨rest, heffect⟩
  · exact hs
  · exact HostEffect.countsFit (s := { s with host := rest }) (Memory.wf_inLen Config.params s hwf) hs heffect

end Sys2Proof.Machine

/-! The frame of every command (10_state.md R29, R33), and what follows of STATUS (10_state.md R26, R31). -/

namespace Sys2Proof.Machine

/-! Every command is one pseudocode run as a whole. -/

/-- The pseudocode of a command, on a chip with the parameters P (30_encoding.md R62). -/
def commandBody (P : Params) : Instr → State → CmdResult
  | .getbit byte pos => getbitBody byte pos
  | .setbit byte pos => setbitBody byte pos
  | .rdfix nw => rdfixBody P nw
  | .wrfix nw => wrfixBody P nw
  | .analyze => analyzeBody P
  | .build => buildBody P
  | .tenc => tencBody P
  | .tdec => tdecBody P
  | .eenc => eencBody P
  | .edec => edecBody
  | .penc => pencBody P
  | .pdec => pdecBody P

theorem exec_eq_runCommand (i : Instr) (s : State) :
    exec i s = .next (runCommand (commandBody Config.params i) s) := by
  cases i <;> rfl

/-- What a command leaves is the state it was given with REJ set, or, ERR having been 0, what its pseudocode left, with a
raise recorded or not (R26, R111). -/
theorem runCommand_cases {motive : State → Prop} {body : State → CmdResult} {s : State}
    (rejected : s.err = true → motive (rejectCommand s))
    (done : s.err = false → motive (resultState (body s)))
    (raised : s.err = false → ∀ r, motive (raiseFault r (resultState (body s)))) : motive (runCommand body s) := by
  by_cases herr : s.err = true
  · rw [runCommand_rejected body s herr]; exact rejected herr
  · have herr : s.err = false := by simpa using herr
    rw [runCommand_runs body s herr]
    cases hb : body s with
    | done u => simpa [settle, resultState, hb] using done herr
    | raised u r => simpa [settle, resultState, hb] using raised herr r

/-- The registers and structures of R29 and R33, STATUS apart, that command `i` may have changed from `s` to `t`. -/
structure Frame (i : Instr) (s t : State) : Prop where
  inStream : t.inStream = s.inStream
  version : t.version = s.version
  entitySize : t.entitySize = s.entitySize
  operand : t.operand = s.operand
  host : t.host = s.host
  replies : t.replies = s.replies
  result : t.result = s.result ∨ (∃ b p, i = .getbit b p) ∨ (∃ b p, i = .setbit b p) ∨ ∃ n, i = .rdfix n
  icur : t.icur = s.icur ∨ (∃ n, i = .rdfix n) ∨ i = .analyze ∨ i = .edec ∨ i = .tdec ∨ i = .penc ∨ i = .pdec
  outStream : t.outStream = s.outStream ∨ (∃ n, i = .wrfix n) ∨ i = .eenc ∨ i = .tenc ∨ i = .penc ∨ i = .pdec
  freq : t.freq = s.freq ∨ i = .analyze ∨ i = .build
  tree : t.tree = s.tree ∨ i = .build
  draws : t.draws = s.draws ∨ i = .build
  elist : t.elist = s.elist ∨ i = .edec
  dtree : t.dtree = s.dtree ∨ i = .tdec
  entityCount : t.entityCount = s.entityCount ∨ i = .eenc
  treeCounts : t.treeByteCount = s.treeByteCount ∧ t.treeLastBits = s.treeLastBits ∨ i = .tenc
  dataCounts : t.dataByteCount = s.dataByteCount ∧ t.dataLastBits = s.dataLastBits ∨ i = .penc

/-- The fields STATUS stores are the same (R31). -/
structure SameStatus (s t : State) : Prop where
  err : t.err = s.err
  kind : t.kind = s.kind
  reason : t.reason = s.reason
  rej : t.rej = s.rej

/-- Each pseudocode writes only what the tables of R29 and R33 give it, and STATUS only by a raise. -/
theorem commandBody_frame (P : Params) (i : Instr) (s : State) :
    Frame i s (resultState (commandBody P i s)) ∧ SameStatus s (resultState (commandBody P i s)) := by
  cases i
  case' getbit byte pos => obtain ⟨_, hb⟩ := getbitBody_state byte pos s
  case' setbit byte pos => obtain ⟨_, hb⟩ := setbitBody_state byte pos s
  case' rdfix nw => obtain ⟨_, _, hb⟩ := rdfixBody_state P nw s
  case' wrfix nw => obtain ⟨_, hb⟩ := wrfixBody_state P nw s
  case' analyze => obtain ⟨_, _, hb⟩ := analyzeBody_state P s
  case' build => obtain ⟨_, _, hb⟩ := buildBody_state P s
  case' tenc => obtain ⟨_, _, _, hb⟩ := tencBody_state P s
  case' tdec => obtain ⟨_, _, hb⟩ := tdecBody_state P s
  case' eenc => obtain ⟨_, _, hb⟩ := eencBody_state P s
  case' edec => obtain ⟨_, _, hb⟩ := edecBody_state s
  case' penc => obtain ⟨_, _, _, _, hb⟩ := pencBody_state P s
  case' pdec => obtain ⟨_, _, hb⟩ := pdecBody_state P s
  all_goals
    rw [commandBody, hb]
    constructor <;> constructor <;> simp

/-! A change of STATUS alone is in every frame (R26, R111). -/

theorem Frame.of_raiseFault {i : Instr} {s t : State} (r : Reason) (h : Frame i s t) : Frame i s (raiseFault r t) := by
  cases h; constructor <;> assumption

theorem frame_rejectCommand (i : Instr) (s : State) : Frame i s (rejectCommand s) := by
  constructor <;> simp

theorem exec_frame {i : Instr} {s t : State} (h : exec i s = .next t) : Frame i s t := by
  rw [exec_eq_runCommand] at h
  cases h
  have hbody := (commandBody_frame Config.params i s).1
  exact runCommand_cases (fun _ => frame_rejectCommand i s) (fun _ => hbody) (fun _ r => hbody.of_raiseFault r)

/-- Settles O56: the frame of the command, field by field; a byte of IN reads as before because IN is as before. -/
theorem commandsWriteOnlyTheirRegisters : Obligations.CommandsWriteOnlyTheirRegisters := by
  unfold Obligations.CommandsWriteOnlyTheirRegisters
  intro i s t h
  have hf := exec_frame h
  exact ⟨fun a => by simp only [memRead, hf.inStream], hf.inStream, hf.version, hf.entitySize, hf.operand, hf.host,
    hf.replies, hf.result, hf.icur, hf.outStream, hf.freq, hf.tree, hf.draws, hf.elist, hf.dtree, hf.entityCount, hf.treeCounts,
    hf.dataCounts⟩

/-! STATUS. -/

theorem statusOk_of_sameStatus {s t : State} (hs : StatusOk s) (h : SameStatus s t) : StatusOk t := by
  obtain ⟨herr, hkind, hreason, hrej⟩ := h
  rw [StatusOk, herr, hkind, hreason, hrej]; exact hs

/-- Any raise leaves a pair of R107's table. -/
theorem statusOk_raiseFault (r : Reason) (s : State) : StatusOk (raiseFault r s) := .inr ⟨rfl, r, rfl, rfl⟩

/-- A rejection sets REJ, which is free while ERR = 1 (R26). -/
theorem statusOk_rejectCommand {s : State} (hs : StatusOk s) (herr : s.err = true) : StatusOk (rejectCommand s) := by
  rcases hs with ⟨h0, -⟩ | hpair
  · rw [herr] at h0; cases h0
  · exact .inr hpair

theorem exec_statusOk {i : Instr} {s t : State} (hs : StatusOk s) (h : exec i s = .next t) : StatusOk t := by
  rw [exec_eq_runCommand] at h
  cases h
  exact runCommand_cases (statusOk_rejectCommand hs)
    (fun _ => statusOk_of_sameStatus hs (commandBody_frame Config.params i s).2) (fun _ r => statusOk_raiseFault r _)

theorem csrWrite_sameStatus (i : BitVec 4) (v : Word64) (s : State) : SameStatus s (csrWrite i v s) := by
  unfold csrWrite
  split <;> exact ⟨rfl, rfl, rfl, rfl⟩

/-- A word issued while ERR = 1 is rejected, whatever it is (R26, R114). -/
theorem issue_rejected {s : State} (c : Word32) (herr : s.err = true) : issue c s = .next (rejectCommand s) := by
  simp [issue, herr]

/-- An issued word is rejected, or raises its CONTRACT fault, or runs its command (R26, R63). -/
theorem issue_cases {c : Word32} {s t : State} (h : issue c s = .next t) :
    (s.err = true ∧ t = rejectCommand s) ∨ (∃ r, t = raiseFault r s) ∨ ∃ i, exec i s = .next t := by
  by_cases herr : s.err = true
  · rw [issue_rejected c herr] at h
    cases h; exact .inl ⟨herr, rfl⟩
  · cases hd : decode c with
    | ok i => exact .inr (.inr ⟨i, (issue_eq_exec c i s hd).symm.trans h⟩)
    | error e =>
      simp only [issue, herr, hd] at h
      cases h; exact .inr (.inl ⟨_, rfl⟩)

theorem issue_statusOk {c : Word32} {s t : State} (hs : StatusOk s) (h : issue c s = .next t) : StatusOk t := by
  rcases issue_cases h with ⟨herr, rfl⟩ | ⟨r, rfl⟩ | ⟨i, h⟩
  · exact statusOk_rejectCommand hs herr
  · exact statusOk_raiseFault r s
  · exact exec_statusOk hs h

/-- An action of the host that issues no word and is no reset keeps STATUS as stored (R25, R30). -/
theorem hostAct_status {a : HostAction} {s t : State} (h : hostAct a s = .next t) :
    (∃ c, issue c s = .next t) ∨ SameStatus s t ∨ (a = .reset ∧ t = resetBlock s) := by
  cases a with
  | writeCsr i v =>
    simp only [hostAct] at h
    split at h
    · exact .inl ⟨_, h⟩
    · cases h; exact .inr (.inl (csrWrite_sameStatus i v s))
  | loadIn bs =>
    simp only [hostAct, loadIn] at h
    split at h
    · cases h; exact .inr (.inl ⟨rfl, rfl, rfl, rfl⟩)
    · cases h
  | issue c => exact .inl ⟨c, h⟩
  | reset => cases h; exact .inr (.inr ⟨rfl, rfl⟩)
  | readCsr | readOut | clearOut => cases h; exact .inr (.inl ⟨rfl, rfl, rfl, rfl⟩)

theorem hostAct_statusOk {a : HostAction} {s t : State} (hs : StatusOk s) (h : hostAct a s = .next t) : StatusOk t := by
  rcases hostAct_status h with ⟨c, h⟩ | hsame | ⟨-, rfl⟩
  · exact issue_statusOk hs h
  · exact statusOk_of_sameStatus hs hsame
  · exact .inl ⟨rfl, rfl, rfl, rfl⟩

/-- A step is idle or does the host's next action, named (R122, R131): `HostEffect` does not say which action it was, nor
that a rejection needs ERR = 1. -/
theorem step_cases {s t : State} (h : step s = .next t) :
    (s.host = [] ∧ t = s) ∨ ∃ a rest, s.host = a :: rest ∧ hostAct a { s with host := rest } = .next t := by
  rw [step_eq_hostStep, hostStep] at h
  split at h
  · next hidle => cases h; exact .inl ⟨hidle, rfl⟩
  · next a rest hhost => exact .inr ⟨a, rest, hhost, h⟩

/-- Settles O51: a raise writes a pair of R107's table, a rejection happens only while ERR = 1, a reset clears every field,
and nothing else touches STATUS. -/
theorem stepKeepsStatusConsistent : Obligations.StepKeepsStatusConsistent := by
  unfold Obligations.StepKeepsStatusConsistent
  intro s t hs h
  rcases step_cases h with ⟨-, rfl⟩ | ⟨a, rest, -, hact⟩
  · exact hs
  · exact hostAct_statusOk (s := { s with host := rest }) hs hact

/-- While ERR = 1 every command, run as a whole, only sets REJ (R26; log 10). -/
theorem exec_rejected {s : State} (i : Instr) (herr : s.err = true) : exec i s = .next (rejectCommand s) := by
  rw [exec_eq_runCommand, runCommand_rejected _ s herr]

/-- While ERR = 1 every action of the host but the reset keeps the record of the first fault (R113). -/
theorem hostAct_keeps_fault {a : HostAction} {s t : State} (herr : s.err = true) (ha : a ≠ .reset)
    (h : hostAct a s = .next t) : t.err = true ∧ t.kind = s.kind ∧ t.reason = s.reason := by
  rcases hostAct_status h with ⟨c, h⟩ | hsame | ⟨hreset, -⟩
  · rw [issue_rejected c herr] at h
    cases h; exact ⟨herr, rfl, rfl⟩
  · exact ⟨hsame.err.trans herr, hsame.kind, hsame.reason⟩
  · exact absurd hreset ha

/-- Settles O8: with ERR = 1 every word is rejected before it is decoded, and only a reset writes ERR, KIND or REASON. -/
theorem faultIsSticky : Obligations.FaultIsSticky := by
  unfold Obligations.FaultIsSticky
  intro s herr
  refine ⟨fun i => exec_rejected i herr, fun c rest => issue_rejected (s := { s with host := rest }) c herr,
    fun t h => ?_⟩
  rcases step_cases h with ⟨-, rfl⟩ | ⟨a, rest, hhost, hact⟩
  · exact .inr ⟨herr, rfl, rfl⟩
  · by_cases ha : a = .reset
    · exact .inl ⟨rest, ha ▸ hhost⟩
    · exact .inr (hostAct_keeps_fault (s := { s with host := rest }) herr ha hact)

end Sys2Proof.Machine

/-! The host's side: issuing a word, reading and writing registers, the streams (10_state.md R25 to R31, R39). -/

namespace Sys2Proof.Machine

/-- A 32-bit word is the number of an opcode-table row that is it (30_encoding.md R59; log 12). -/
theorem tableWord_toNat (c : Word32) : tableWord 32 c.toNat = some c := by
  have hmod : c.toNat % 2 ^ 32 = c.toNat := Nat.mod_eq_of_lt c.isLt
  rw [tableWord, hmod, if_pos c.isLt, BitVec.ofNat_toNat, BitVec.setWidth_eq]

theorem withFetchWord_toNat (s : State) (c : Word32) : s.withFetchWord 32 c.toNat = placeWord c s := by
  rw [State.withFetchWord, tableWord_toNat]

/-- A write to CMD issues the low 32 bits (R30). -/
theorem hostAct_writeCmd (v : Word64) (s : State) :
    hostAct (.writeCsr 0#4 v) s = issue (BitVec.ofNat 32 v.toNat) s := by
  rw [BitVec.ofNat_toNat]; rfl

/-- Settles O6: an issue of a word that decodes is its command, and the other two ways lead to an issue. -/
theorem stepRunsTheIssuedCommand : Obligations.StepRunsTheIssuedCommand := by
  unfold Obligations.StepRunsTheIssuedCommand
  intro s c i rest _ hd
  refine ⟨issue_eq_exec c i _ hd, fun v hv => ?_, ?_⟩
  · rw [step_action, hostAct_writeCmd, hv, issue_eq_exec c i _ hd]
  · rw [withFetchWord_toNat]
    exact issue_eq_exec c i s hd

/-- Settles O10: the reset value of each register index, read one by one. -/
theorem resetStateValues : Obligations.ResetStateValues := by
  unfold Obligations.ResetStateValues
  refine ⟨fun i => ?_, rfl, rfl, rfl, rfl, rfl, rfl⟩
  obtain ⟨n, hn⟩ := i
  interval_cases n <;> rfl

/-- A write to any register but CMD is `csrWrite` (R30). -/
theorem hostAct_writeCsr (i : BitVec 4) (v : Word64) (s : State) (hi : i ≠ 0#4) :
    hostAct (.writeCsr i v) s = .next (csrWrite i v s) := by
  simp [hostAct, hi]

/-- A write to a read-only or reserved index has no effect (R30). -/
theorem csrWrite_noEffect (i : BitVec 4) (v : Word64) (s : State)
    (hi : i ∈ [0x1#4, 0xA#4, 0xC#4, 0xD#4, 0xE#4, 0xF#4]) : csrWrite i v s = s := by
  simp only [List.mem_cons, List.not_mem_nil, or_false] at hi
  rcases hi with rfl | rfl | rfl | rfl | rfl | rfl <;> rfl

/-- Settles O11: each index is one arm of `csrWrite`, and CMD is an issue. -/
theorem writeCsrRule : Obligations.WriteCsrRule := by
  unfold Obligations.WriteCsrRule
  intro s i v rest
  refine ⟨?_, fun hi => ?_, ?_, ?_, ?_, ?_, ?_, ?_, ?_, ?_, ?_⟩
  · rintro rfl
    exact hostAct_writeCmd v _
  · rw [step_action, hostAct_writeCsr i v _ (by rintro rfl; revert hi; decide), csrWrite_noEffect i v _ hi]
  all_goals
    rintro rfl
    rw [step_action, hostAct_writeCsr _ _ _ (by decide)]
    rfl

/-- Settles O12: an index reads its register zero-extended, and a length that fits 64 bits is not truncated. -/
theorem readCsrReturnsTheRegister : Obligations.ReadCsrReturnsTheRegister := by
  unfold Obligations.ReadCsrReturnsTheRegister
  refine ⟨fun s i rest => rfl, fun P s =>
    ⟨rfl, ?_, ?_, ?_, ?_, ?_, ?_, rfl, rfl, rfl, rfl, fun hin => ?_, fun hout => ?_, rfl, rfl⟩⟩
  iterate 6 exact BitVec.toNat_setWidth_of_le (by decide)
  · exact Nat.mod_eq_of_lt hin
  · have hread : csrRead P s 0xD#4 = BitVec.ofNat 64 s.outStream.length := if_pos hout
    rw [hread]; exact Nat.mod_eq_of_lt hout

/-- Settles O14: each action is its arm of `hostAct`. -/
theorem hostStreamActions : Obligations.HostStreamActions := by
  unfold Obligations.HostStreamActions
  intro s bs rest
  exact ⟨fun hlen => if_pos hlen, rfl, rfl⟩

/-- The bits of STATUS below REASON (R31). -/
theorem statusWord_flags (s : State) :
    (statusWord s).getLsbD 0 = s.err ∧ (statusWord s).getLsbD 1 = s.kind.getLsbD 0 ∧
      (statusWord s).getLsbD 2 = s.kind.getLsbD 1 ∧ (statusWord s).getLsbD 3 = treeValid s ∧
      (statusWord s).getLsbD 4 = dtreeValid s ∧ (statusWord s).getLsbD 5 = inEof s ∧
      (statusWord s).getLsbD 6 = s.rej ∧ (statusWord s).getLsbD 7 = false := by
  simp only [statusWord, BitVec.getLsbD_append]
  simp

/-- REASON stands at bits 8 to 15, and the bits above are reserved (R31). -/
theorem statusWord_reason (s : State) (k : Nat) (hk : 8 ≤ k) :
    (statusWord s).getLsbD k = s.reason.getLsbD (k - 8) := by
  have hlow : ¬k < 1 ∧ ¬k - 1 < 2 ∧ ¬k - 3 < 1 ∧ ¬k - 4 < 1 ∧ ¬k - 5 < 1 ∧ ¬k - 6 < 1 ∧ ¬k - 7 < 1 := by omega
  obtain ⟨h0, h1, h3, h4, h5, h6, h7⟩ := hlow
  simp only [statusWord, BitVec.getLsbD_append, h0, h1, h3, h4, h5, h6, h7, Nat.sub_sub]
  simpa using s.reason.lt_of_getLsbD

/-- The host reads STATUS zero-extended to 64 bits (R29). -/
theorem csrRead_status_getLsbD (P : Params) (s : State) (k : Nat) (hk : k < 64) :
    (csrRead P s 0x1#4).getLsbD k = (statusWord s).getLsbD k := by
  have hread : csrRead P s 0x1#4 = (statusWord s).setWidth 64 := rfl
  simp [hread, hk]

theorem treeValid_eq (s : State) : treeValid s = decide (s.tree ≠ .absent) := by
  by_cases h : s.tree = .absent <;> simp [treeValid, h]

theorem dtreeValid_eq (s : State) : dtreeValid s = decide (s.dtree ≠ .absent) := by
  by_cases h : s.dtree = .absent <;> simp [dtreeValid, h]

theorem inEof_eq (s : State) : inEof s = decide (s.icur.toNat = s.inStream.length) := rfl

/-- Settles O13: the eight low bits one by one, REASON above them, and nothing above REASON. -/
theorem statusBits : Obligations.StatusBits := by
  unfold Obligations.StatusBits
  intro P s k hk
  rw [csrRead_status_getLsbD P s k hk]
  by_cases hflag : k < 8
  · obtain ⟨h0, h1, h2, h3, h4, h5, h6, h7⟩ := statusWord_flags s
    rw [treeValid_eq] at h3
    rw [dtreeValid_eq] at h4
    rw [inEof_eq] at h5
    interval_cases k <;> assumption
  · rw [statusWord_reason s k (Nat.not_lt.mp hflag)]
    rw [if_neg (by omega), if_neg (by omega), if_neg (by omega), if_neg (by omega), if_neg (by omega),
      if_neg (by omega), if_neg (by omega)]
    split
    · rfl
    · exact BitVec.getLsbD_of_ge _ _ (by omega)

/-- Settles O55: every invariant holds of empty streams and absent trees. -/
theorem resetMeetsTheInvariants : Obligations.ResetMeetsTheInvariants :=
  ⟨Memory.wf_reset_streams Config.params State.reset, .inl ⟨rfl, rfl, rfl, rfl⟩, ⟨List.nodup_nil, .inl rfl⟩,
    .inl rfl, .inl rfl, Nat.two_pow_pos 64⟩

end Sys2Proof.Machine

/-! TDEC keeps the invariant of DTREE (10_state.md R36, 42_tree_codec.md R89). -/

namespace Sys2Proof.Machine

/-- A DBranch each of whose slots is absent or holds a full tree: what R36 says of the root of DTREE, and what TDEC's stack
holds while the section is read. -/
def OpenBranch (t : DTree) : Prop :=
  ∃ l r, t = .branch l r ∧ (l = .absent ∨ FullDTree l) ∧ (r = .absent ∨ FullDTree r)

theorem dtreeOk_iff (t : DTree) : DTreeOk t ↔ t = .absent ∨ OpenBranch t := Iff.rfl

theorem fullDTree_leaf (v : Entity) : FullDTree (.leaf v) := trivial

theorem openBranch_new : OpenBranch (.branch .absent .absent) := ⟨_, _, rfl, .inl rfl, .inl rfl⟩

/-- A DBranch with neither slot absent is full throughout (R88). -/
theorem OpenBranch.full {t : DTree} (h : OpenBranch t) (hfull : isFull t = true) : FullDTree t := by
  obtain ⟨l, r, rfl, hl, hr⟩ := h
  simp only [isFull, Bool.and_eq_true, bne_iff_ne] at hfull
  exact ⟨hl.resolve_left hfull.1, hr.resolve_left hfull.2⟩

/-- Attaching a full tree keeps the slots of a DBranch (R88). -/
theorem OpenBranch.attach {b c : DTree} (h : OpenBranch b) (hc : FullDTree c) : OpenBranch (attach b c) := by
  obtain ⟨l, r, rfl, hl, hr⟩ := h
  cases l with
  | absent => exact ⟨_, _, rfl, .inr hc, hr⟩
  | leaf | branch => exact ⟨_, _, rfl, hl, .inr hc⟩

/-- Every node on TDEC's stack is a DBranch with full or absent slots. -/
def StackOk (st : List DTree) : Prop := ∀ t ∈ st, OpenBranch t

theorem stackOk_cons {t : DTree} {st : List DTree} : StackOk (t :: st) ↔ OpenBranch t ∧ StackOk st := by
  simp [StackOk]

/-- Closing the full nodes keeps the stack (R89). -/
theorem popFull_stackOk {top : DTree} {rest st : List DTree} (htop : OpenBranch top) (hrest : StackOk rest)
    (h : popFull top rest = some st) : StackOk st := by
  induction rest generalizing top with
  | nil =>
    cases h
    exact stackOk_cons.mpr ⟨htop, hrest⟩
  | cons par rest ih =>
    obtain ⟨hpar, hrest⟩ := stackOk_cons.mp hrest
    simp only [popFull] at h
    split at h
    · next hfull =>
      split at h
      · cases h
      · exact ih (hpar.attach (htop.full hfull)) hrest h
    · cases h
      exact stackOk_cons.mpr ⟨htop, stackOk_cons.mpr ⟨hpar, hrest⟩⟩

/-- One bit keeps TDEC's stack: a 0 opens a DBranch, a 1 attaches a leaf and closes the full nodes (R89). -/
theorem tdecBit_stackOk (P : Params) (elist : List Entity) (a : TdecWork) (bit : Bool) (ha : StackOk a.stack) :
    AttemptHolds (fun a' => StackOk a'.stack) (fun _ _ => True) (tdecBit P elist a bit) := by
  unfold tdecBit
  split
  · split
    · trivial
    · exact stackOk_cons.mpr ⟨openBranch_new, ha⟩
  · split
    · trivial
    · next top rest hstack =>
      rw [hstack] at ha
      obtain ⟨htop, hrest⟩ := stackOk_cons.mp ha
      split
      · trivial
      · split
        · trivial
        · split
          · trivial
          · split
            · trivial
            · next hpop => exact popFull_stackOk (htop.attach (fullDTree_leaf _)) hrest hpop

/-- The root the end check accepts is the one node on the stack. -/
theorem tdecRoot_openBranch {elist : List Entity} {ec : Nat} {a : TdecWork} {root : DTree} (ha : StackOk a.stack)
    (h : tdecRoot elist ec a = some root) : OpenBranch root := by
  unfold tdecRoot at h
  split at h
  · next hstack =>
    split at h
    · cases h
      rw [hstack] at ha
      exact (stackOk_cons.mp ha).1
    · cases h
  · cases h

/-- TDEC leaves no tree or a tree of R36, whatever DTREE was. -/
theorem tdecBody_dtreeOk (P : Params) (s : State) : DTreeOk (resultState (tdecBody P s)).dtree := by
  have hempty : StackOk [] := by simp [StackOk]
  have hloop := feedSection_holds (I := fun a : TdecWork => StackOk a.stack) (E := fun _ _ => True) s.treeLastBits
    s.inStream.length (tdecBit_stackOk P s.elist) (inRest s) s.treeByteCount.toNat (cursor s)
    { stack := [], idx := 0, nodes := 0 } hempty
  unfold tdecBody
  split
  · split <;> exact .inl rfl
  · split
    · exact .inl rfl
    · next hfeed =>
      rw [hfeed] at hloop
      obtain ⟨-, -, hstack⟩ := hloop
      split
      · exact .inl rfl
      · next hroot => exact (dtreeOk_iff _).mpr (.inr (tdecRoot_openBranch hstack hroot))

theorem exec_dtreeOk {i : Instr} {s t : State} (hs : DTreeOk s.dtree) (h : exec i s = .next t) : DTreeOk t.dtree := by
  rcases (exec_frame h).dtree with hsame | rfl
  · rw [hsame]; exact hs
  · rw [exec_eq_runCommand] at h
    cases h
    have hbody := tdecBody_dtreeOk Config.params s
    exact runCommand_cases (motive := fun t => DTreeOk t.dtree) (fun _ => hs) (fun _ => hbody) (fun _ _ => hbody)

@[simp] theorem csrWrite_dtree (i : BitVec 4) (v : Word64) (s : State) : (csrWrite i v s).dtree = s.dtree := by
  unfold csrWrite
  split <;> rfl

theorem HostEffect.dtreeOk {s t : State} (hs : DTreeOk s.dtree) (h : HostEffect s t) : DTreeOk t.dtree := by
  cases h with
  | command i h => exact exec_dtreeOk hs h
  | written i v => rw [csrWrite_dtree]; exact hs
  | reset => exact .inl rfl
  | rejected | raised | replied | loaded | cleared => exact hs

/-- Settles O53: only TDEC and the reset write DTREE, and the nodes TDEC has on its stack are DBranches whose slots are absent
or full. -/
theorem stepKeepsTheDtreeInvariant : Obligations.StepKeepsTheDtreeInvariant := by
  unfold Obligations.StepKeepsTheDtreeInvariant
  intro s t hs h
  rcases step_effect h with rfl | ⟨rest, heffect⟩
  · exact hs
  · exact HostEffect.dtreeOk (s := { s with host := rest }) hs heffect

end Sys2Proof.Machine

/-! ANALYZE keeps FREQ canonical (41_tree_builder.md R74); BUILD writes a tree the greedy merge returns (R78, R79), and such
a tree meets R35's invariant. -/

namespace Sys2Proof.Machine

/-! Loops that keep an invariant whether they end or raise, over bytes that lie within IN. -/

section Loops

variable {σ : Type} {I : σ → Prop}

/-- The record loop keeps what each record keeps, and leaves the cursor within IN (R42). -/
theorem feedRecords_keeps {f : σ → Entity → Attempt σ} {W : Nat} (hW : 1 ≤ W)
    (step : ∀ a v, I a → AttemptHolds I (fun a' _ => I a') (f a v)) (bs : List Byte) {a : σ} (ha : I a) :
    FeedHolds (fun c a' => c ≤ bs.length ∧ I a') (fun c a' _ => c ≤ bs.length ∧ I a')
      (feedRecords f W bs.length bs.length bs 0 a) := by
  have hloop := feedRecords_holds (I := I) W bs.length hW (fun a v _ => step a v) bs.length bs 0 a le_rfl ha
  cases hfeed : feedRecords f W bs.length bs.length bs 0 a <;> rw [hfeed] at hloop
  case done =>
    obtain ⟨hcur, -, ha'⟩ := hloop
    exact ⟨by omega, ha'⟩
  case raised =>
    rcases hloop with ⟨ha', -, hcur⟩ | ⟨ha', -, hcur, -⟩
    · exact ⟨by omega, ha'⟩
    · exact ⟨hcur.le, ha'⟩

/-- The section loop keeps what each bit keeps, and leaves the cursor within IN (R42, R47). -/
theorem feedSection_keeps {f : σ → Bool → Attempt σ} (lb : BitVec 8)
    (step : ∀ a b, I a → AttemptHolds I (fun a' _ => I a') (f a b)) {len : Nat} {rest : List Byte} (n : Nat) {cur : Nat}
    (hrest : cur + rest.length ≤ len) {a : σ} (ha : I a) :
    FeedHolds (fun c a' => c ≤ len ∧ I a') (fun c a' _ => c ≤ len ∧ I a') (feedSection f lb len rest n cur a) := by
  have hloop := feedSection_holds (I := I) lb len step rest n cur a ha
  cases hfeed : feedSection f lb len rest n cur a <;> rw [hfeed] at hloop
  case done =>
    obtain ⟨hcur, hn, ha'⟩ := hloop
    exact ⟨by omega, ha'⟩
  case raised =>
    rcases hloop with ⟨ha', -, hcur, -⟩ | ⟨ha', -, hcur, -⟩
    · exact ⟨by omega, ha'⟩
    · exact ⟨hcur.le, ha'⟩

end Loops

/-! FREQ's form. -/

theorem length_freqBump_le (m : List (Entity × Word64)) (v : Entity) : (freqBump m v).length ≤ m.length + 1 := by
  induction m with
  | nil => exact le_rfl
  | cons e m ih =>
    obtain ⟨u, c⟩ := e
    unfold freqBump
    split
    · exact Nat.le_succ _
    · split
      · exact le_rfl
      · exact Nat.succ_le_succ ih

theorem freqHas_iff (m : List (Entity × Word64)) (v : Entity) : freqHas m v = true ↔ v ∈ m.map Prod.fst := by
  simp [freqHas, List.any_eq_true]

/-- Counting an entity that is in a canonical FREQ adds no entry. -/
theorem length_freqBump_of_mem {m : List (Entity × Word64)} {v : Entity} (hm : freqSorted m = true)
    (hv : v ∈ m.map Prod.fst) : (freqBump m v).length = m.length := by
  induction m with
  | nil => simp at hv
  | cons e m ih =>
    obtain ⟨u, c⟩ := e
    obtain ⟨hfirst, hrest⟩ := (freqSorted_cons _ _).mp hm
    unfold freqBump
    split
    · rfl
    · next hne =>
      have hv : v ∈ m.map Prod.fst := (List.mem_cons.mp hv).resolve_left (Ne.symm hne)
      split
      · next hlt =>
        have hloop := entityLt_trans v u v hlt (hfirst v hv)
        rw [entityLt_irrefl] at hloop
        cases hloop
      · simp [ih hrest hv]

theorem freqFits_iff (P : Params) (m : List (Entity × Word64)) :
    freqFits P m = true ↔ ∀ k, P.maxDistinct = some k → m.length ≤ k := by
  unfold freqFits
  cases P.maxDistinct <;> simp

/-- FREQ is canonical and within MAX_DISTINCT (R7; log 9). -/
def FreqOk (P : Params) (m : List (Entity × Word64)) : Prop := freqSorted m = true ∧ freqFits P m = true

theorem freqOk_nil (P : Params) : FreqOk P [] := ⟨rfl, (freqFits_iff P []).mpr fun _ _ => Nat.zero_le _⟩

/-- One entity counted keeps FREQ's form: a new one is refused where FREQ is full (R74). -/
theorem countEntity_freqOk (P : Params) (m : List (Entity × Word64)) (v : Entity) (hm : FreqOk P m) :
    AttemptHolds (FreqOk P) (fun m' _ => FreqOk P m') (countEntity P m v) := by
  obtain ⟨hsorted, hfits⟩ := hm
  unfold countEntity
  split
  · exact ⟨hsorted, hfits⟩
  · next hroom =>
    refine ⟨freqSorted_freqBump m v hsorted, (freqFits_iff P _).mpr fun k hk => ?_⟩
    have hle := (freqFits_iff P m).mp hfits k hk
    by_cases hv : freqHas m v = true
    · rw [length_freqBump_of_mem hsorted ((freqHas_iff m v).mp hv)]
      exact hle
    · have hne : k ≠ m.length := by simpa [hv, hk] using hroom
      have hbump := length_freqBump_le m v
      omega

theorem one_le_of_entityWidth {s : State} {W : Nat} (h : entityWidth s = some W) : 1 ≤ W := by
  have hmem := (entityWidth_mem s W h).2
  simp only [List.mem_cons, List.not_mem_nil, or_false] at hmem
  omega

/-- ANALYZE leaves the cursor and FREQ, or puts the cursor within IN and a FREQ of the right form (R74). -/
theorem analyzeBody_result (P : Params) (s : State) :
    resultState (analyzeBody P s) = s ∨
      ∃ c m, resultState (analyzeBody P s) = setCursor c { s with freq := m } ∧ c ≤ s.inStream.length ∧ FreqOk P m := by
  unfold analyzeBody
  split
  · exact .inl rfl
  · next W hwidth =>
    have hloop := feedRecords_keeps (one_le_of_entityWidth hwidth) (countEntity_freqOk P) s.inStream (freqOk_nil P)
    right
    split <;>
    · next hfeed =>
      rw [hfeed] at hloop
      exact ⟨_, _, rfl, hloop⟩

/-! CHOOSE (R78, R79). -/

/-- `minFreq` is the least frequency in the pool. -/
theorem minFreq_spec (t : ETree) (pool : List ETree) :
    (∃ u ∈ t :: pool, (treeFreq u).toNat = minFreq t pool) ∧
      ∀ u ∈ t :: pool, minFreq t pool ≤ (treeFreq u).toNat := by
  have hmin : ((t :: pool).map fun u => (treeFreq u).toNat).min? = some (minFreq t pool) := by
    rw [List.map_cons, List.min?_cons', List.foldl_map, minFreq]
  obtain ⟨hmem, hle⟩ := List.min?_eq_some_iff.mp hmin
  exact ⟨List.mem_map.mp hmem, fun u hu => hle _ (List.mem_map_of_mem hu)⟩

theorem mem_candidates {m i : Nat} {pool : List ETree} :
    i ∈ candidates m pool ↔ i < pool.length ∧ (treeFreq (pool.getD i .absent)).toNat = m := by
  simp [candidates]

/-- A draw among some candidates is one of them. -/
theorem drawCandidate_mem (P : Params) (k : Nat) {cs : List Nat} (h : cs ≠ []) : drawCandidate P k cs ∈ cs := by
  have hlt : P.tieBreak k % cs.length < cs.length := Nat.mod_lt _ (List.length_pos_iff.mpr h)
  rw [drawCandidate, List.getD_eq_getElem _ _ hlt]
  exact List.getElem_mem hlt

/-- CHOOSE takes a tree of least frequency out of a pool that is not empty, under every draw. -/
theorem removeMin_spec (P : Params) (k : Nat) {pool : List ETree} (h : pool ≠ []) :
    ∃ x rest, removeMin P k pool = some (x, rest) ∧ pool.Perm (x :: rest) ∧
      ∀ u ∈ pool, (treeFreq x).toNat ≤ (treeFreq u).toNat := by
  obtain ⟨t, ts, rfl⟩ := List.exists_cons_of_ne_nil h
  obtain ⟨⟨u, hu, hmin⟩, hle⟩ := minFreq_spec t ts
  obtain ⟨j, hj, hget⟩ := List.getElem_of_mem hu
  have hsome : j ∈ candidates (minFreq t ts) (t :: ts) :=
    mem_candidates.mpr ⟨hj, by rw [List.getD_eq_getElem _ _ hj, hget, hmin]⟩
  obtain ⟨hi, hfreq⟩ := mem_candidates.mp (drawCandidate_mem P k (List.ne_nil_of_mem hsome))
  refine ⟨_, _, rfl, ?_, fun v hv => ?_⟩
  · rw [List.getD_eq_getElem _ _ hi]
    exact (List.getElem_cons_eraseIdx_perm hi).symm
  · rw [hfreq]; exact hle v hv

/-! The greedy merge as a relation (R78). -/

theorem length_leafPool (m : List (Entity × Word64)) : (leafPool m).length = m.length := by simp [leafPool]

/-- The order of the pool does not matter: it is a bag. -/
theorem GreedyMerge.perm {p q : List ETree} {t : ETree} (h : GreedyMerge p t) (hpq : p.Perm q) : GreedyMerge q t := by
  cases h with
  | last t => rw [← List.singleton_perm.mp hpq]; exact .last t
  | merge pool pool1 pool2 x y t hx minx hy miny rest =>
    exact .merge q pool1 pool2 x y t (hpq.symm.trans hx) (fun u hu => minx u (hpq.mem_iff.mpr hu)) hy miny rest

/-- A pool of one tree is merged. -/
theorem greedyMerge_headD {pool : List ETree} (hne : pool ≠ []) (hlt : pool.length < 2) :
    GreedyMerge pool (pool.headD .absent) := by
  have hpos := List.length_pos_iff.mpr hne
  have hone : pool.length = 1 := by omega
  obtain ⟨t, rfl⟩ := List.length_eq_one_iff.mp hone
  exact .last t

/-- The loop of `Merge` is a greedy merge of its pool, given a round for every tree but one. -/
theorem mergePool_greedy (P : Params) (fuel : Nat) (pool : List ETree) (k : Nat) (hne : pool ≠ [])
    (hfuel : pool.length ≤ fuel + 1) : GreedyMerge pool (mergePool P fuel pool k).1 := by
  induction fuel generalizing pool k with
  | zero => exact greedyMerge_headD hne (by omega)
  | succ fuel ih =>
    rw [mergePool]
    split
    · next hlt => exact greedyMerge_headD hne hlt
    · obtain ⟨x, pool1, hremove, hx, minx⟩ := removeMin_spec P k hne
      have hlen1 : pool.length = pool1.length + 1 := hx.length_eq
      have hne1 : pool1 ≠ [] := by rintro rfl; simp at hlen1; omega
      obtain ⟨y, pool2, hremove1, hy, miny⟩ := removeMin_spec P (k + 1) hne1
      have hlen2 : pool1.length = pool2.length + 1 := hy.length_eq
      simp only [hremove, hremove1]
      have hrest := ih (pool2 ++ [.branch (treeFreq x + treeFreq y) x y]) (k + 2) (by simp)
        (by rw [List.length_append, List.length_singleton]; omega)
      exact .merge pool pool1 pool2 x y _ hx minx hy miny (hrest.perm (List.perm_append_singleton _ _))

/-- BUILD writes a tree it may write: none, the one-entity tree, or a greedy merge of FREQ's leaves (R75 to R79). -/
theorem buildTree_greedy (P : Params) (m : List (Entity × Word64)) (k : Nat) (hm : (m.map Prod.fst).Nodup) :
    GreedyTree (buildTree P m k).1 := by
  match m, hm with
  | [], _ => exact .inl rfl
  | [(v, f)], _ => exact .inr (.inl ⟨v, f, rfl⟩)
  | a :: b :: m, hm =>
    refine .inr (.inr ⟨a :: b :: m, hm, by simp, ?_⟩)
    exact mergePool_greedy P _ _ k (by simp [leafPool]) (by rw [length_leafPool]; exact Nat.le_succ _)

/-! A greedy merge meets R35's invariant (R81). -/

theorem GreedyMerge.fullTree {p : List ETree} {t : ETree} (h : GreedyMerge p t) (hp : ∀ u ∈ p, FullTree u) :
    FullTree t := by
  induction h with
  | last t => exact hp t (by simp)
  | merge pool pool1 pool2 x y t hx _ hy _ _ ih =>
    have hp : ∀ u ∈ x :: pool1, FullTree u := fun u hu => hp u (hx.mem_iff.mpr hu)
    obtain ⟨hfx, hp⟩ := List.forall_mem_cons.mp hp
    have hp : ∀ u ∈ y :: pool2, FullTree u := fun u hu => hp u (hy.mem_iff.mpr hu)
    obtain ⟨hfy, hp⟩ := List.forall_mem_cons.mp hp
    exact ih (List.forall_mem_cons.mpr ⟨⟨rfl, hfx, hfy⟩, hp⟩)

/-- The merge keeps the leaves of the pool, in some order. -/
theorem GreedyMerge.leaves_perm {p : List ETree} {t : ETree} (h : GreedyMerge p t) :
    (leaves t).Perm (p.flatMap leaves) := by
  induction h with
  | last t => simp
  | merge pool pool1 pool2 x y t hx _ hy _ _ ih =>
    have hpool : (pool.flatMap leaves).Perm (leaves x ++ (leaves y ++ pool2.flatMap leaves)) :=
      (hx.flatMap_right leaves).trans ((hy.flatMap_right leaves).append_left (leaves x))
    refine ih.trans (.trans ?_ hpool.symm)
    simp [leaves]

/-- Every merge of two trees or more ends in a Branch. -/
theorem GreedyMerge.branch_or_singleton {p : List ETree} {t : ETree} (h : GreedyMerge p t) :
    (∃ f l r, t = .branch f l r) ∨ p = [t] := by
  induction h with
  | last t => exact .inr rfl
  | merge pool pool1 pool2 x y t _ _ _ _ _ ih =>
    rcases ih with hbranch | hone
    · exact .inl hbranch
    · exact .inl ⟨_, _, _, (List.cons.inj hone).1.symm⟩

theorem flatMap_leaves_leafPool (m : List (Entity × Word64)) : (leafPool m).flatMap leaves = m.map Prod.fst := by
  rw [leafPool, List.flatMap_map, List.map_eq_flatMap]; rfl

/-- A tree BUILD can have written meets R35's invariant. -/
theorem GreedyTree.built {t : ETree} (h : GreedyTree t) : BuiltTree t := by
  rcases h with habsent | hsingle | ⟨m, hnodup, hlen, hmerge⟩
  · exact .inl habsent
  · exact .inr (.inl hsingle)
  · refine .inr (.inr ⟨?_, ?_, ?_⟩)
    · refine hmerge.branch_or_singleton.resolve_right fun hone => ?_
      have := congrArg List.length hone
      rw [length_leafPool, List.length_singleton] at this
      omega
    · refine hmerge.fullTree fun u hu => ?_
      obtain ⟨e, -, rfl⟩ := List.mem_map.mp hu
      trivial
    · have hperm := hmerge.leaves_perm
      rw [flatMap_leaves_leafPool] at hperm
      exact hperm.nodup_iff.mpr hnodup

/-! The invariant. -/

theorem analyzeBody_freq_nodup (P : Params) (s : State) (hs : (s.freq.map Prod.fst).Nodup) :
    ((resultState (analyzeBody P s)).freq.map Prod.fst).Nodup := by
  rcases analyzeBody_result P s with hsame | ⟨c, m, hresult, -, hsorted, -⟩
  · rw [hsame]; exact hs
  · rw [hresult]; exact freqSorted_nodup m hsorted

/-- A command that leaves FREQ and TREE keeps the invariant; ANALYZE leaves a canonical FREQ; BUILD empties FREQ and writes a
greedy tree. -/
theorem commandBody_encodeOk (P : Params) (i : Instr) {s : State} (hs : EncodeOk s) :
    EncodeOk (resultState (commandBody P i s)) ∧
      (GreedyTree s.tree → GreedyTree (resultState (commandBody P i s)).tree) := by
  obtain ⟨hnodup, htree⟩ := hs
  have hframe := (commandBody_frame P i s).1
  rcases hframe.tree with hsameTree | rfl
  · rw [EncodeOk, hsameTree]
    refine ⟨⟨?_, htree⟩, id⟩
    rcases hframe.freq with hsame | rfl | rfl
    · rw [hsame]; exact hnodup
    · exact analyzeBody_freq_nodup P s hnodup
    · exact List.nodup_nil
  · have hgreedy : GreedyTree (resultState (commandBody P .build s)).tree := buildTree_greedy P s.freq s.draws hnodup
    exact ⟨⟨List.nodup_nil, hgreedy.built⟩, fun _ => hgreedy⟩

theorem exec_encodeOk {i : Instr} {s t : State} (hs : EncodeOk s) (h : exec i s = .next t) :
    EncodeOk t ∧ (GreedyTree s.tree → GreedyTree t.tree) := by
  rw [exec_eq_runCommand] at h
  cases h
  have hbody := commandBody_encodeOk Config.params i hs
  exact runCommand_cases (motive := fun t => EncodeOk t ∧ (GreedyTree s.tree → GreedyTree t.tree))
    (fun _ => ⟨hs, id⟩) (fun _ => hbody) (fun _ _ => hbody)

@[simp] theorem csrWrite_tree (i : BitVec 4) (v : Word64) (s : State) : (csrWrite i v s).tree = s.tree := by
  unfold csrWrite
  split <;> rfl

theorem HostEffect.encodeOk {s t : State} (hs : EncodeOk s) (h : HostEffect s t) :
    EncodeOk t ∧ (GreedyTree s.tree → GreedyTree t.tree) := by
  cases h with
  | command i h => exact exec_encodeOk hs h
  | written i v =>
    rw [EncodeOk, csrWrite_freq, csrWrite_tree]
    exact ⟨hs, id⟩
  | reset => exact ⟨⟨List.nodup_nil, .inl rfl⟩, fun _ => .inl rfl⟩
  | rejected | raised | replied | loaded | cleared => exact ⟨hs, id⟩

/-- Settles O52: only BUILD and the reset write TREE, and the greedy merge of distinct entities gives a full, lawful tree with
those entities at its leaves. -/
theorem stepKeepsTheTreeInvariant : Obligations.StepKeepsTheTreeInvariant := by
  unfold Obligations.StepKeepsTheTreeInvariant
  intro s t hs h
  rcases step_effect h with rfl | ⟨rest, heffect⟩
  · exact ⟨hs, id⟩
  · exact HostEffect.encodeOk (s := { s with host := rest }) hs heffect

end Sys2Proof.Machine

/-! Every command keeps the cursor within IN and OUT within MAX_OUT_LEN (20_memory.md R40, R42, R43). -/

namespace Sys2Proof.Machine

/-! Appending keeps OUT within MAX_OUT_LEN (R43). -/

/-- OUT is within MAX_OUT_LEN (R7, R43). -/
def OutFits (P : Params) (out : List Byte) : Prop := outTooLong P out.length = false

theorem outFits_of_appendOut {P : Params} {out bs o : List Byte} (h : appendOut P out bs = some o) : OutFits P o :=
  (appendOut_some P out bs o h).2

theorem putBit_outFits (P : Params) (p : Packer) (bit : Bool) (hp : OutFits P p.out) :
    AttemptHolds (fun p' => OutFits P p'.out) (fun p' _ => OutFits P p'.out) (putBit P p bit) := by
  simp only [putBit]
  split
  · split
    · exact hp
    · next happend => exact outFits_of_appendOut happend
  · exact hp

theorem putBits_outFits (P : Params) (bits : List Bool) (p : Packer) (hp : OutFits P p.out) :
    AttemptHolds (fun p' => OutFits P p'.out) (fun p' _ => OutFits P p'.out) (putBits P bits p) :=
  feedList_holds (I := fun p => OutFits P p.out) (fun p bit _ => putBit_outFits P p bit) p hp

theorem flush_outFits (P : Params) (p : Packer) (hp : OutFits P p.out) :
    AttemptHolds (fun p' => OutFits P p'.out) (fun p' _ => OutFits P p'.out) (flush P p) := by
  unfold flush
  split
  · split
    · exact hp
    · next happend => exact outFits_of_appendOut happend
  · exact hp

theorem pack_outFits (P : Params) (bits : List Bool) (out : List Byte) (hout : OutFits P out) :
    AttemptHolds (fun p' => OutFits P p'.out) (fun p' _ => OutFits P p'.out) (pack P bits out) := by
  have hput := putBits_outFits P bits (Packer.start out) hout
  unfold pack
  split <;> rename_i h <;> rw [h] at hput
  · exact hput
  · exact flush_outFits P _ hput

theorem encodeEntity_outFits (P : Params) (table : List (Entity × List Bool)) (p : Packer) (v : Entity)
    (hp : OutFits P p.out) :
    AttemptHolds (fun p' => OutFits P p'.out) (fun p' _ => OutFits P p'.out) (encodeEntity P table p v) := by
  unfold encodeEntity
  split
  · exact hp
  · exact putBits_outFits P _ p hp

theorem eencLeaf_outFits (P : Params) (a : EencWork) (v : Entity) (ha : OutFits P a.out) :
    AttemptHolds (fun a' => OutFits P a'.out) (fun a' _ => OutFits P a'.out) (eencLeaf P a v) := by
  unfold eencLeaf
  split
  · exact ha
  · split
    · exact ha
    · next happend => exact outFits_of_appendOut happend

theorem pdecBit_outFits (P : Params) (root : DTree) (a : PdecWork) (bit : Bool) (ha : OutFits P a.out) :
    AttemptHolds (fun a' => OutFits P a'.out) (fun a' _ => OutFits P a'.out) (pdecBit P root a bit) := by
  unfold pdecBit
  split
  · split
    · split
      · exact ha
      · next happend => exact outFits_of_appendOut happend
    · exact ha
  · exact ha

/-! The cursor stays within IN (R40, R42). -/

/-- The cursor is within IN and OUT within MAX_OUT_LEN. -/
def StreamsFit (P : Params) (s : State) : Prop := cursor s ≤ s.inStream.length ∧ OutFits P s.outStream

theorem StreamsFit.cursor_le {P : Params} {s : State} (h : StreamsFit P s) : cursor s ≤ s.inStream.length := h.1

theorem StreamsFit.out_fits {P : Params} {s : State} (h : StreamsFit P s) : OutFits P s.outStream := h.2

theorem cursor_setCursor_le (n : Nat) (s : State) : cursor (setCursor n s) ≤ n := Nat.mod_le _ _

/-- Moving the cursor to a place of IN keeps the streams. -/
theorem StreamsFit.setCursor {P : Params} {s : State} {n : Nat} (hn : n ≤ s.inStream.length)
    (hout : OutFits P s.outStream) : StreamsFit P (setCursor n s) :=
  ⟨(cursor_setCursor_le n s).trans hn, hout⟩

theorem cursor_add_length_inRest {s : State} (h : cursor s ≤ s.inStream.length) :
    cursor s + (inRest s).length = s.inStream.length := by
  rw [inRest, List.length_drop]; omega

theorem memRead_eq_some {s : State} {a n : Nat} {bs : List Byte} (h : memRead s a n = some bs) :
    a + n ≤ s.inStream.length := by
  unfold memRead at h
  split at h
  · assumption
  · cases h

/-- EDEC's loop leaves the cursor within IN (R96). -/
theorem takeRecords_cursor_le {W len : Nat} (hW : 1 ≤ W) (n : Nat) {rest : List Byte} {cur : Nat}
    (hrest : cur + rest.length ≤ len) (es : List Entity) :
    FeedHolds (fun c _ => c ≤ len) (fun c _ _ => c ≤ len) (takeRecords W len n rest cur es) := by
  by_cases hn : n * W ≤ rest.length
  · rw [takeRecords_ok W len n rest cur es hn]
    exact (Nat.add_le_add_left hn cur).trans hrest
  · rw [takeRecords_exhausted W len n hW rest cur es (Nat.not_le.mp hn)]
    exact le_rfl

theorem attemptHolds_true {σ : Type} (x : Attempt σ) : AttemptHolds (fun _ => True) (fun _ _ => True) x := by
  unfold AttemptHolds
  split <;> trivial

/-! Each pseudocode. -/

theorem rdfixBody_streamsFit (P : Params) (nw : BitVec 4) {s : State} (hs : StreamsFit P s) :
    StreamsFit P (resultState (rdfixBody P nw s)) := by
  unfold rdfixBody
  split
  · exact hs
  · split
    · exact .setCursor le_rfl hs.out_fits
    · next hread => exact StreamsFit.setCursor (s := s) (memRead_eq_some hread) hs.out_fits

theorem wrfixBody_streamsFit (P : Params) (nw : BitVec 4) {s : State} (hs : StreamsFit P s) :
    StreamsFit P (resultState (wrfixBody P nw s)) := by
  unfold wrfixBody
  split
  · exact hs
  · split
    · exact hs
    · next happend => exact ⟨hs.cursor_le, outFits_of_appendOut happend⟩

theorem analyzeBody_streamsFit (P : Params) {s : State} (hs : StreamsFit P s) :
    StreamsFit P (resultState (analyzeBody P s)) := by
  rcases analyzeBody_result P s with hsame | ⟨c, m, hresult, hc, -⟩
  · rw [hsame]; exact hs
  · rw [hresult]; exact .setCursor hc hs.out_fits

theorem tencBody_streamsFit (P : Params) {s : State} (hs : StreamsFit P s) :
    StreamsFit P (resultState (tencBody P s)) := by
  have hpack := pack_outFits P (shape s.tree) s.outStream hs.out_fits
  unfold tencBody
  split
  · exact hs
  · split <;> rename_i h <;> rw [h] at hpack
    · exact ⟨hs.cursor_le, hpack⟩
    · split <;> exact ⟨hs.cursor_le, hpack⟩

theorem tdecBody_streamsFit (P : Params) {s : State} (hs : StreamsFit P s) :
    StreamsFit P (resultState (tdecBody P s)) := by
  have hloop := feedSection_keeps (I := fun _ => True) (f := tdecBit P s.elist) s.treeLastBits
    (fun _ _ _ => attemptHolds_true _) s.treeByteCount.toNat (cursor_add_length_inRest hs.cursor_le).le
    (a := { stack := [], idx := 0, nodes := 0 }) trivial
  unfold tdecBody
  split
  · split <;> exact hs
  · split <;> rename_i h <;> rw [h] at hloop
    · exact .setCursor hloop.1 hs.out_fits
    · split <;> exact .setCursor hloop.1 hs.out_fits

theorem eencBody_streamsFit (P : Params) {s : State} (hs : StreamsFit P s) :
    StreamsFit P (resultState (eencBody P s)) := by
  have hloop := feedList_holds (I := fun a : EencWork => OutFits P a.out) (E := fun a _ => OutFits P a.out)
    (bs := leaves s.tree) (fun a v _ => eencLeaf_outFits P a v) { out := s.outStream, count := 0 } hs.out_fits
  unfold eencBody
  split <;> next h => rw [h] at hloop; exact ⟨hs.cursor_le, hloop⟩

theorem edecBody_streamsFit (P : Params) {s : State} (hs : StreamsFit P s) :
    StreamsFit P (resultState (edecBody s)) := by
  unfold edecBody
  split
  · exact hs
  · next W hwidth =>
    have hloop := takeRecords_cursor_le (one_le_of_entityWidth hwidth) s.entityCount.toNat
      (cursor_add_length_inRest hs.cursor_le).le []
    split <;> next h => rw [h] at hloop; exact .setCursor hloop hs.out_fits

theorem pencBody_streamsFit (P : Params) {s : State} (hs : StreamsFit P s) :
    StreamsFit P (resultState (pencBody P s)) := by
  unfold pencBody
  split
  · exact hs
  · next W hwidth =>
    have hloop := feedRecords_keeps (one_le_of_entityWidth hwidth) (encodeEntity_outFits P (codeTable s.tree)) s.inStream
      (a := Packer.start s.outStream) hs.out_fits
    split <;> rename_i h <;> rw [h] at hloop
    · exact .setCursor hloop.1 hloop.2
    · obtain ⟨hcur, hp⟩ := hloop
      have hflush := flush_outFits P _ hp
      split <;> rename_i h <;> rw [h] at hflush
      · exact .setCursor hcur hflush
      · split <;> exact .setCursor hcur hflush

theorem pdecBody_streamsFit (P : Params) {s : State} (hs : StreamsFit P s) :
    StreamsFit P (resultState (pdecBody P s)) := by
  have hloop := feedSection_keeps (I := fun a : PdecWork => OutFits P a.out) s.dataLastBits (pdecBit_outFits P s.dtree)
    s.dataByteCount.toNat (cursor_add_length_inRest hs.cursor_le).le (a := { pos := s.dtree, out := s.outStream })
    hs.out_fits
  unfold pdecBody
  split <;> next h => rw [h] at hloop; exact .setCursor hloop.1 hloop.2

/-- Every pseudocode keeps the cursor within IN and OUT within MAX_OUT_LEN. -/
theorem commandBody_streamsFit (P : Params) (i : Instr) {s : State} (hs : StreamsFit P s) :
    StreamsFit P (resultState (commandBody P i s)) := by
  cases i with
  | getbit byte pos => obtain ⟨_, hb⟩ := getbitBody_state byte pos s; rw [commandBody, hb]; exact hs
  | setbit byte pos => obtain ⟨_, hb⟩ := setbitBody_state byte pos s; rw [commandBody, hb]; exact hs
  | rdfix nw => exact rdfixBody_streamsFit P nw hs
  | wrfix nw => exact wrfixBody_streamsFit P nw hs
  | analyze => exact analyzeBody_streamsFit P hs
  | build => exact hs
  | tenc => exact tencBody_streamsFit P hs
  | tdec => exact tdecBody_streamsFit P hs
  | eenc => exact eencBody_streamsFit P hs
  | edec => exact edecBody_streamsFit P hs
  | penc => exact pencBody_streamsFit P hs
  | pdec => exact pdecBody_streamsFit P hs

/-- Every pseudocode keeps FREQ canonical and within MAX_DISTINCT: only ANALYZE and BUILD write it. -/
theorem commandBody_freqOk (P : Params) (i : Instr) {s : State} (hs : FreqOk P s.freq) :
    FreqOk P (resultState (commandBody P i s)).freq := by
  rcases (commandBody_frame P i s).1.freq with hsame | rfl | rfl
  · rw [hsame]; exact hs
  · rcases analyzeBody_result P s with hsame | ⟨c, m, hresult, -, hm⟩
    · rw [commandBody, hsame]; exact hs
    · rw [commandBody, hresult]; exact hm
  · exact freqOk_nil P

theorem Memory.wf_iff_streamsFit (P : Params) (s : State) :
    Memory.wf P s = true ↔ StreamsFit P s ∧ s.inStream.length ≤ P.maxInLen.toNat ∧ FreqOk P s.freq := by
  rw [Memory.wf_iff]
  constructor
  · rintro ⟨hcur, hin, hout, hfreq⟩; exact ⟨⟨hcur, hout⟩, hin, hfreq⟩
  · rintro ⟨⟨hcur, hout⟩, hin, hfreq⟩; exact ⟨hcur, hin, hout, hfreq⟩

theorem Memory.wf_commandBody (P : Params) (i : Instr) {s : State} (hs : Memory.wf P s = true) :
    Memory.wf P (resultState (commandBody P i s)) = true := by
  obtain ⟨hstreams, hin, hfreq⟩ := (Memory.wf_iff_streamsFit P s).mp hs
  refine (Memory.wf_iff_streamsFit P _).mpr ⟨commandBody_streamsFit P i hstreams, ?_, commandBody_freqOk P i hfreq⟩
  rw [(commandBody_frame P i s).1.inStream]; exact hin

theorem Memory.wf_exec {i : Instr} {s t : State} (hs : Memory.wf Config.params s = true) (h : exec i s = .next t) :
    Memory.wf Config.params t = true := by
  rw [exec_eq_runCommand] at h
  cases h
  have hbody := Memory.wf_commandBody Config.params i hs
  exact runCommand_cases (motive := fun t => Memory.wf Config.params t = true)
    (fun _ => (Memory.wf_rejectCommand _ s).trans hs) (fun _ => hbody)
    (fun _ r => (Memory.wf_raiseFault _ r _).trans hbody)

theorem HostEffect.wf {s t : State} (hs : Memory.wf Config.params s = true) (h : HostEffect s t) :
    Memory.wf Config.params t = true := by
  cases h with
  | command i h => exact Memory.wf_exec hs h
  | written i v => exact Memory.wf_csrWrite _ i v s hs
  | loaded bs hlen => exact Memory.wf_loadStream _ bs s hs hlen
  | cleared => exact Memory.wf_clearOut _ s hs
  | reset => exact Memory.wf_reset_streams _ s
  | rejected | raised | replied => exact hs

/-- Settles O50: every read leaves the cursor within IN, every append is checked against MAX_OUT_LEN, ANALYZE counts in key
order and within MAX_DISTINCT, and LoadIn is limited to MAX_IN_LEN. -/
theorem stepKeepsTheStreamsWellFormed : Obligations.StepKeepsTheStreamsWellFormed := by
  unfold Obligations.StepKeepsTheStreamsWellFormed
  intro s t hs h
  rcases step_effect h with rfl | ⟨rest, heffect⟩
  · exact hs
  · exact HostEffect.wf (s := { s with host := rest }) hs heffect

end Sys2Proof.Machine

/-! IN and OUT as memory (20_memory.md): OUT is append-only (R40), the cursor moves forward (R41), no section depends on the
byte order (R45), and the pad bits of a section are not read (R48). -/

namespace Sys2Proof.Machine

/-! OUT is append-only (R40, R43). Each loop keeps OUT an extension of `base`, what it held before the
command. -/

theorem appendOut_keepsOut {P : Params} {base out bs o : List Byte} (hout : base <+: out)
    (h : appendOut P out bs = some o) : base <+: o := by
  rw [(appendOut_some P out bs o h).1]
  exact hout.trans (List.prefix_append out bs)

theorem putBit_keepsOut (P : Params) {base : List Byte} (p : Packer) (bit : Bool) (hp : base <+: p.out) :
    AttemptHolds (fun p' => base <+: p'.out) (fun p' _ => base <+: p'.out) (putBit P p bit) := by
  simp only [putBit]
  split
  · split
    · exact hp
    · next happend => exact appendOut_keepsOut hp happend
  · exact hp

theorem putBits_keepsOut (P : Params) {base : List Byte} (bits : List Bool) (p : Packer) (hp : base <+: p.out) :
    AttemptHolds (fun p' => base <+: p'.out) (fun p' _ => base <+: p'.out) (putBits P bits p) :=
  feedList_holds (I := fun p : Packer => base <+: p.out) (fun p bit _ => putBit_keepsOut P p bit) p hp

theorem flush_keepsOut (P : Params) {base : List Byte} (p : Packer) (hp : base <+: p.out) :
    AttemptHolds (fun p' => base <+: p'.out) (fun p' _ => base <+: p'.out) (flush P p) := by
  unfold flush
  split
  · split
    · exact hp
    · next happend => exact appendOut_keepsOut hp happend
  · exact hp

theorem pack_keepsOut (P : Params) (bits : List Bool) (out : List Byte) :
    AttemptHolds (fun p => out <+: p.out) (fun p _ => out <+: p.out) (pack P bits out) := by
  have hput := putBits_keepsOut P bits (Packer.start out) (List.prefix_refl out)
  unfold pack
  split <;> rename_i h <;> rw [h] at hput
  · exact hput
  · exact flush_keepsOut P _ hput

theorem encodeEntity_keepsOut (P : Params) (table : List (Entity × List Bool)) {base : List Byte} (p : Packer) (v : Entity)
    (hp : base <+: p.out) :
    AttemptHolds (fun p' => base <+: p'.out) (fun p' _ => base <+: p'.out) (encodeEntity P table p v) := by
  unfold encodeEntity
  split
  · exact hp
  · exact putBits_keepsOut P _ p hp

theorem eencLeaf_keepsOut (P : Params) {base : List Byte} (a : EencWork) (v : Entity) (ha : base <+: a.out) :
    AttemptHolds (fun a' => base <+: a'.out) (fun a' _ => base <+: a'.out) (eencLeaf P a v) := by
  unfold eencLeaf
  split
  · exact ha
  · split
    · exact ha
    · next happend => exact appendOut_keepsOut ha happend

theorem pdecBit_keepsOut (P : Params) (root : DTree) {base : List Byte} (a : PdecWork) (bit : Bool) (ha : base <+: a.out) :
    AttemptHolds (fun a' => base <+: a'.out) (fun a' _ => base <+: a'.out) (pdecBit P root a bit) := by
  unfold pdecBit
  split
  · split
    · split
      · exact ha
      · next happend => exact appendOut_keepsOut ha happend
    · exact ha
  · exact ha

theorem wrfixBody_keepsOut (P : Params) (nw : BitVec 4) (s : State) :
    s.outStream <+: (resultState (wrfixBody P nw s)).outStream := by
  unfold wrfixBody
  split
  · exact List.prefix_rfl
  · split
    · exact List.prefix_rfl
    · next happend => exact appendOut_keepsOut List.prefix_rfl happend

theorem tencBody_keepsOut (P : Params) (s : State) : s.outStream <+: (resultState (tencBody P s)).outStream := by
  have hpack := pack_keepsOut P (shape s.tree) s.outStream
  unfold tencBody
  split
  · exact List.prefix_rfl
  · split <;> rename_i h <;> rw [h] at hpack
    · exact hpack
    · split <;> exact hpack

theorem eencBody_keepsOut (P : Params) (s : State) : s.outStream <+: (resultState (eencBody P s)).outStream := by
  have hloop := feedList_holds (I := fun a : EencWork => s.outStream <+: a.out) (E := fun a _ => s.outStream <+: a.out)
    (bs := leaves s.tree) (fun a v _ => eencLeaf_keepsOut P a v) { out := s.outStream, count := 0 } List.prefix_rfl
  unfold eencBody
  split <;> next h => rw [h] at hloop; exact hloop

theorem pencBody_keepsOut (P : Params) (s : State) : s.outStream <+: (resultState (pencBody P s)).outStream := by
  unfold pencBody
  split
  · exact List.prefix_rfl
  · next W hwidth =>
    have hloop := feedRecords_keeps (I := fun p : Packer => s.outStream <+: p.out) (one_le_of_entityWidth hwidth)
      (encodeEntity_keepsOut P (codeTable s.tree)) s.inStream (a := Packer.start s.outStream) List.prefix_rfl
    split <;> rename_i h <;> rw [h] at hloop
    · exact hloop.2
    · have hflush := flush_keepsOut P _ hloop.2
      split <;> rename_i h <;> rw [h] at hflush
      · exact hflush
      · split <;> exact hflush

theorem pdecBody_keepsOut (P : Params) (s : State) : s.outStream <+: (resultState (pdecBody P s)).outStream := by
  have hloop := feedSection_holds (I := fun a : PdecWork => s.outStream <+: a.out) (E := fun a _ => s.outStream <+: a.out)
    s.dataLastBits s.inStream.length (pdecBit_keepsOut P s.dtree) (inRest s) s.dataByteCount.toNat (cursor s)
    { pos := s.dtree, out := s.outStream } List.prefix_rfl
  unfold pdecBody
  split <;> rename_i h <;> rw [h] at hloop
  · rcases hloop with ⟨hkept, -⟩ | ⟨hkept, -⟩ <;> exact hkept
  · obtain ⟨-, -, hkept⟩ := hloop; exact hkept

/-- What OUT held before a command it still holds, at the same place. -/
theorem commandBody_keepsOut (P : Params) (i : Instr) (s : State) :
    s.outStream <+: (resultState (commandBody P i s)).outStream := by
  rcases (commandBody_frame P i s).1.outStream with hsame | ⟨nw, rfl⟩ | rfl | rfl | rfl | rfl
  · rw [hsame]
  · exact wrfixBody_keepsOut P nw s
  · exact eencBody_keepsOut P s
  · exact tencBody_keepsOut P s
  · exact pencBody_keepsOut P s
  · exact pdecBody_keepsOut P s

theorem exec_keepsOut {i : Instr} {s t : State} (h : exec i s = .next t) : s.outStream <+: t.outStream := by
  rw [exec_eq_runCommand] at h
  cases h
  have hbody := commandBody_keepsOut Config.params i s
  exact runCommand_cases (motive := fun t => s.outStream <+: t.outStream)
    (fun _ => List.prefix_rfl) (fun _ => hbody) (fun _ _ => hbody)

/-- Settles O57: every write to OUT is an append, so the new OUT begins with the old one. -/
theorem commandsOnlyAppendToOut : Obligations.CommandsOnlyAppendToOut := by
  unfold Obligations.CommandsOnlyAppendToOut
  intro i s t h
  obtain ⟨more, hmore⟩ := exec_keepsOut h
  rw [← hmore]
  exact ⟨by simp, fun a ha => List.getElem?_append_left ha⟩

/-! The cursor moves forward (R41). -/

/-- The section loop leaves the cursor at or past where it was, and within IN (R42, R47). -/
theorem feedSection_cursor_between {σ : Type} (f : σ → Bool → Attempt σ) (lb : BitVec 8) {len cur : Nat}
    {rest : List Byte} (n : Nat) (hrest : cur + rest.length = len) (a : σ) :
    FeedHolds (fun c _ => cur ≤ c ∧ c ≤ len) (fun c _ _ => cur ≤ c ∧ c ≤ len) (feedSection f lb len rest n cur a) := by
  have hloop := feedSection_holds (I := fun _ => True) (E := fun _ _ => True) lb len
    (fun a bit _ => attemptHolds_true (f a bit)) rest n cur a trivial
  cases hfeed : feedSection f lb len rest n cur a <;> rw [hfeed] at hloop
  case done =>
    obtain ⟨hcur, hn, -⟩ := hloop
    exact ⟨by omega, by omega⟩
  case raised =>
    rcases hloop with ⟨-, hlt, hle, -⟩ | ⟨-, -, hcur, -⟩ <;> exact ⟨by omega, by omega⟩

/-- EDEC's loop leaves the cursor at or past where it was, and within IN (R96). -/
theorem takeRecords_cursor_between {W len cur : Nat} (hW : 1 ≤ W) (n : Nat) {rest : List Byte}
    (hrest : cur + rest.length = len) (es : List Entity) :
    FeedHolds (fun c _ => cur ≤ c ∧ c ≤ len) (fun c _ _ => cur ≤ c ∧ c ≤ len) (takeRecords W len n rest cur es) := by
  by_cases hn : n * W ≤ rest.length
  · rw [takeRecords_ok W len n rest cur es hn]
    exact ⟨by omega, by omega⟩
  · rw [takeRecords_exhausted W len n hW rest cur es (Nat.not_le.mp hn)]
    exact ⟨by omega, le_rfl⟩

/-- A cursor set within an IN shorter than 2^64 is not truncated. -/
theorem cursor_setCursor {n : Nat} {s : State} (hn : n ≤ s.inStream.length) (hlen : s.inStream.length < 2 ^ 64) :
    cursor (setCursor n s) = n := Nat.mod_eq_of_lt (hn.trans_lt hlen)

section CursorForward

variable {s : State} (hcur : cursor s ≤ s.inStream.length) (hlen : s.inStream.length < 2 ^ 64)
include hcur hlen

theorem rdfixBody_cursor_le (P : Params) (nw : BitVec 4) : cursor s ≤ cursor (resultState (rdfixBody P nw s)) := by
  unfold rdfixBody
  split
  · exact le_rfl
  · next n _ =>
    split
    · exact hcur.trans_eq (cursor_setCursor le_rfl hlen).symm
    · next hread => exact (Nat.le_add_right _ n).trans_eq (cursor_setCursor (memRead_eq_some hread) hlen).symm

theorem tdecBody_cursor_le (P : Params) : cursor s ≤ cursor (resultState (tdecBody P s)) := by
  have hloop := feedSection_cursor_between (tdecBit P s.elist) s.treeLastBits s.treeByteCount.toNat
    (cursor_add_length_inRest hcur) { stack := [], idx := 0, nodes := 0 }
  unfold tdecBody
  split
  · split <;> exact le_rfl
  · split <;> rename_i h <;> rw [h] at hloop <;> obtain ⟨hge, hle⟩ := hloop
    · exact hge.trans_eq (cursor_setCursor (s := s) hle hlen).symm
    · split <;> exact hge.trans_eq (cursor_setCursor (s := s) hle hlen).symm

theorem edecBody_cursor_le : cursor s ≤ cursor (resultState (edecBody s)) := by
  unfold edecBody
  split
  · exact le_rfl
  · next W hwidth =>
    have hloop := takeRecords_cursor_between (one_le_of_entityWidth hwidth) s.entityCount.toNat
      (cursor_add_length_inRest hcur) []
    split <;>
    · next h =>
      rw [h] at hloop
      exact hloop.1.trans_eq (cursor_setCursor (s := s) hloop.2 hlen).symm

theorem pdecBody_cursor_le (P : Params) : cursor s ≤ cursor (resultState (pdecBody P s)) := by
  have hloop := feedSection_cursor_between (pdecBit P s.dtree) s.dataLastBits s.dataByteCount.toNat
    (cursor_add_length_inRest hcur) { pos := s.dtree, out := s.outStream }
  unfold pdecBody
  split <;>
  · next h =>
    rw [h] at hloop
    exact hloop.1.trans_eq (cursor_setCursor (s := s) hloop.2 hlen).symm

/-- A pseudocode that moves the cursor, ANALYZE's and PENC's apart, moves it forward. -/
theorem commandBody_cursor_le (P : Params) {i : Instr} (hanalyze : i ≠ .analyze) (hpenc : i ≠ .penc) :
    cursor s ≤ cursor (resultState (commandBody P i s)) := by
  rcases (commandBody_frame P i s).1.icur with hsame | ⟨nw, rfl⟩ | hi | rfl | rfl | hi | rfl
  · rw [cursor, cursor, hsame]
  · exact rdfixBody_cursor_le hcur hlen P nw
  · exact absurd hi hanalyze
  · exact edecBody_cursor_le hcur hlen
  · exact tdecBody_cursor_le hcur hlen P
  · exact absurd hi hpenc
  · exact pdecBody_cursor_le hcur hlen P

end CursorForward

/-- Settles O58: only RDFIX, EDEC, TDEC and PDEC are left to move the cursor, and each moves it past what it reads or to the
end of IN. -/
theorem cursorMovesForward : Obligations.CursorMovesForward := by
  unfold Obligations.CursorMovesForward
  intro i s t hwf h hanalyze hpenc
  rw [exec_eq_runCommand] at h
  cases h
  obtain ⟨hcur, -⟩ := (Memory.wf_iff Config.params s).mp hwf
  have hbody := commandBody_cursor_le hcur (Memory.wf_inLen Config.params s hwf) Config.params hanalyze hpenc
  exact runCommand_cases (motive := fun t => cursor s ≤ cursor t) (fun _ => le_rfl) (fun _ => hbody) (fun _ _ => hbody)

/-! No section depends on the byte order (R45): only RDFIX and WRFIX read NATIVE_ORDER. -/

section ByteOrder

variable (P : Params) (o : ByteOrder)

theorem analyzeBody_nativeOrder : analyzeBody { P with nativeOrder := o } = analyzeBody P := rfl

theorem removeMin_nativeOrder : removeMin { P with nativeOrder := o } = removeMin P := by
  funext k pool
  cases pool <;> rfl

theorem mergePool_nativeOrder : mergePool { P with nativeOrder := o } = mergePool P := by
  funext fuel pool k
  induction fuel generalizing pool k with
  | zero => rfl
  | succ fuel ih => simp only [mergePool, removeMin_nativeOrder, ih]

theorem buildBody_nativeOrder : buildBody { P with nativeOrder := o } = buildBody P := by
  funext s
  simp only [buildBody, buildTree, mergePool_nativeOrder]

theorem eencBody_nativeOrder : eencBody { P with nativeOrder := o } = eencBody P := rfl

theorem tencBody_nativeOrder : tencBody { P with nativeOrder := o } = tencBody P := rfl

theorem pencBody_nativeOrder : pencBody { P with nativeOrder := o } = pencBody P := rfl

theorem tdecBody_nativeOrder : tdecBody { P with nativeOrder := o } = tdecBody P := rfl

theorem pdecBody_nativeOrder : pdecBody { P with nativeOrder := o } = pdecBody P := rfl

end ByteOrder

/-- Settles O59: no pseudocode of R67's two sequences reads NATIVE_ORDER. -/
theorem sectionsIgnoreTheByteOrder : Obligations.SectionsIgnoreTheByteOrder := by
  unfold Obligations.SectionsIgnoreTheByteOrder
  intro P o s
  constructor
  · simp only [encodeRun, analyzeBody_nativeOrder, buildBody_nativeOrder, eencBody_nativeOrder, tencBody_nativeOrder,
      pencBody_nativeOrder]
  · simp only [decodeRun, tdecBody_nativeOrder, pdecBody_nativeOrder]

/-! The pad bits of a section's final byte are not read (R48). -/

/-- Bytes that agree at the first `nb` positions give a section the same `nb` bits (R47). -/
theorem byteBits_congr {b b' : Byte} {nb : Nat} (h : ∀ p < nb, b.getLsbD (7 - p) = b'.getLsbD (7 - p)) :
    byteBits b nb = byteBits b' nb := by
  rw [byteBits_eq, byteBits_eq]
  exact List.map_congr_left fun p hp => h p (List.mem_range.mp hp)

/-- The section loop reads of its final byte only the bits that count gives it. -/
theorem feedSection_lastByte_congr {σ : Type} (f : σ → Bool → Attempt σ) {lb : BitVec 8} (len : Nat) {b b' : Byte}
    (hbits : byteBits b (effBits lb) = byteBits b' (effBits lb)) (pre back : List Byte) (cur : Nat) (a : σ) :
    feedSection f lb len (pre ++ b' :: back) (pre.length + 1) cur a =
      feedSection f lb len (pre ++ b :: back) (pre.length + 1) cur a := by
  induction pre generalizing cur a with
  | nil =>
    unfold feedSection
    simp only [List.nil_append, List.length_nil, Nat.zero_add, if_true, hbits]
  | cons c pre ih =>
    unfold feedSection
    simp only [List.cons_append, List.length_cons, Nat.add_sub_cancel, ih]

/-- `bs` in place of the bytes of IN. -/
def withIn (bs : List Byte) (s : State) : State := { s with inStream := bs }

/-- `bs` in place of the bytes of IN, in the state a pseudocode leaves. -/
def CmdResult.withIn (bs : List Byte) : CmdResult → CmdResult
  | .done s => .done (Machine.withIn bs s)
  | .raised s r => .raised (Machine.withIn bs s) r

/-- Neither a rejection nor a raise looks at IN. -/
theorem runCommand_withIn {body : State → CmdResult} {bs bs' : List Byte} {s : State}
    (h : body (withIn bs' s) = (body (withIn bs s)).withIn bs') :
    runCommand body (withIn bs' s) = withIn bs' (runCommand body (withIn bs s)) := by
  by_cases herr : s.err = true
  · rw [runCommand_rejected body (withIn bs s) herr, runCommand_rejected body (withIn bs' s) herr]; rfl
  · have herr : s.err = false := by simpa using herr
    rw [runCommand_runs body (withIn bs s) herr, runCommand_runs body (withIn bs' s) herr, h]
    cases body (withIn bs s) <;> rfl

/-- A section of `n` bytes from offset `cur` on is read from `bs'` as it is from `bs`. -/
def SameSection (lb : BitVec 8) (n cur : Nat) (bs bs' : List Byte) : Prop :=
  ∀ {σ : Type} (f : σ → Bool → Attempt σ) (a : σ),
    feedSection f lb bs'.length (bs'.drop cur) n cur a = feedSection f lb bs.length (bs.drop cur) n cur a

/-- The pad bits of the byte at offset `front.length` make no difference to a section that ends with it. -/
theorem sameSection_of_padBits {lb : BitVec 8} {n cur : Nat} {front back : List Byte} {b b' : Byte}
    (hcur : cur ≤ front.length) (hn : n = front.length + 1 - cur)
    (hbits : ∀ p < effBits lb, b.getLsbD (7 - p) = b'.getLsbD (7 - p)) :
    SameSection lb n cur (front ++ b :: back) (front ++ b' :: back) := by
  intro σ f a
  have hn : n = (front.drop cur).length + 1 := by rw [List.length_drop]; omega
  have hlen : (front ++ b' :: back).length = (front ++ b :: back).length := by simp
  rw [List.drop_append_of_le_length hcur, List.drop_append_of_le_length hcur, hn, hlen]
  exact feedSection_lastByte_congr f _ (byteBits_congr hbits) _ back cur a

/-- TDEC reads IN through its section only (R89). -/
theorem tdecBody_withIn (P : Params) {s : State} {bs bs' : List Byte}
    (h : SameSection s.treeLastBits s.treeByteCount.toNat (cursor s) bs bs') :
    tdecBody P (withIn bs' s) = (tdecBody P (withIn bs s)).withIn bs' := by
  have hfeed := h (tdecBit P s.elist) { stack := [], idx := 0, nodes := 0 }
  simp only [tdecBody, inRest, withIn, cursor] at hfeed ⊢
  by_cases hzero : s.treeByteCount.toNat = 0
  · simp only [hzero, if_true]
    by_cases hempty : s.entityCount.toNat = 0 ∧ s.elist = []
    · simp only [hempty, and_self, if_true, CmdResult.withIn, withIn]
    · simp only [hempty, if_false, CmdResult.withIn, withIn]
  · simp only [hzero, if_false, hfeed]
    split
    · rfl
    · split <;> rfl

/-- PDEC reads IN through its section only (R100). -/
theorem pdecBody_withIn (P : Params) {s : State} {bs bs' : List Byte}
    (h : SameSection s.dataLastBits s.dataByteCount.toNat (cursor s) bs bs') :
    pdecBody P (withIn bs' s) = (pdecBody P (withIn bs s)).withIn bs' := by
  have hfeed := h (pdecBit P s.dtree) { pos := s.dtree, out := s.outStream }
  simp only [pdecBody, inRest, withIn, cursor] at hfeed ⊢
  rw [hfeed]
  split <;> rfl

/-- Settles O45: TDEC and PDEC read IN through their section only, and the section loop takes only the first `eff(lb)` bits of
its final byte. -/
theorem padBitsAreNeverRead : Obligations.PadBitsAreNeverRead := by
  unfold Obligations.PadBitsAreNeverRead
  intro P s front back b b' hcur
  exact ⟨fun hn hbits => runCommand_withIn (tdecBody_withIn P (sameSection_of_padBits hcur hn hbits)),
    fun hn hbits => runCommand_withIn (pdecBody_withIn P (sameSection_of_padBits hcur hn hbits))⟩

end Sys2Proof.Machine

/-! Command words: their fields, the opcode map, and what `decode` answers (30_encoding.md R59 to R64). -/

namespace Sys2Proof

/-! The fields of a word (R59). -/

/-- The word with the five fields of R59, RSV among them, most significant field first. -/
def fieldsWord (rsv byte : BitVec 8) (nw pos : BitVec 4) (opc : BitVec 8) : Word32 := rsv ++ byte ++ nw ++ pos ++ opc

theorem wordOf_eq_fieldsWord (byte : BitVec 8) (nw pos : BitVec 4) (opc : BitVec 8) :
    wordOf byte nw pos opc = fieldsWord 0#8 byte nw pos opc := rfl

/-- A word is its fields. -/
theorem fieldsWord_fields (c : Word32) :
    fieldsWord (fieldRsv c) (fieldByte c) (fieldNw c) (fieldPos c) (fieldOpc c) = c := by
  unfold fieldsWord fieldRsv fieldByte fieldNw fieldPos fieldOpc
  have join {start₁ len₁ start₂ : Nat} (len₂ : Nat) (h : start₂ = start₁ + len₁) :=
    BitVec.extractLsb'_append_extractLsb'_eq_extractLsb' (len₂ := len₂) (x := c) h
  rw [join 8 (rfl : 24 = 16 + 8), join 16 (rfl : 16 = 12 + 4), join 20 (rfl : 12 = 8 + 4), join 24 (rfl : 8 = 0 + 8)]
  exact BitVec.extractLsb'_eq_self

section Fields

variable (rsv byte : BitVec 8) (nw pos : BitVec 4) (opc : BitVec 8)

@[simp] theorem fieldOpc_fieldsWord : fieldOpc (fieldsWord rsv byte nw pos opc) = opc :=
  BitVec.extractLsb'_append_eq_right

@[simp] theorem fieldPos_fieldsWord : fieldPos (fieldsWord rsv byte nw pos opc) = pos := by
  rw [fieldPos, fieldsWord, BitVec.extractLsb'_append_eq_of_le (by decide)]
  exact BitVec.extractLsb'_append_eq_right

@[simp] theorem fieldNw_fieldsWord : fieldNw (fieldsWord rsv byte nw pos opc) = nw := by
  rw [fieldNw, fieldsWord, BitVec.extractLsb'_append_eq_of_le (by decide), BitVec.extractLsb'_append_eq_of_le (by decide)]
  exact BitVec.extractLsb'_append_eq_right

@[simp] theorem fieldByte_fieldsWord : fieldByte (fieldsWord rsv byte nw pos opc) = byte := by
  rw [fieldByte, fieldsWord, BitVec.extractLsb'_append_eq_of_le (by decide),
    BitVec.extractLsb'_append_eq_of_le (by decide), BitVec.extractLsb'_append_eq_of_le (by decide)]
  exact BitVec.extractLsb'_append_eq_right

@[simp] theorem fieldRsv_fieldsWord : fieldRsv (fieldsWord rsv byte nw pos opc) = rsv := by
  rw [fieldRsv, fieldsWord, BitVec.extractLsb'_append_eq_of_le (by decide),
    BitVec.extractLsb'_append_eq_of_le (by decide), BitVec.extractLsb'_append_eq_of_le (by decide)]
  exact BitVec.extractLsb'_append_eq_left

end Fields

/-- Two words are one exactly when their fields are. -/
theorem fieldsWord_inj {rsv rsv' byte byte' : BitVec 8} {nw nw' pos pos' : BitVec 4} {opc opc' : BitVec 8} :
    fieldsWord rsv byte nw pos opc = fieldsWord rsv' byte' nw' pos' opc' ↔
      rsv = rsv' ∧ byte = byte' ∧ nw = nw' ∧ pos = pos' ∧ opc = opc' := by
  constructor
  · intro h
    exact ⟨by simpa using congrArg fieldRsv h, by simpa using congrArg fieldByte h, by simpa using congrArg fieldNw h,
      by simpa using congrArg fieldPos h, by simpa using congrArg fieldOpc h⟩
  · rintro ⟨rfl, rfl, rfl, rfl, rfl⟩; rfl

/-- A mask applies to each field by itself. -/
theorem fieldsWord_and (rsv rsv' byte byte' : BitVec 8) (nw nw' pos pos' : BitVec 4) (opc opc' : BitVec 8) :
    fieldsWord rsv byte nw pos opc &&& fieldsWord rsv' byte' nw' pos' opc' =
      fieldsWord (rsv &&& rsv') (byte &&& byte') (nw &&& nw') (pos &&& pos') (opc &&& opc') := by
  simp only [fieldsWord, ← BitVec.and_append]

/-! The fields by division, as R59 numbers the bits. -/

theorem fieldOpc_toNat (c : Word32) : (fieldOpc c).toNat = c.toNat % 256 := by
  simp [fieldOpc]

theorem fieldPos_eq (c : Word32) : fieldPos c = BitVec.ofNat 4 (c.toNat / 2 ^ 8) := by
  rw [← Nat.shiftRight_eq_div_pow]; rfl

theorem fieldNw_eq (c : Word32) : fieldNw c = BitVec.ofNat 4 (c.toNat / 2 ^ 12) := by
  rw [← Nat.shiftRight_eq_div_pow]; rfl

theorem fieldByte_eq (c : Word32) : fieldByte c = BitVec.ofNat 8 (c.toNat / 2 ^ 16) := by
  rw [← Nat.shiftRight_eq_div_pow]; rfl

theorem fieldRsv_eq (c : Word32) : fieldRsv c = BitVec.ofNat 8 (c.toNat / 2 ^ 24) := by
  rw [← Nat.shiftRight_eq_div_pow]; rfl

theorem fieldNw_toNat (c : Word32) : (fieldNw c).toNat = c.toNat / 2 ^ 12 % 16 := by
  rw [fieldNw_eq, BitVec.toNat_ofNat]

theorem fieldPos_eq_zero (c : Word32) : fieldPos c = 0#4 ↔ c.toNat / 2 ^ 8 % 16 = 0 := by
  rw [fieldPos_eq, ← BitVec.toNat_inj]; rfl

theorem fieldNw_eq_zero (c : Word32) : fieldNw c = 0#4 ↔ c.toNat / 2 ^ 12 % 16 = 0 := by
  rw [fieldNw_eq, ← BitVec.toNat_inj]; rfl

theorem fieldByte_eq_zero (c : Word32) : fieldByte c = 0#8 ↔ c.toNat / 2 ^ 16 % 256 = 0 := by
  rw [fieldByte_eq, ← BitVec.toNat_inj]; rfl

theorem fieldRsv_eq_zero (c : Word32) : fieldRsv c = 0#8 ↔ c.toNat / 2 ^ 24 = 0 := by
  have hlt : c.toNat < 2 ^ 32 := c.isLt
  have hmod : c.toNat / 2 ^ 24 % 2 ^ 8 = c.toNat / 2 ^ 24 := by omega
  rw [fieldRsv_eq, ← BitVec.toNat_inj, BitVec.toNat_ofNat, hmod]; rfl

/-! The opcode map (R62). -/

/-- The row of the opcode map a command is in. -/
def Instr.opcode : Instr → Opcode
  | .getbit _ _ => .getbit
  | .setbit _ _ => .setbit
  | .rdfix _ => .rdfix
  | .wrfix _ => .wrfix
  | .analyze => .analyze
  | .build => .build
  | .tenc => .tenc
  | .tdec => .tdec
  | .eenc => .eenc
  | .edec => .edec
  | .penc => .penc
  | .pdec => .pdec

/-- The OPC value of a row. -/
def Opcode.opc : Opcode → BitVec 8
  | .getbit => 0x01#8
  | .setbit => 0x02#8
  | .rdfix => 0x03#8
  | .wrfix => 0x04#8
  | .analyze => 0x10#8
  | .build => 0x11#8
  | .tenc => 0x20#8
  | .tdec => 0x21#8
  | .eenc => 0x30#8
  | .edec => 0x31#8
  | .penc => 0x40#8
  | .pdec => 0x41#8

@[simp] theorem opcodeOf_opc (o : Opcode) : opcodeOf o.opc = some o := by
  cases o <;> rfl

/-- An OPC value selects the row that has it, and no other. -/
theorem opcodeOf_eq_some {opc : BitVec 8} {o : Opcode} : opcodeOf opc = some o ↔ opc = o.opc := by
  constructor
  · intro h
    unfold opcodeOf at h
    split at h <;> cases h <;> exact BitVec.eq_of_toNat_eq ‹_›
  · rintro rfl
    exact opcodeOf_opc o

/-- The operands do not change the row. -/
@[simp] theorem assemble_opcode (o : Opcode) (c : Word32) : (assemble o c).opcode = o := by
  cases o <;> rfl

/-! What `decode` answers (R63). -/

theorem formatOk_fb {c : Word32} : formatOk .fb c = true ↔ fieldNw c = 0#4 := by
  simp [formatOk]

theorem formatOk_fn {c : Word32} :
    formatOk .fn c = true ↔ fieldPos c = 0#4 ∧ fieldByte c = 0#8 ∧ nwLegal (fieldNw c) = true := by
  simp [formatOk, and_assoc]

theorem formatOk_fz {c : Word32} :
    formatOk .fz c = true ↔ fieldPos c = 0#4 ∧ fieldNw c = 0#4 ∧ fieldByte c = 0#8 := by
  simp [formatOk, and_assoc]

/-- R63's three checks, for the row whose OPC the word has. -/
def Decodes (c : Word32) (o : Opcode) : Prop :=
  fieldOpc c = o.opc ∧ fieldRsv c = 0#8 ∧ formatOk (formatOf o) c = true

/-- A word decodes to a command exactly when it passes the checks of the command's row and has its operands. -/
theorem decode_eq_ok {c : Word32} {i : Instr} : decode c = .ok i ↔ Decodes c i.opcode ∧ assemble i.opcode c = i := by
  constructor
  · intro h
    unfold decode at h
    split at h
    · cases h
    · next o ho =>
      split at h
      · cases h
      · next hrsv =>
        split at h
        · next hformat =>
          cases h
          simp only [assemble_opcode, and_true]
          exact ⟨opcodeOf_eq_some.mp ho, not_not.mp hrsv, hformat⟩
        · cases h
  · rintro ⟨⟨hopc, hrsv, hformat⟩, hi⟩
    simp [decode, hopc, hrsv, hformat, hi]

theorem Decodes.decode_eq {c : Word32} {o : Opcode} (h : Decodes c o) : decode c = .ok (assemble o c) :=
  decode_eq_ok.mpr (by simpa using h)

/-! `encode` and `decode` are inverse to each other. -/

theorem fieldOpc_encode (i : Instr) : fieldOpc (encode i) = i.opcode.opc := by
  cases i <;> exact fieldOpc_fieldsWord ..

theorem fieldRsv_encode (i : Instr) : fieldRsv (encode i) = 0#8 := by
  cases i <;> exact fieldRsv_fieldsWord ..

/-- A well-formed command's word has its must-be-zero fields 0 and, for RDFIX and WRFIX, a legal NW. -/
theorem formatOk_encode {i : Instr} (h : i.wellFormed = true) : formatOk (formatOf i.opcode) (encode i) = true := by
  cases i
  case getbit | setbit => exact formatOk_fb.mpr (fieldNw_fieldsWord ..)
  case rdfix nw | wrfix nw =>
    have hnw : nwLegal nw = true := h
    exact formatOk_fn.mpr ⟨fieldPos_fieldsWord .., fieldByte_fieldsWord .., by rwa [encode, wordOf_eq_fieldsWord,
      fieldNw_fieldsWord]⟩
  all_goals exact formatOk_fz.mpr ⟨fieldPos_fieldsWord .., fieldNw_fieldsWord .., fieldByte_fieldsWord ..⟩

/-- The word of a well-formed command passes the checks of the command's row. -/
theorem decodes_encode {i : Instr} (h : i.wellFormed = true) : Decodes (encode i) i.opcode :=
  ⟨fieldOpc_encode i, fieldRsv_encode i, formatOk_encode h⟩

/-- The operands of a command's word are the command's. -/
theorem assemble_encode (i : Instr) : assemble i.opcode (encode i) = i := by
  cases i <;> simp [assemble, encode, wordOf_eq_fieldsWord, Instr.opcode]

/-- Only RDFIX and WRFIX need a check to be well formed, and it is R63's of NW. -/
theorem Decodes.wellFormed {c : Word32} {o : Opcode} (h : Decodes c o) : (assemble o c).wellFormed = true := by
  obtain ⟨-, -, hformat⟩ := h
  cases o
  case rdfix | wrfix =>
    obtain ⟨-, -, hnw⟩ := formatOk_fn.mp hformat
    exact hnw
  all_goals rfl

/-- A word that passes the checks of a row has nothing in it but OPC and the operands of the row. -/
theorem Decodes.encode_assemble {c : Word32} {o : Opcode} (h : Decodes c o) : encode (assemble o c) = c := by
  obtain ⟨hopc, hrsv, hformat⟩ := h
  refine Eq.trans ?_ (fieldsWord_fields c)
  rw [hopc, hrsv]
  cases o
  case getbit | setbit =>
    rw [formatOk_fb.mp hformat]
    rfl
  case rdfix | wrfix =>
    obtain ⟨hpos, hbyte, -⟩ := formatOk_fn.mp hformat
    rw [hpos, hbyte]
    rfl
  all_goals
    obtain ⟨hpos, hnw, hbyte⟩ := formatOk_fz.mp hformat
    rw [hpos, hnw, hbyte]
    rfl

/-- Settles O2: the fields of a command's word are those `encode` put there, and a well-formed command's pass the checks. -/
theorem decodeInvertsEncode : Obligations.DecodeInvertsEncode := by
  unfold Obligations.DecodeInvertsEncode
  intro i h
  exact decode_eq_ok.mpr ⟨decodes_encode h, assemble_encode i⟩

/-- Settles O3: a word that decodes is zero outside OPC and the operands, which are all that `encode` writes. -/
theorem encodeInvertsDecode : Obligations.EncodeInvertsDecode := by
  unfold Obligations.EncodeInvertsDecode
  intro c i h
  obtain ⟨hdec, hi⟩ := decode_eq_ok.mp h
  rw [← hi]
  exact ⟨hdec.wellFormed, hdec.encode_assemble⟩

/-! The match and mask columns (R62). -/

/-- The mask of a format: the fields it takes no operand from, RSV and OPC among them. -/
def Format.mask : Format → Word32
  | .fb => fieldsWord 0xFF#8 0x00#8 0xF#4 0x0#4 0xFF#8
  | .fn => fieldsWord 0xFF#8 0xFF#8 0x0#4 0xF#4 0xFF#8
  | .fz => fieldsWord 0xFF#8 0xFF#8 0xF#4 0xF#4 0xFF#8

theorem rowMask_eq (i : Instr) : rowMask i = (formatOf i.opcode).mask := by
  cases i <;> rfl

theorem rowMatch_eq (i : Instr) : rowMatch i = fieldsWord 0#8 0#8 0#4 0#4 i.opcode.opc := by
  cases i <;> simp [rowMatch, fieldsWord, Instr.opcode, Opcode.opc]

/-- Only RDFIX and WRFIX have the mask that leaves NW free. -/
theorem rowMask_eq_fn {i : Instr} : rowMask i = 0xFFFF0FFF#32 ↔ formatOf i.opcode = .fn := by
  cases i <;> simp [rowMask, formatOf, Instr.opcode]

/-- A masked word is its fields masked one by one, so it meets `match` when OPC is the row's and the other fields the mask
keeps are 0; those are the fields that R63 checks. -/
theorem row_selects_iff {c : Word32} {i : Instr} :
    (c &&& rowMask i = rowMatch i ∧ (rowMask i = 0xFFFF0FFF#32 → nwLegal (fieldNw c) = true)) ↔ Decodes c i.opcode := by
  rw [Decodes, rowMask_eq_fn, rowMask_eq, rowMatch_eq]
  conv_lhs => rw [← fieldsWord_fields c]
  have hones (x : BitVec 8) : x &&& 0xFF#8 = x := BitVec.and_allOnes
  have hones4 (x : BitVec 4) : x &&& 0xF#4 = x := BitVec.and_allOnes
  cases formatOf i.opcode
  all_goals
    simp [Format.mask, fieldsWord_and, fieldsWord_inj, formatOk_fb, formatOk_fn, formatOk_fz, hones, hones4, and_assoc,
      and_comm, and_left_comm]

theorem fieldOpc_and (c d : Word32) : fieldOpc (c &&& d) = fieldOpc c &&& fieldOpc d := BitVec.extractLsb'_and

/-- Every mask keeps the whole of OPC. -/
theorem fieldOpc_mask (f : Format) : fieldOpc f.mask = BitVec.allOnes 8 := by
  cases f <;> exact fieldOpc_fieldsWord ..

theorem fieldOpc_of_row {c : Word32} {i : Instr} (h : c &&& rowMask i = rowMatch i) : fieldOpc c = i.opcode.opc := by
  have hopc : fieldOpc (c &&& rowMask i) = fieldOpc (rowMatch i) := by rw [h]
  rwa [fieldOpc_and, rowMask_eq, fieldOpc_mask, BitVec.and_allOnes, rowMatch_eq, fieldOpc_fieldsWord] at hopc

/-- Settles O5: meeting a row's columns, NW apart, is passing the row's checks, and a word has one OPC. -/
theorem matchAndMaskSelectTheRow : Obligations.MatchAndMaskSelectTheRow := by
  unfold Obligations.MatchAndMaskSelectTheRow
  constructor
  · intro c i hsel hnw
    have hdec : Decodes c i.opcode := row_selects_iff.mp ⟨hsel, hnw⟩
    refine ⟨_, hdec.decode_eq, ?_, ?_⟩
    · rw [rowMatch_eq, rowMatch_eq, assemble_opcode]
    · rw [rowMask_eq, rowMask_eq, assemble_opcode]
  · intro c j h
    obtain ⟨hdec, -⟩ := decode_eq_ok.mp h
    obtain ⟨hsel, hnw⟩ := row_selects_iff.mpr hdec
    refine ⟨hsel, hnw, fun i hi => ?_⟩
    rw [rowMatch_eq, rowMatch_eq, ← fieldOpc_of_row hsel, ← fieldOpc_of_row hi]

/-! R63's checks with the fields taken by division (R59), and the refusals (R63, R64). -/

theorem nwLegal_iff (nw : BitVec 4) : nwLegal nw = true ↔ nw.toNat ∈ [1, 2, 4, 8] := by
  simp [nwLegal, ← BitVec.toNat_inj, or_assoc]

theorem fieldOpc_eq_opc {c : Word32} {o : Opcode} : fieldOpc c = o.opc ↔ c.toNat % 256 = o.opc.toNat := by
  rw [← BitVec.toNat_inj, fieldOpc_toNat]

/-- OPC is assigned exactly when it is the OPC of a row. -/
theorem opcAssigned_iff (c : Word32) : Machine.opcAssigned c ↔ ∃ o : Opcode, fieldOpc c = o.opc := by
  simp only [Machine.opcAssigned, fieldOpc_eq_opc, List.mem_cons, List.not_mem_nil, or_false]
  constructor
  · rintro (h | h | h | h | h | h | h | h | h | h | h | h)
    exacts [⟨.getbit, h⟩, ⟨.setbit, h⟩, ⟨.rdfix, h⟩, ⟨.wrfix, h⟩, ⟨.analyze, h⟩, ⟨.build, h⟩, ⟨.tenc, h⟩, ⟨.tdec, h⟩,
      ⟨.eenc, h⟩, ⟨.edec, h⟩, ⟨.penc, h⟩, ⟨.pdec, h⟩]
  · rintro ⟨o, h⟩
    rw [h]
    cases o <;> decide

/-- The rows of the format FB are those of GETBIT and SETBIT (R62). -/
theorem opc_mem_fb (o : Opcode) : o.opc.toNat ∈ [0x01, 0x02] ↔ formatOf o = .fb := by
  cases o <;> decide

/-- The rows of the format FN are those of RDFIX and WRFIX (R62). -/
theorem opc_mem_fn (o : Opcode) : o.opc.toNat ∈ [0x03, 0x04] ↔ formatOf o = .fn := by
  cases o <;> decide

/-- All other rows have the format FZ (R62). -/
theorem opc_not_mem_fz (o : Opcode) : o.opc.toNat ∉ [0x01, 0x02, 0x03, 0x04] ↔ formatOf o = .fz := by
  cases o <;> decide

/-- The three must-be-zero fields of the format FZ are the bits 8 to 23 (R59, R60). -/
theorem middle_eq_zero (c : Word32) :
    c.toNat / 2 ^ 8 % 2 ^ 16 = 0 ↔ (fieldPos c = 0#4 ∧ fieldNw c = 0#4) ∧ fieldByte c = 0#8 := by
  rw [fieldPos_eq_zero, fieldNw_eq_zero, fieldByte_eq_zero]
  omega

/-- Under an assigned OPC, a word is illegal exactly when RSV or a field of the row's format fails its check (R63, R64). -/
theorem encodingIllegal_iff {c : Word32} {o : Opcode} (hopc : fieldOpc c = o.opc) :
    Machine.encodingIllegal c ↔ fieldRsv c ≠ 0#8 ∨ formatOk (formatOf o) c = false := by
  rw [Machine.encodingIllegal, fieldOpc_eq_opc.mp hopc, opc_mem_fb, opc_mem_fn, opc_not_mem_fz]
  simp only [ne_eq, ← fieldRsv_eq_zero, ← fieldNw_eq_zero, ← fieldPos_eq_zero, ← fieldByte_eq_zero, middle_eq_zero]
  rw [← fieldNw_toNat, ← nwLegal_iff]
  cases formatOf o with
  | fb => simp [formatOk]
  | fn => simp [formatOk, ← imp_iff_not_or]
  | fz => simp [formatOk, and_imp]

/-- An unassigned OPC is refused first (R63). -/
theorem decode_badOpcode {c : Word32} (h : ¬Machine.opcAssigned c) : decode c = .error .badOpcode := by
  have hnone : opcodeOf (fieldOpc c) = none :=
    Option.eq_none_iff_forall_ne_some.mpr fun o ho => h ((opcAssigned_iff c).mpr ⟨o, opcodeOf_eq_some.mp ho⟩)
  simp [decode, hnone]

/-- An illegal field is refused next (R63). -/
theorem decode_badEncoding {c : Word32} (hopc : Machine.opcAssigned c) (h : Machine.encodingIllegal c) :
    decode c = .error .badEncoding := by
  obtain ⟨o, ho⟩ := (opcAssigned_iff c).mp hopc
  rcases (encodingIllegal_iff ho).mp h with hrsv | hformat
  · simp [decode, ho, hrsv]
  · simp [decode, ho, hformat]

/-- A word that is not refused is the command of its row (R63). -/
theorem decode_of_legal {c : Word32} (o : Opcode) (h : ¬Machine.encodingIllegal c) (hopc : c.toNat % 256 = o.opc.toNat) :
    decode c = .ok (assemble o c) := by
  have ho : fieldOpc c = o.opc := fieldOpc_eq_opc.mpr hopc
  rw [encodingIllegal_iff ho] at h
  simp only [not_or, ne_eq, not_not, Bool.not_eq_false] at h
  exact Decodes.decode_eq ⟨ho, h⟩

/-- Settles O4: the two refusals in R63's order, and the row of each OPC with the operands of R61. -/
theorem decodeChecksInOrder : Obligations.DecodeChecksInOrder := by
  unfold Obligations.DecodeChecksInOrder
  intro c
  refine ⟨decode_badOpcode, decode_badEncoding, fun h => ?_⟩
  rw [← fieldByte_eq, ← fieldPos_eq, ← fieldNw_eq]
  exact ⟨decode_of_legal .getbit h, decode_of_legal .setbit h, decode_of_legal .rdfix h, decode_of_legal .wrfix h,
    decode_of_legal .analyze h, decode_of_legal .build h, decode_of_legal .tenc h, decode_of_legal .tdec h,
    decode_of_legal .eenc h, decode_of_legal .edec h, decode_of_legal .penc h, decode_of_legal .pdec h⟩

/-- Settles O1: each word is the word of its command. -/
theorem writtenWordsDecode : Obligations.WrittenWordsDecode :=
  ⟨decodeInvertsEncode (.setbit 0x00#8 0#4) rfl, decodeInvertsEncode (.getbit 0x58#8 1#4) rfl,
    decodeInvertsEncode (.rdfix 4#4) rfl, decodeInvertsEncode (.wrfix 8#4) rfl, decodeInvertsEncode .tdec rfl,
    decodeInvertsEncode .analyze rfl, decodeInvertsEncode .eenc rfl, decodeInvertsEncode .penc rfl⟩

end Sys2Proof

namespace Sys2Proof.Machine

/-- With ERR = 0 a word that does not decode raises the reason of its refusal (R63, R64). -/
theorem issue_refused {s : State} {c : Word32} {e : DecodeReject} (herr : s.err = false) (hd : decode c = .error e) :
    issue c s = .next (raiseFault (rejectReason e) s) := by
  simp [issue, herr, hd]

/-- Settles O7: `decode` refuses the word, and the reason of the refusal is raised. -/
theorem illegalWordRaisesContract : Obligations.IllegalWordRaisesContract := by
  unfold Obligations.IllegalWordRaisesContract
  intro s c rest herr
  have herr' : ({ s with host := rest } : State).err = false := herr
  simp only [step_action, hostAct]
  exact ⟨fun hopc => issue_refused herr' (decode_badOpcode hopc),
    fun hopc henc => issue_refused herr' (decode_badEncoding hopc henc)⟩

end Sys2Proof.Machine

/-! The pseudo-commands ENCODE and DECODE, action by action (30_encoding.md R67, 70_reset_and_hazards.md R131). -/

namespace Sys2Proof.Machine

/-! No command reads the actions still to come (log 1). -/

/-- `acts` in place of the host's actions, in the state a pseudocode leaves. -/
def CmdResult.withHost (acts : List HostAction) : CmdResult → CmdResult
  | .done s => .done { s with host := acts }
  | .raised s r => .raised { s with host := acts } r

section Accessors

variable (acts : List HostAction) (s : State)

theorem cursor_withHost : cursor { s with host := acts } = cursor s := rfl

theorem inRest_withHost : inRest { s with host := acts } = inRest s := rfl

theorem memRead_withHost (a n : Nat) : memRead { s with host := acts } a n = memRead s a n := rfl

theorem entityWidth_withHost : entityWidth { s with host := acts } = entityWidth s := rfl

end Accessors

/-- A pseudocode neither reads nor writes the actions. -/
theorem commandBody_withHost (P : Params) (i : Instr) (acts : List HostAction) (s : State) :
    commandBody P i { s with host := acts } = (commandBody P i s).withHost acts := by
  cases i with
  | getbit b p => simp only [commandBody, getbitBody]; split <;> rfl
  | setbit b p => simp only [commandBody, setbitBody]; split <;> rfl
  | rdfix nw =>
    simp only [commandBody, rdfixBody, cursor_withHost, memRead_withHost]
    split
    · rfl
    · split <;> rfl
  | wrfix nw =>
    simp only [commandBody, wrfixBody]
    split
    · rfl
    · split <;> rfl
  | analyze =>
    simp only [commandBody, analyzeBody, entityWidth_withHost]
    split
    · rfl
    · split <;> rfl
  | build => rfl
  | tenc =>
    simp only [commandBody, tencBody]
    split
    · rfl
    · split
      · rfl
      · split <;> rfl
  | tdec =>
    simp only [commandBody, tdecBody, inRest_withHost, cursor_withHost]
    split
    · split <;> rfl
    · split
      · rfl
      · split <;> rfl
  | eenc => simp only [commandBody, eencBody]; split <;> rfl
  | edec =>
    simp only [commandBody, edecBody, entityWidth_withHost, inRest_withHost, cursor_withHost]
    split
    · rfl
    · split <;> rfl
  | penc =>
    simp only [commandBody, pencBody, entityWidth_withHost]
    split
    · rfl
    · split
      · rfl
      · split
        · rfl
        · split <;> rfl
  | pdec => simp only [commandBody, pdecBody, inRest_withHost, cursor_withHost]; split <;> rfl

theorem runCommand_withHost (P : Params) (i : Instr) (acts : List HostAction) (s : State) :
    runCommand (commandBody P i) { s with host := acts } = { runCommand (commandBody P i) s with host := acts } := by
  by_cases herr : s.err = true
  · rw [runCommand_rejected _ s herr, runCommand_rejected _ { s with host := acts } herr]; rfl
  · have herr : s.err = false := by simpa using herr
    rw [runCommand_runs _ s herr, runCommand_runs _ { s with host := acts } herr, commandBody_withHost]
    cases commandBody P i s <;> rfl

/-! Words issued one after the other (R131). -/

/-- The commands `is` run one after the other. -/
def runCommands (P : Params) (is : List Instr) (s : State) : State :=
  is.foldl (fun t i => runCommand (commandBody P i) t) s

theorem runSteps_succ {s t : State} (n : Nat) (h : step s = .next t) : runSteps (n + 1) s = runSteps n t := by
  rw [runSteps, h]

/-- The step that issues a well-formed command's word runs the command, the rest of the actions staying to come (R24, R25). -/
theorem step_issue_encode {i : Instr} (hwf : i.wellFormed = true) (rest : List HostAction) (s : State) :
    step { s with host := .issue (encode i) :: rest } =
      .next { runCommand (commandBody Config.params i) s with host := rest } := by
  rw [step_action, hostAct, issue_eq_exec _ i _ (decodeInvertsEncode i hwf), exec_eq_runCommand, runCommand_withHost]

/-- Issuing the words of well-formed commands, in one step each, runs the commands. -/
theorem runSteps_issues {is : List Instr} (hwf : ∀ i ∈ is, i.wellFormed = true) (rest : List HostAction) (s : State) :
    runSteps is.length { s with host := is.map (fun i => .issue (encode i)) ++ rest } =
      .next (runCommands Config.params is { s with host := rest }) := by
  induction is generalizing s with
  | nil => rfl
  | cons i is ih =>
    obtain ⟨hi, his⟩ := List.forall_mem_cons.mp hwf
    rw [List.length_cons, List.map_cons, List.cons_append, runSteps_succ _ (step_issue_encode hi _ s), ih his,
      ← runCommand_withHost]
    rfl

/-- The step that writes ENTITY_SIZE (R30). -/
theorem step_writeEntitySize (w : Word64) (rest : List HostAction) (s : State) :
    step { s with host := .writeCsr 0x5#4 w :: rest } =
      .next { s with entitySize := BitVec.ofNat 8 w.toNat, host := rest } := by
  rw [step_action, hostAct_writeCsr _ _ _ (by decide), BitVec.ofNat_toNat]
  rfl

/-- Settles O46: after the write of ENTITY_SIZE every action issues a command's word. -/
theorem pseudoCommandsRunAsWritten : Obligations.PseudoCommandsRunAsWritten := by
  unfold Obligations.PseudoCommandsRunAsWritten
  intro s w rest
  constructor
  · rw [pseudoEncode, List.cons_append, runSteps_succ _ (step_writeEntitySize w _ s)]
    exact runSteps_issues (is := [.analyze, .build, .eenc, .tenc, .penc]) (by decide) rest
      { s with entitySize := BitVec.ofNat 8 w.toNat }
  · exact runSteps_issues (is := [.edec, .tdec, .pdec]) (by decide) rest s

end Sys2Proof.Machine

/-! The bit primitives, each as a whole (40_bit_primitives.md R69 to R73). -/

namespace Sys2Proof

/-- A word as a number: each field at the weight of its lowest bit (R59). -/
theorem wordOf_eq_ofNat (byte : BitVec 8) (nw pos : BitVec 4) (opc : BitVec 8) :
    wordOf byte nw pos opc =
      BitVec.ofNat 32 (byte.toNat * 2 ^ 16 + nw.toNat * 2 ^ 12 + pos.toNat * 2 ^ 8 + opc.toNat) := by
  have field {n : Nat} {f g : BitVec n} (h : f = g) : f.toNat = g.toNat := congrArg BitVec.toNat h
  have hopc := field (fieldOpc_fieldsWord 0#8 byte nw pos opc)
  have hpos := field (fieldPos_fieldsWord 0#8 byte nw pos opc)
  have hnw := field (fieldNw_fieldsWord 0#8 byte nw pos opc)
  have hbyte := field (fieldByte_fieldsWord 0#8 byte nw pos opc)
  have hrsv := (fieldRsv_eq_zero _).mp (fieldRsv_fieldsWord 0#8 byte nw pos opc)
  rw [fieldOpc_toNat] at hopc
  rw [fieldPos_eq, BitVec.toNat_ofNat] at hpos
  rw [fieldNw_toNat] at hnw
  rw [fieldByte_eq, BitVec.toNat_ofNat] at hbyte
  rw [wordOf_eq_fieldsWord]
  bv_omega

end Sys2Proof

namespace Sys2Proof.Machine

/-! A command whose pseudocode is known (R26, R111). -/

theorem runCommand_of_done {body : State → CmdResult} {s t : State} (herr : s.err = false) (h : body s = .done t) :
    runCommand body s = t := by
  rw [runCommand_runs body s herr, h]; rfl

theorem runCommand_of_raised {body : State → CmdResult} {s t : State} {r : Reason} (herr : s.err = false)
    (h : body s = .raised t r) : runCommand body s = faulted r.kind.code r.code t := by
  rw [runCommand_runs body s herr, h]; rfl

/-! Integers as sums over their bytes (R16). -/

theorem fromBytesLE_eq_sum (bs : List Byte) :
    fromBytesLE bs = ∑ i ∈ Finset.range bs.length, (bs.getD i 0#8).toNat * 256 ^ i := by
  induction bs with
  | nil => rfl
  | cons b bs ih =>
    rw [fromBytesLE, ih, List.length_cons, Finset.sum_range_succ', Finset.mul_sum, Nat.add_comm]
    simp [pow_succ', Nat.mul_left_comm]

theorem fromBytesLE_reverse_eq_sum (bs : List Byte) :
    fromBytesLE bs.reverse =
      ∑ i ∈ Finset.range bs.length, (bs.getD i 0#8).toNat * 256 ^ (bs.length - 1 - i) := by
  rw [fromBytesLE_eq_sum, List.length_reverse, ← Finset.sum_range_reflect]
  refine Finset.sum_congr rfl fun i hi => ?_
  have hi : i < bs.length := Finset.mem_range.mp hi
  rw [List.getD_eq_getElem _ _ (by rw [List.length_reverse]; omega), List.getD_eq_getElem _ _ hi, List.getElem_reverse]
  congr 3
  omega

/-- A byte of a read is the byte of the stream at its offset. -/
theorem getD_take_drop {bs : List Byte} {a n i : Nat} (hi : i < n) :
    ((bs.drop a).take n).getD i 0#8 = bs.getD (a + i) 0#8 := by
  simp [List.getD_eq_getElem?_getD, List.getElem?_take_of_lt hi]

/-- The integer that `n` bytes read at `a` make, as R16 sums them. -/
theorem fromBytes_take_drop (o : ByteOrder) {bs : List Byte} {a n : Nat} (h : a + n ≤ bs.length) :
    fromBytes o ((bs.drop a).take n) = match o with
      | .le => ∑ i ∈ Finset.range n, (bs.getD (a + i) 0#8).toNat * 256 ^ i
      | .be => ∑ i ∈ Finset.range n, (bs.getD (a + i) 0#8).toNat * 256 ^ (n - 1 - i) := by
  have hlen : ((bs.drop a).take n).length = n := by rw [List.length_take, List.length_drop]; omega
  cases o with
  | le =>
    refine (fromBytesLE_eq_sum _).trans ?_
    rw [hlen]
    exact Finset.sum_congr rfl fun i hi => by rw [getD_take_drop (Finset.mem_range.mp hi)]
  | be =>
    refine (fromBytesLE_reverse_eq_sum _).trans ?_
    rw [hlen]
    exact Finset.sum_congr rfl fun i hi => by rw [getD_take_drop (Finset.mem_range.mp hi)]

/-! The bytes of an integer (R16). -/

theorem toBytesLE_eq_map (n v : Nat) : toBytesLE n v = (List.range n).map fun i => BitVec.ofNat 8 (v / 256 ^ i) := by
  induction n generalizing v with
  | zero => rfl
  | succ n ih =>
    have hbyte : BitVec.ofNat 8 (v % 256) = BitVec.ofNat 8 v := by bv_omega
    simp [toBytesLE, ih, hbyte, List.range_succ_eq_map, Function.comp_def, Nat.div_div_eq_div_mul, pow_succ']

theorem toBytesLE_reverse_eq_map (n v : Nat) :
    (toBytesLE n v).reverse = (List.range n).map fun i => BitVec.ofNat 8 (v / 256 ^ (n - 1 - i)) := by
  rw [toBytesLE_eq_map]
  refine List.ext_getElem (by simp) fun i _ _ => ?_
  simp

/-- The n bytes of `v` are those of its low n bytes. -/
theorem toBytesLE_mod (n v : Nat) : toBytesLE n (v % 256 ^ n) = toBytesLE n v := by
  induction n generalizing v with
  | zero => rfl
  | succ n ih =>
    rw [toBytesLE, toBytesLE, pow_succ', Nat.mod_mul_right_mod, Nat.mod_mul_right_div_self, ih]

theorem toBytes_mod (o : ByteOrder) (n v : Nat) : toBytes o n (v % 256 ^ n) = toBytes o n v := by
  cases o <;> simp only [toBytes, toBytesLE_mod]

theorem toBytes_eq_map (o : ByteOrder) (n v : Nat) :
    toBytes o n v = (List.range n).map fun i => match o with
      | .le => BitVec.ofNat 8 (v / 256 ^ i)
      | .be => BitVec.ofNat 8 (v / 256 ^ (n - 1 - i)) := by
  cases o with
  | le => exact toBytesLE_eq_map n v
  | be => exact toBytesLE_reverse_eq_map n v

/-! RDFIX and WRFIX (R71, R72). -/

section FixedWidth

variable (P : Params) {nw : BitVec 4} (hnw : nw.toNat ∈ [1, 2, 4, 8]) {s : State}
include hnw

theorem rdfixBody_done (h : cursor s + nw.toNat ≤ s.inStream.length) :
    rdfixBody P nw s =
      .done (setResult (BitVec.ofNat 64 (fromBytes P.nativeOrder ((s.inStream.drop (cursor s)).take nw.toNat)))
        (setCursor (cursor s + nw.toNat) s)) := by
  simp [rdfixBody, fixWidth_eq_some nw hnw, memRead, h]

theorem rdfixBody_exhausted (h : s.inStream.length < cursor s + nw.toNat) :
    rdfixBody P nw s = .raised (setCursor s.inStream.length s) .exhausted := by
  simp [rdfixBody, fixWidth_eq_some nw hnw, memRead, Nat.not_le.mpr h]

/-- RDFIX over an IN of just its n bytes reads the whole of IN. -/
theorem rdfixBody_whole (hcur : s.icur = 0#64) (h : s.inStream.length = nw.toNat) :
    rdfixBody P nw s =
      .done (setResult (BitVec.ofNat 64 (fromBytes P.nativeOrder s.inStream)) (setCursor nw.toNat s)) := by
  have hzero : cursor s = 0 := congrArg BitVec.toNat hcur
  rw [rdfixBody_done P hnw (by omega), hzero, List.drop_zero, List.take_of_length_le h.le, Nat.zero_add]

theorem wrfixBody_done (h : outTooLong P (s.outStream.length + nw.toNat) = false) :
    wrfixBody P nw s =
      .done { s with outStream := s.outStream ++ toBytes P.nativeOrder nw.toNat s.operand.toNat } := by
  simp [wrfixBody, fixWidth_eq_some nw hnw, toBytes_mod, appendOut, toBytes_length, h]

theorem wrfixBody_outOverflow (h : outTooLong P (s.outStream.length + nw.toNat) = true) :
    wrfixBody P nw s = .raised s .outOverflow := by
  simp [wrfixBody, fixWidth_eq_some nw hnw, toBytes_mod, appendOut, toBytes_length, h]

end FixedWidth

theorem outTooLong_of_lt {P : Params} {m n : Nat} (hm : P.maxOutLen = some m) (h : m < n) : outTooLong P n = true := by
  simp [outTooLong, hm, h]

/-- Settles O19: the body's two ends, with the integer read written as R16's sum. -/
theorem rdfixReadsAnInteger : Obligations.RdfixReadsAnInteger := by
  unfold Obligations.RdfixReadsAnInteger
  intro nw s herr hnw
  refine ⟨?_, fun hfits => ?_, fun hshort => ?_⟩
  · simpa [encode] using wordOf_eq_ofNat 0#8 nw 0#4 0x03#8
  · have hfits : cursor s + nw.toNat ≤ s.inStream.length := hfits
    rw [exec_rdfix, runCommand_of_done herr (rdfixBody_done _ hnw hfits), fromBytes_take_drop _ hfits]
    rfl
  · rw [exec_rdfix, runCommand_of_raised herr (rdfixBody_exhausted _ hnw hshort)]
    rfl

/-- Settles O20: OUT of at most 2^64 - 1 bytes fits on every chip, and past MAX_OUT_LEN the append is refused. -/
theorem wrfixAppendsTheOperand : Obligations.WrfixAppendsTheOperand := by
  unfold Obligations.WrfixAppendsTheOperand
  intro nw s herr hnw
  refine ⟨fun hfits => ?_, fun P m hm hlong => ?_⟩
  · rw [exec_wrfix, runCommand_of_done herr (wrfixBody_done _ hnw (outTooLong_params _ hfits))]
    exact congrArg (fun bs => Host.Outcome.next { s with outStream := s.outStream ++ bs }) (toBytes_eq_map _ _ _)
  · exact runCommand_of_raised herr (wrfixBody_outOverflow P hnw (outTooLong_of_lt hm hlong))

/-- Settles O21: RDFIX reads the whole of what WRFIX appended, and `fromBytes` inverts `toBytes` (R16). -/
theorem rdfixReadsBackWrfix : Obligations.RdfixReadsBackWrfix := by
  unfold Obligations.RdfixReadsBackWrfix
  intro nw v s herr hout hnw hv
  have hlt : nw.toNat < 2 ^ 4 := nw.isLt
  have hfits : outTooLong Config.params (s.outStream.length + nw.toNat) = false :=
    outTooLong_params _ (by rw [hout, List.length_nil]; omega)
  have hbytes : s.outStream ++ toBytes Config.params.nativeOrder nw.toNat v.toNat =
      toBytes Config.params.nativeOrder nw.toNat v.toNat := by rw [hout, List.nil_append]
  refine ⟨_, _, congrArg Host.Outcome.next (runCommand_of_done herr (wrfixBody_done _ hnw hfits)),
    congrArg Host.Outcome.next (runCommand_of_done herr (rdfixBody_whole _ hnw rfl ?_)), herr, ?_⟩
  · exact (congrArg List.length hbytes).trans (toBytes_length _ _ _)
  · rw [setResult_result, hbytes, fromBytes_toBytes _ _ _ hv, BitVec.ofNat_toNat, BitVec.setWidth_eq]

/-! GETBIT and SETBIT (R69, R70). -/

theorem getBit_setWidth (byte : Byte) (p : Nat) :
    (getBit byte p).setWidth 64 = if byte.getLsbD (7 - p) then 1#64 else 0#64 := by
  rw [getBit_eq]
  cases byte.getLsbD (7 - p) <;> rfl

/-- Setting a bit adds its weight, or, the bit being set, nothing. -/
theorem setBit_toNat (byte : Byte) (p : Nat) :
    (setBit byte p).toNat = if byte.getLsbD (7 - p) then byte.toNat else byte.toNat + 2 ^ (7 - p) := by
  have hand := BitVec.and_twoPow byte (7 - p)
  have hpow : (BitVec.twoPow 8 (7 - p)).toNat = 2 ^ (7 - p) :=
    (BitVec.toNat_twoPow 8 _).trans (Nat.mod_eq_of_lt (Nat.pow_lt_pow_right (by decide) (by omega)))
  rw [setBit, ← BitVec.twoPow_eq]
  split
  · next hset =>
    rw [if_pos hset] at hand
    have habsorb (y : Byte) : byte ||| byte &&& y = byte := by ext; simp +contextual
    rw [← hand, habsorb]
  · next hclear =>
    rw [if_neg hclear] at hand
    rw [← BitVec.add_eq_or_of_and_eq_zero _ _ hand, BitVec.toNat_add_of_and_eq_zero hand, hpow]

theorem setBit_setWidth (byte : Byte) (p : Nat) :
    (setBit byte p).setWidth 64 =
      BitVec.ofNat 64 (if byte.getLsbD (7 - p) then byte.toNat else byte.toNat + 2 ^ (7 - p)) := by
  rw [← setBit_toNat, BitVec.ofNat_toNat]

/-- Settles O17: the word from its fields, then the two branches of the body. -/
theorem getbitReadsThePosition : Obligations.GetbitReadsThePosition := by
  unfold Obligations.GetbitReadsThePosition
  intro byte pos s herr
  refine ⟨?_, fun hpos => ?_, fun hpos => ?_⟩
  · simpa [encode] using wordOf_eq_ofNat byte 0#4 pos 0x01#8
  · rw [exec_getbit, runCommand_of_done herr (if_neg (Nat.not_lt.mpr hpos)), getBit_setWidth]
    rfl
  · rw [exec_getbit, runCommand_of_raised herr (if_pos hpos)]
    rfl

/-- Settles O18: the word from its fields, then the two branches of the body. -/
theorem setbitSetsThePosition : Obligations.SetbitSetsThePosition := by
  unfold Obligations.SetbitSetsThePosition
  intro byte pos s herr
  refine ⟨?_, fun hpos => ?_, fun hpos => ?_⟩
  · simpa [encode] using wordOf_eq_ofNat byte 0#4 pos 0x02#8
  · rw [exec_setbit, runCommand_of_done herr (if_neg (Nat.not_lt.mpr hpos)), setBit_setWidth]
    rfl
  · rw [exec_setbit, runCommand_of_raised herr (if_pos hpos)]
    rfl

end Sys2Proof.Machine

/-! BUILD (41_tree_builder.md R75 to R80): what the command leaves, how many draws it makes, and that every tree of the
greedy merge is some draws' tree. -/

namespace Sys2Proof.Machine

/-! The command (R75). -/

theorem runCommand_build (P : Params) {s : State} (herr : s.err = false) :
    runCommand (buildBody P) s =
      { s with tree := (buildTree P s.freq s.draws).1, draws := (buildTree P s.freq s.draws).2, freq := [] } :=
  runCommand_of_done herr rfl

theorem buildTree_eq_mergePool (P : Params) {m : List (Entity × Word64)} (k : Nat) (h : 2 ≤ m.length) :
    buildTree P m k = mergePool P m.length (leafPool m) k := by
  match m, h with
  | _ :: _ :: _, _ => rfl

theorem leafPool_ne_nil {m : List (Entity × Word64)} (h : 2 ≤ m.length) : leafPool m ≠ [] :=
  List.ne_nil_of_length_pos (by rw [length_leafPool]; omega)

/-- BUILD's tree of two or more entities is one the greedy merge returns (R78). -/
theorem greedyMerge_buildTree (P : Params) {m : List (Entity × Word64)} (k : Nat) (h : 2 ≤ m.length) :
    GreedyMerge (leafPool m) (buildTree P m k).1 := by
  rw [buildTree_eq_mergePool P k h]
  exact mergePool_greedy P _ _ k (leafPool_ne_nil h) (by rw [length_leafPool]; omega)

/-! The draws of the merge (R79). -/

theorem mergePool_of_length_lt_two (P : Params) (fuel : Nat) {pool : List ETree} (k : Nat) (h : pool.length < 2) :
    mergePool P fuel pool k = (pool.headD .absent, k) := by
  cases fuel with
  | zero => rfl
  | succ fuel => rw [mergePool, if_pos h]

/-- One round of `Merge`: two removals, and their Branch put back (R78). -/
theorem mergePool_succ {P : Params} {fuel k : Nat} {pool pool1 pool2 : List ETree} {x y : ETree} (h : 2 ≤ pool.length)
    (hx : removeMin P k pool = some (x, pool1)) (hy : removeMin P (k + 1) pool1 = some (y, pool2)) :
    mergePool P (fuel + 1) pool k =
      mergePool P fuel (pool2 ++ [.branch (treeFreq x + treeFreq y) x y]) (k + 2) := by
  rw [mergePool, if_neg (Nat.not_lt.mpr h)]
  simp only [hx, hy]

/-- The merge makes two draws in each of its rounds, one round less than the pool has trees. -/
theorem mergePool_draws (P : Params) (fuel : Nat) (pool : List ETree) (k : Nat) (hfuel : pool.length ≤ fuel + 1) :
    (mergePool P fuel pool k).2 = k + 2 * (pool.length - 1) := by
  induction fuel generalizing pool k with
  | zero =>
    rw [mergePool_of_length_lt_two P 0 k (by omega)]
    simp only; omega
  | succ fuel ih =>
    rcases Nat.lt_or_ge pool.length 2 with hlt | hge
    · rw [mergePool_of_length_lt_two P _ k hlt]
      simp only; omega
    · obtain ⟨x, pool1, hremove, hx, -⟩ := removeMin_spec P k (pool := pool)
        (List.ne_nil_of_length_pos (by omega))
      have hlen1 : pool.length = pool1.length + 1 := hx.length_eq
      obtain ⟨y, pool2, hremove1, hy, -⟩ := removeMin_spec P (k + 1) (pool := pool1)
        (List.ne_nil_of_length_pos (by omega))
      have hlen2 : pool1.length = pool2.length + 1 := hy.length_eq
      rw [mergePool_succ hge hremove hremove1, ih] <;> rw [List.length_append, List.length_singleton] <;> omega

/-- A tree of least frequency is what CHOOSE takes under some draw (R79). -/
theorem exists_draw_removeMin {pool pool1 : List ETree} {x : ETree} (hx : pool.Perm (x :: pool1))
    (minx : ∀ u ∈ pool, (treeFreq x).toNat ≤ (treeFreq u).toNat) :
    ∃ i pool1', pool1'.Perm pool1 ∧ ∀ (P : Params) (k : Nat), P.tieBreak k = i →
      removeMin P k pool = some (x, pool1') := by
  have hmem : x ∈ pool := hx.mem_iff.mpr List.mem_cons_self
  obtain ⟨t, ts, rfl⟩ := List.exists_cons_of_ne_nil (List.ne_nil_of_mem hmem)
  obtain ⟨⟨u, hu, hmin⟩, hle⟩ := minFreq_spec t ts
  obtain ⟨j, hj, hget⟩ := List.getElem_of_mem hmem
  have hgetD : (t :: ts).getD j .absent = x := by rw [List.getD_eq_getElem _ _ hj, hget]
  have hcand : j ∈ candidates (minFreq t ts) (t :: ts) :=
    mem_candidates.mpr ⟨hj, by rw [hgetD]; exact Nat.le_antisymm (hmin ▸ minx u hu) (hle x hmem)⟩
  obtain ⟨i, hi, hdraw⟩ := List.getElem_of_mem hcand
  refine ⟨i, (t :: ts).eraseIdx j, ?_, fun P k hP => ?_⟩
  · have hperm := (List.getElem_cons_eraseIdx_perm hj).trans hx
    rw [hget] at hperm
    exact hperm.cons_inv
  · have hchosen : drawCandidate P k (candidates (minFreq t ts) (t :: ts)) = j := by
      rw [drawCandidate, hP, Nat.mod_eq_of_lt hi, List.getD_eq_getElem _ _ hi, hdraw]
    simp only [removeMin, hchosen, hgetD]

/-- Every greedy merge is made under some draws: those before the draw numbered `k` are any, and each round fixes its two. -/
theorem GreedyMerge.exists_draws (P : Params) {p : List ETree} {t : ETree} (h : GreedyMerge p t) {pool : List ETree}
    (hpool : pool.Perm p) (fuel k : Nat) (hfuel : pool.length ≤ fuel + 1) (before : Nat → Nat) :
    ∃ draw : Nat → Nat, (∀ j < k, draw j = before j) ∧ (mergePool { P with tieBreak := draw } fuel pool k).1 = t := by
  induction h generalizing pool fuel k before with
  | last t =>
    obtain rfl := hpool.eq_singleton
    exact ⟨before, fun _ _ => rfl, by rw [mergePool_of_length_lt_two _ _ _ (by simp)]; rfl⟩
  | merge p pool1 pool2 x y t hx minx hy miny _ ih =>
    obtain ⟨i, pool1', hpool1, hchoose⟩ := exists_draw_removeMin (hpool.trans hx)
      (fun u hu => minx u (hpool.mem_iff.mp hu))
    obtain ⟨j, pool2', hpool2, hchoose1⟩ := exists_draw_removeMin (hpool1.trans hy)
      (fun u hu => miny u (hpool1.mem_iff.mp hu))
    have hlen : pool.length = pool2'.length + 2 := by
      rw [(hpool.trans hx).length_eq, List.length_cons, hy.length_eq, List.length_cons, hpool2.length_eq]
    obtain ⟨fuel, rfl⟩ : ∃ f, fuel = f + 1 := ⟨fuel - 1, by omega⟩
    obtain ⟨draw, hbefore, hrest⟩ := ih (pool := pool2' ++ [.branch (treeFreq x + treeFreq y) x y])
      ((List.perm_append_singleton _ _).trans (hpool2.cons _)) fuel (k + 2)
      (by rw [List.length_append, List.length_singleton]; omega)
      (Function.update (Function.update before k i) (k + 1) j)
    have hi : draw k = i := by rw [hbefore k (by omega)]; simp
    have hj : draw (k + 1) = j := by rw [hbefore (k + 1) (by omega)]; simp
    refine ⟨draw, fun n hn => ?_, ?_⟩
    · rw [hbefore n (by omega), Function.update_of_ne (by omega), Function.update_of_ne (by omega)]
    · rw [mergePool_succ (by omega) (hchoose _ k hi) (hchoose1 _ (k + 1) hj)]
      exact hrest

/-- Settles O24: the two cases of BUILD without a merge. -/
theorem buildOfNoneAndOne : Obligations.BuildOfNoneAndOne := by
  unfold Obligations.BuildOfNoneAndOne
  refine fun s herr => ⟨fun hfreq => ?_, fun v f hfreq => ?_⟩ <;>
  · rw [exec_build, runCommand_build _ herr, hfreq]
    simp [buildTree, ← hfreq]

/-- Settles O25: the merge is a greedy one and makes two draws a round. -/
theorem buildIsAGreedyMerge : Obligations.BuildIsAGreedyMerge := by
  unfold Obligations.BuildIsAGreedyMerge
  intro s herr hlen
  refine ⟨_, ?_, greedyMerge_buildTree Config.params s.draws hlen⟩
  have hdraws := mergePool_draws Config.params s.freq.length (leafPool s.freq) s.draws (by rw [length_leafPool]; omega)
  rw [length_leafPool, ← buildTree_eq_mergePool _ _ hlen] at hdraws
  rw [exec_build, runCommand_build _ herr, hdraws]

/-- Settles O26, by the draws that take the merge's own choices. -/
theorem everyGreedyTreeIsReached : Obligations.EveryGreedyTreeIsReached := by
  unfold Obligations.EveryGreedyTreeIsReached
  intro P s T herr hlen hmerge
  obtain ⟨draw, -, hdraw⟩ := hmerge.exists_draws P (List.Perm.refl _) s.freq.length s.draws
    (by rw [length_leafPool]; omega) P.tieBreak
  refine ⟨draw, ?_⟩
  rw [runCommand_build _ herr, buildTree_eq_mergePool _ _ hlen]
  exact hdraw

end Sys2Proof.Machine

/-! The trees of the greedy merge (41_tree_builder.md R81): their leaves, their size, and the sibling property. -/

namespace Sys2Proof.Machine

/-! The leaves with their counts. -/

/-- The leaves of a tree in pre-order, each with its count. -/
def leafCounts : ETree → List (Entity × Word64)
  | .absent => []
  | .leaf v f => [(v, f)]
  | .branch _ l r => leafCounts l ++ leafCounts r

theorem map_leavesAt (t : ETree) (d : Nat) : (leavesAt t d).map (fun x => (x.1, x.2.1)) = leafCounts t := by
  induction t generalizing d with
  | absent => rfl
  | leaf v f => rfl
  | branch f l r ihl ihr => rw [leavesAt, List.map_append, ihl, ihr, leafCounts]

/-- Whatever a Branch holds of its two children and nothing more, the merge keeps of its pool, in some order. -/
theorem GreedyMerge.flatMap_perm {α : Type} {g : ETree → List α} (hg : ∀ f l r, g (.branch f l r) = g l ++ g r)
    {p : List ETree} {t : ETree} (h : GreedyMerge p t) : (g t).Perm (p.flatMap g) := by
  induction h with
  | last t => simp
  | merge pool pool1 pool2 x y t hx _ hy _ _ ih =>
    refine ih.trans (.trans ?_ ((hx.trans (hy.cons x)).flatMap_right g).symm)
    simp [hg]

theorem flatMap_leafCounts_leafPool (m : List (Entity × Word64)) : (leafPool m).flatMap leafCounts = m := by
  rw [leafPool, List.flatMap_map]
  exact List.flatMap_singleton' m

theorem GreedyMerge.leafCounts_perm_freq {m : List (Entity × Word64)} {t : ETree} (h : GreedyMerge (leafPool m) t) :
    (leafCounts t).Perm m := by
  have hperm := h.flatMap_perm (g := leafCounts) fun _ _ _ => rfl
  rwa [flatMap_leafCounts_leafPool] at hperm

theorem GreedyMerge.fullTree_of_leafPool {m : List (Entity × Word64)} {t : ETree} (h : GreedyMerge (leafPool m) t) :
    FullTree t := by
  refine h.fullTree fun u hu => ?_
  obtain ⟨e, -, rfl⟩ := List.mem_map.mp hu
  trivial

/-- A merge of two leaves or more ends in a Branch. -/
theorem GreedyMerge.exists_branch {m : List (Entity × Word64)} {t : ETree} (h : GreedyMerge (leafPool m) t)
    (hlen : 2 ≤ m.length) : ∃ f l r, t = .branch f l r := by
  refine h.branch_or_singleton.resolve_right fun hone => ?_
  have hpool := congrArg List.length hone
  rw [length_leafPool, List.length_singleton] at hpool
  omega

/-! A full tree of n leaves. -/

/-- The frequency law carries the leaves' counts to the root. -/
theorem FullTree.treeFreq_eq {t : ETree} (h : FullTree t) : treeFreq t = ((leafCounts t).map Prod.snd).sum := by
  induction t with
  | absent => exact h.elim
  | leaf v f => simp [treeFreq, leafCounts]
  | branch f l r ihl ihr =>
    obtain ⟨hf, hl, hr⟩ := h
    rw [treeFreq, hf, ihl hl, ihr hr, leafCounts, List.map_append, List.sum_append]

theorem FullTree.nodeCount_eq {t : ETree} (h : FullTree t) : nodeCount t + 1 = 2 * (leafCounts t).length := by
  induction t with
  | absent => exact h.elim
  | leaf v f => rfl
  | branch f l r ihl ihr =>
    obtain ⟨-, hl, hr⟩ := h
    rw [nodeCount, leafCounts, List.length_append]
    have hcountl := ihl hl
    have hcountr := ihr hr
    omega

theorem FullTree.height_lt {t : ETree} (h : FullTree t) : height t < (leafCounts t).length := by
  induction t with
  | absent => exact h.elim
  | leaf v f => exact Nat.one_pos
  | branch f l r ihl ihr =>
    obtain ⟨-, hl, hr⟩ := h
    rw [height, leafCounts, List.length_append]
    have hheightl := ihl hl
    have hheightr := ihr hr
    omega

/-- Settles O27: a full tree's leaves fix its root's count, its number of nodes and a bound on its height, and the merge keeps
the leaves. -/
theorem builtTreeProperties : Obligations.BuiltTreeProperties := by
  unfold Obligations.BuiltTreeProperties
  intro s t herr hne h
  rw [exec_build, runCommand_build _ herr, Host.Outcome.next.injEq] at h
  subst h
  rcases Nat.lt_or_ge s.freq.length 2 with hlt | hge
  · have hone : s.freq.length = 1 := by
      have hpos := List.length_pos_iff.mpr hne
      omega
    obtain ⟨⟨v, f⟩, hfreq⟩ := List.length_eq_one_iff.mp hone
    simp [hfreq, buildTree, leavesAt, treeFreq, SingleTree, height]
  · have hmerge := greedyMerge_buildTree Config.params s.draws hge
    have hfull := hmerge.fullTree_of_leafPool
    have hleaves := hmerge.leafCounts_perm_freq
    have hnodes := hfull.nodeCount_eq
    have hheight := hfull.height_lt
    rw [hleaves.length_eq] at hnodes hheight
    refine ⟨hmerge.exists_branch hge, ?_, ?_, fun _ => ⟨hfull, ?_, ?_⟩, fun hone => ?_⟩
    · rw [map_leavesAt]; exact hleaves
    · rw [hfull.treeFreq_eq]; exact (hleaves.map Prod.snd).sum_eq
    · exact Nat.eq_sub_of_add_eq hnodes
    · exact Nat.le_sub_one_of_lt hheight
    · omega

/-! The sibling property (R81). The nodes of the final tree that are no deeper than the trees of the pool are followed back
through the merge: each round adds the two trees it removed, one level below their Branch. -/

/-- A tree's frequency as a number. -/
def weight (t : ETree) : Nat := (treeFreq t).toNat

/-- Where the trees of a pool stand in the tree `t` the merge ends in. `places` are those trees with their depths in `t`;
`nodes` are the nodes of `t` at or above them, with their depths. -/
structure Placement (t : ETree) (pool : List ETree) (places nodes : List (ETree × Nat)) : Prop where
  /-- Each tree of the pool has its place. -/
  perm : (places.map Prod.fst).Perm pool
  /-- Every leaf of `t` is a leaf of a tree in its place. -/
  leaf_mem : ∀ a ∈ leavesAt t 0, ∃ e ∈ places, a ∈ leavesAt e.1 e.2
  /-- The trees in their places are nodes. -/
  subset : places ⊆ nodes
  /-- No node is lighter than every tree of the pool. -/
  least : ∀ c, (∀ u ∈ pool, c ≤ weight u) → ∀ a ∈ nodes, c ≤ weight a.1
  /-- A node below the root has a sibling, and their parent weighs as much as both. -/
  parent : ∀ a ∈ nodes, a.2 ≠ 0 → ∃ q ∈ nodes, ∃ b ∈ nodes, weight q.1 = weight a.1 + weight b.1 ∧ q.2 + 1 = a.2
  /-- A heavier node is not deeper. -/
  sibling : ∀ a ∈ nodes, ∀ b ∈ nodes, weight b.1 < weight a.1 → a.2 ≤ b.2

theorem placement_singleton (t : ETree) : Placement t [t] [(t, 0)] [(t, 0)] where
  perm := List.Perm.refl _
  leaf_mem _ ha := ⟨(t, 0), List.mem_singleton_self _, ha⟩
  subset := List.Subset.refl _
  least _ hc a ha := by rw [List.mem_singleton.mp ha]; exact hc t (List.mem_singleton_self t)
  parent a ha h := by rw [List.mem_singleton.mp ha] at h; exact absurd rfl h
  sibling a ha b hb _ := by rw [List.mem_singleton.mp ha, List.mem_singleton.mp hb]

section Unmerge

variable {t x y : ETree} {f : Word64} {rest : List ETree} {places nodes : List (ETree × Nat)}
  (h : Placement t (.branch f x y :: rest) places nodes) (hf : f.toNat = weight x + weight y)
  (hy : ∀ u ∈ rest, weight y ≤ weight u)
include h hf hy

/-- Every node weighs at least as much as the second tree the round removed. -/
theorem Placement.weight_le {a : ETree × Nat} (ha : a ∈ nodes) : weight y ≤ weight a.1 := by
  refine h.least _ (List.forall_mem_cons.mpr ⟨?_, hy⟩) a ha
  show weight y ≤ f.toNat
  omega

/-- A node heavier than a tree the round removed is not deeper than that tree: were it deeper, its parent would be heavier
than the removed trees' Branch, and deeper too. -/
theorem Placement.depth_le {d : Nat} (hbranch : (.branch f x y, d) ∈ nodes) {a : ETree × Nat} (ha : a ∈ nodes)
    (hlt : weight x < weight a.1) : a.2 ≤ d + 1 := by
  by_contra hdeep
  obtain ⟨q, hq, b, hb, hweight, hdepth⟩ := h.parent a ha (by omega)
  have hlea := h.weight_le hf hy ha
  have hleb := h.weight_le hf hy hb
  have hheavier : weight (.branch f x y) < weight q.1 := by
    show f.toNat < weight q.1
    omega
  have hnotDeeper : q.2 ≤ d := h.sibling q hq _ hbranch hheavier
  omega

/-- The trees a round removed have their places below their Branch. -/
theorem Placement.unmerge (hxy : weight x ≤ weight y) {pool : List ETree} (hpool : pool.Perm (x :: y :: rest)) :
    ∃ places' nodes', Placement t pool places' nodes' := by
  obtain ⟨⟨_, d⟩, hplace, rfl⟩ := List.mem_map.mp (h.perm.mem_iff.mpr List.mem_cons_self)
  have hbranch := h.subset hplace
  have hsplit := List.perm_cons_erase hplace
  have hrest : ((places.erase (.branch f x y, d)).map Prod.fst).Perm rest :=
    ((hsplit.map Prod.fst).symm.trans h.perm).cons_inv
  have hlight : ∀ a ∈ nodes, weight y ≤ weight a.1 := fun a ha => h.weight_le hf hy ha
  have hold : nodes ⊆ (x, d + 1) :: (y, d + 1) :: nodes := fun a ha => by simp [ha]
  refine ⟨(x, d + 1) :: (y, d + 1) :: places.erase (.branch f x y, d), (x, d + 1) :: (y, d + 1) :: nodes,
    { perm := ((hrest.cons y).cons x).trans hpool.symm
      leaf_mem := fun a ha => ?leaf
      subset := List.cons_subset_cons _ (List.cons_subset_cons _ (List.Subset.trans List.erase_subset h.subset))
      least := fun c hc => ?least
      parent := ?parent
      sibling := ?sibling }⟩
  case leaf =>
    obtain ⟨e, he, hae⟩ := h.leaf_mem a ha
    rcases List.mem_cons.mp (hsplit.mem_iff.mp he) with rfl | he
    · rcases List.mem_append.mp hae with hx | hy
      · exact ⟨(x, d + 1), by simp, hx⟩
      · exact ⟨(y, d + 1), by simp, hy⟩
    · exact ⟨e, by simp [he], hae⟩
  case least =>
    have hcx : c ≤ weight x := hc x (hpool.mem_iff.mpr (by simp))
    have hcy : c ≤ weight y := hcx.trans hxy
    exact List.forall_mem_cons.mpr ⟨hcx, List.forall_mem_cons.mpr ⟨hcy, fun a ha => hcy.trans (hlight a ha)⟩⟩
  case parent =>
    refine List.forall_mem_cons.mpr ⟨fun _ => ?_, List.forall_mem_cons.mpr ⟨fun _ => ?_, fun a ha hdepth => ?_⟩⟩
    · exact ⟨_, hold hbranch, (y, d + 1), by simp, hf, rfl⟩
    · exact ⟨_, hold hbranch, (x, d + 1), by simp, hf.trans (Nat.add_comm _ _), rfl⟩
    · obtain ⟨q, hq, b, hb, hparent⟩ := h.parent a ha hdepth
      exact ⟨q, hold hq, b, hold hb, hparent⟩
  case sibling =>
    have hnew : ∀ b ∈ nodes, ¬ weight b.1 < weight y := fun b hb => Nat.not_lt.mpr (hlight b hb)
    simp only [List.forall_mem_cons]
    refine ⟨⟨fun _ => le_rfl, fun _ => le_rfl, fun b hb hlt => ?_⟩, ⟨fun _ => le_rfl, fun _ => le_rfl, fun b hb hlt => ?_⟩,
      fun a ha => ⟨fun hlt => ?_, fun hlt => ?_, h.sibling a ha⟩⟩
    · exact absurd (hlt.trans_le hxy) (hnew b hb)
    · exact absurd hlt (hnew b hb)
    · exact h.depth_le hf hy hbranch ha hlt
    · exact h.depth_le hf hy hbranch ha (hxy.trans_lt hlt)

end Unmerge

theorem weight_branch {x y : ETree} (h : weight x + weight y < 2 ^ 64) :
    weight (.branch (treeFreq x + treeFreq y) x y) = weight x + weight y := by
  rw [weight, treeFreq, BitVec.toNat_add]
  exact Nat.mod_eq_of_lt h

/-- The trees of a pool whose weights together fit 64 bits have their places in the tree the merge ends in (R9). -/
theorem GreedyMerge.exists_placement {p : List ETree} {t : ETree} (h : GreedyMerge p t)
    (hfit : (p.map weight).sum < 2 ^ 64) : ∃ places nodes, Placement t p places nodes := by
  induction h with
  | last t => exact ⟨_, _, placement_singleton t⟩
  | merge pool pool1 pool2 x y t hx minx hy miny _ ih =>
    have hpool : pool.Perm (x :: y :: pool2) := hx.trans (hy.cons x)
    have hsum := (hpool.map weight).sum_eq
    simp only [List.map_cons, List.sum_cons] at hsum
    have hbranch := weight_branch (x := x) (y := y) (by omega)
    obtain ⟨places, nodes, hplaced⟩ := ih (by rw [List.map_cons, List.sum_cons, hbranch]; omega)
    exact hplaced.unmerge hbranch (fun u hu => miny u (hy.mem_iff.mpr (List.mem_cons_of_mem y hu)))
      (minx y (hpool.mem_iff.mpr (by simp))) hpool

theorem map_weight_leafPool (m : List (Entity × Word64)) : (leafPool m).map weight = m.map (fun e => e.2.toNat) := by
  rw [leafPool, List.map_map]; rfl

/-- In a merge of leaves whose counts fit 64 bits, a leaf of a larger count is not deeper. -/
theorem GreedyMerge.depth_le {m : List (Entity × Word64)} {t : ETree} (h : GreedyMerge (leafPool m) t)
    (hfit : freqTotal m < 2 ^ 64) {a b : Entity × Word64 × Nat} (ha : a ∈ leavesAt t 0) (hb : b ∈ leavesAt t 0)
    (hlt : b.2.1.toNat < a.2.1.toNat) : a.2.2 ≤ b.2.2 := by
  obtain ⟨places, nodes, hplaced⟩ := h.exists_placement (by rw [map_weight_leafPool]; exact hfit)
  have hleaf : ∀ c ∈ leavesAt t 0, (.leaf c.1 c.2.1, c.2.2) ∈ nodes := by
    intro c hc
    obtain ⟨⟨u, d⟩, hplace, hmem⟩ := hplaced.leaf_mem c hc
    obtain ⟨e, -, rfl⟩ := List.mem_map.mp (hplaced.perm.mem_iff.mp (List.mem_map_of_mem hplace))
    rw [List.mem_singleton.mp hmem]
    exact hplaced.subset hplace
  exact hplaced.sibling _ (hleaf a ha) _ (hleaf b hb) hlt

/-- Settles O28: with fewer than two entities there are no two leaves, and otherwise BUILD is a greedy merge. -/
theorem siblingProperty : Obligations.SiblingProperty := by
  unfold Obligations.SiblingProperty
  intro s t herr hfit h a ha b hb hlt
  rw [exec_build, runCommand_build _ herr, Host.Outcome.next.injEq] at h
  subst h
  match hfreq : s.freq with
  | [] => simp [hfreq, buildTree, leavesAt] at ha
  | [(v, f)] =>
    simp only [hfreq, buildTree, leavesAt, List.append_nil, List.mem_singleton] at ha hb
    rw [ha, hb]
  | _ :: _ :: _ =>
    have hmerge := greedyMerge_buildTree Config.params s.draws (m := s.freq) (by simp [hfreq])
    exact hmerge.depth_le ((countsFit_iff s).mp hfit) ha hb hlt

end Sys2Proof.Machine

/-! The code table (41_tree_builder.md R84, R85): the codes of a tree with distinct leaves are the paths to its leaves. -/

namespace Sys2Proof.Machine

/-! Looking up in a list of pairs with distinct keys. -/

theorem lookup_eq_some_iff_mem {α β : Type} [BEq α] [LawfulBEq α] {l : List (α × β)} (h : (l.map Prod.fst).Nodup)
    (k : α) (b : β) : l.lookup k = some b ↔ (k, b) ∈ l := by
  rw [List.lookup_eq_some_iff]
  constructor
  · rintro ⟨l₁, l₂, rfl, -⟩
    simp
  · intro hmem
    obtain ⟨l₁, l₂, rfl⟩ := List.append_of_mem hmem
    refine ⟨l₁, l₂, rfl, fun p hp => bne_iff_ne.mpr ?_⟩
    rw [List.map_append, List.nodup_append] at h
    exact (h.2.2 p.1 (List.mem_map_of_mem hp) k (by simp)).symm

theorem lookup_eq_none_iff_notMem {α β : Type} [BEq α] [LawfulBEq α] {l : List (α × β)} {k : α} :
    l.lookup k = none ↔ k ∉ l.map Prod.fst := by
  rw [List.lookup_eq_none_iff]
  simp only [bne_iff_ne, List.mem_map, not_exists, not_and]
  exact forall₂_congr fun _ _ => ne_comm

/-- A table that assigns each entity once gives it the code assigned (log 16). -/
theorem codeOf_eq_some_iff {table : List (Entity × List Bool)} (h : (table.map Prod.fst).Nodup) (v : Entity)
    (c : List Bool) : codeOf table v = some c ↔ (v, c) ∈ table := by
  rw [codeOf, lookup_eq_some_iff_mem (by rw [List.map_reverse, List.nodup_reverse]; exact h), List.mem_reverse]

theorem codeOf_eq_none_iff {table : List (Entity × List Bool)} {v : Entity} :
    codeOf table v = none ↔ v ∉ table.map Prod.fst := by
  rw [codeOf, lookup_eq_none_iff_notMem, List.map_reverse, List.mem_reverse]

/-! Paths in a tree (R84). -/

@[simp] theorem descend_nil (t : ETree) : descend t [] = t := by cases t <;> rfl

@[simp] theorem descend_absent (path : List Bool) : descend .absent path = .absent := by cases path <;> rfl

@[simp] theorem descend_leaf_cons (v : Entity) (f : Word64) (b : Bool) (path : List Bool) :
    descend (.leaf v f) (b :: path) = .absent := rfl

@[simp] theorem descend_branch_cons (f : Word64) (l r : ETree) (b : Bool) (path : List Bool) :
    descend (.branch f l r) (b :: path) = descend (if b then r else l) path := rfl

theorem descend_append (t : ETree) (p q : List Bool) : descend t (p ++ q) = descend (descend t p) q := by
  induction p generalizing t with
  | nil => simp
  | cons b p ih => cases t <;> simp [ih]

/-- No path leads from a Leaf to a Leaf but the empty one. -/
theorem eq_nil_of_descend_leaf {u v : Entity} {f g : Word64} {path : List Bool}
    (h : descend (.leaf u f) path = .leaf v g) : path = [] := by
  cases path with
  | nil => rfl
  | cons b path => cases h

/-- A path to a leaf below a Branch starts with the side the leaf is on. -/
theorem descend_branch_eq_leaf {w f : Word64} {l r : ETree} {path : List Bool} {v : Entity} :
    descend (.branch w l r) path = .leaf v f ↔
      (∃ q, path = false :: q ∧ descend l q = .leaf v f) ∨ ∃ q, path = true :: q ∧ descend r q = .leaf v f := by
  cases path with
  | nil => simp
  | cons b q => cases b <;> simp

/-- `walk` assigns each leaf the path to it (R84). -/
theorem mem_codeWalk {t : ETree} {path c : List Bool} {v : Entity} :
    (v, c) ∈ codeWalk t path ↔ ∃ q f, c = path ++ q ∧ descend t q = .leaf v f := by
  induction t generalizing path with
  | absent => simp [codeWalk]
  | leaf u f =>
    simp only [codeWalk, List.mem_singleton, Prod.mk.injEq]
    constructor
    · rintro ⟨rfl, rfl⟩
      exact ⟨[], f, by simp⟩
    · rintro ⟨q, g, rfl, hq⟩
      obtain rfl := eq_nil_of_descend_leaf hq
      cases hq
      exact ⟨rfl, List.append_nil _⟩
  | branch w l r ihl ihr =>
    rw [codeWalk, List.mem_append, ihl, ihr]
    simp only [descend_branch_eq_leaf]
    constructor
    · rintro (⟨q, f, rfl, hq⟩ | ⟨q, f, rfl, hq⟩)
      · exact ⟨false :: q, f, by simp, .inl ⟨q, rfl, hq⟩⟩
      · exact ⟨true :: q, f, by simp, .inr ⟨q, rfl, hq⟩⟩
    · rintro ⟨_, f, rfl, ⟨q, rfl, hq⟩ | ⟨q, rfl, hq⟩⟩
      · exact .inl ⟨q, f, by simp, hq⟩
      · exact .inr ⟨q, f, by simp, hq⟩

/-- A leaf is as deep as the path to it is long. -/
theorem exists_path_of_mem_leavesAt {t : ETree} {d e : Nat} {v : Entity} {f : Word64} (h : (v, f, e) ∈ leavesAt t d) :
    ∃ q, descend t q = .leaf v f ∧ e = d + q.length := by
  induction t generalizing d with
  | absent => cases h
  | leaf u g =>
    cases List.mem_singleton.mp h
    exact ⟨[], rfl, rfl⟩
  | branch w l r ihl ihr =>
    rcases List.mem_append.mp h with h | h
    · obtain ⟨q, hq, he⟩ := ihl h
      exact ⟨false :: q, hq, by rw [List.length_cons]; omega⟩
    · obtain ⟨q, hq, he⟩ := ihr h
      exact ⟨true :: q, hq, by rw [List.length_cons]; omega⟩

theorem map_fst_codeWalk (t : ETree) (path : List Bool) : (codeWalk t path).map Prod.fst = leaves t := by
  induction t generalizing path with
  | absent => rfl
  | leaf v f => rfl
  | branch f l r ihl ihr => rw [codeWalk, List.map_append, ihl, ihr, leaves]

/-! The codes of a tree. -/

theorem codeOf_codeTable_eq_none_iff {t : ETree} {v : Entity} : codeOf (codeTable t) v = none ↔ v ∉ leaves t := by
  rw [codeOf_eq_none_iff, codeTable, map_fst_codeWalk]

/-- In a tree with distinct leaves an entity's code is the path to its leaf. -/
theorem codeOf_codeTable_eq_some_iff {t : ETree} (h : (leaves t).Nodup) {v : Entity} {c : List Bool} :
    codeOf (codeTable t) v = some c ↔ ∃ f, descend t c = .leaf v f := by
  rw [codeTable, codeOf_eq_some_iff (by rw [map_fst_codeWalk]; exact h), mem_codeWalk]
  simp

theorem BuiltTree.nodup_leaves {t : ETree} (h : BuiltTree t) : (leaves t).Nodup := by
  rcases h with rfl | ⟨v, f, rfl⟩ | ⟨-, -, hnodup⟩
  · exact List.nodup_nil
  · exact List.nodup_singleton v
  · exact hnodup

theorem BuiltTree.ne_leaf {t : ETree} (h : BuiltTree t) (v : Entity) (f : Word64) : t ≠ .leaf v f := by
  rcases h with rfl | ⟨u, g, rfl⟩ | ⟨⟨g, l, r, rfl⟩, -⟩ <;> nofun

/-- The only path to a leaf of the one-entity tree (R77). -/
theorem SingleTree.path_eq {t : ETree} (h : SingleTree t) {c : List Bool} {v : Entity} {f : Word64}
    (hc : descend t c = .leaf v f) : c = [false] := by
  obtain ⟨u, g, rfl⟩ := h
  rcases descend_branch_eq_leaf.mp hc with ⟨q, rfl, hq⟩ | ⟨q, rfl, hq⟩
  · rw [eq_nil_of_descend_leaf hq]
  · rw [descend_absent] at hq
    cases hq

/-- Paths to leaves do not begin one another. -/
theorem eq_of_descend_leaf_of_isPrefix {t : ETree} {cu cv : List Bool} {u v : Entity} {f g : Word64}
    (hu : descend t cu = .leaf u f) (hv : descend t cv = .leaf v g) (h : cu <+: cv) : u = v := by
  obtain ⟨q, rfl⟩ := h
  rw [descend_append, hu] at hv
  obtain rfl := eq_nil_of_descend_leaf hv
  cases hv
  rfl

/-- Settles O29: a code is the path from the root to its leaf. -/
theorem codeTableProperties : Obligations.CodeTableProperties := by
  unfold Obligations.CodeTableProperties
  intro T hT
  have hcode {v : Entity} {c : List Bool} := codeOf_codeTable_eq_some_iff hT.nodup_leaves (v := v) (c := c)
  refine ⟨fun v hv => ?_, fun v => codeOf_codeTable_eq_none_iff.mpr, fun v c hc => ⟨?_, hcode.mp hc, fun f d hd => ?_⟩,
    fun hsingle v c hc => ?_, fun u v cu cv hu hv hbegins => ?_⟩
  · exact Option.ne_none_iff_exists'.mp fun hnone => codeOf_codeTable_eq_none_iff.mp hnone hv
  · rintro rfl
    obtain ⟨f, hroot⟩ := hcode.mp hc
    rw [descend_nil] at hroot
    exact hT.ne_leaf v f hroot
  · obtain ⟨q, hq, rfl⟩ := exists_path_of_mem_leavesAt hd
    have hqc : some q = some c := (hcode.mpr ⟨f, hq⟩).symm.trans hc
    rw [Option.some.inj hqc, Nat.zero_add]
  · obtain ⟨f, hpath⟩ := hcode.mp hc
    exact hsingle.path_eq hpath
  · obtain ⟨f, hpathu⟩ := hcode.mp hu
    obtain ⟨g, hpathv⟩ := hcode.mp hv
    exact eq_of_descend_leaf_of_isPrefix hpathu hpathv hbegins

end Sys2Proof.Machine

/-! ANALYZE (41_tree_builder.md R74): its loop over the records of IN, and the counts it makes. -/

namespace Sys2Proof.Machine

/-! The record loop, taken up after some of its records (20_memory.md R42). -/

section RecordLoop

variable {σ : Type} {f : σ → Entity → Attempt σ} {W len fuel cur : Nat} {rest : List Byte} {a a' : σ}

theorem length_records (W : Nat) (bs : List Byte) : (records W bs).length = bs.length / W := by simp [records]

/-- The first of the records is the first W bytes, and the others are the records after them. -/
theorem records_eq_cons (hW : 1 ≤ W) {v : Entity} {es : List Entity} (h : records W rest = v :: es) :
    W ≤ rest.length ∧ rest.take W = v ∧ records W (rest.drop W) = es := by
  have hle : W ≤ rest.length := by
    by_contra hlt
    rw [records_short W rest (Nat.not_le.mp hlt)] at h
    cases h
  rw [records_cons W rest hW hle] at h
  exact ⟨hle, List.cons.inj h⟩

theorem feedRecords_short (hne : rest ≠ []) (hlt : rest.length < W) :
    feedRecords f W len (fuel + 1) rest cur a = .raised len a .exhausted := by
  obtain ⟨b, bs, rfl⟩ := List.exists_cons_of_ne_nil hne
  rw [feedRecords, if_pos hlt]

/-- A whole record that is taken leaves the loop at the bytes after it. -/
theorem feedRecords_succ_of_ok (hW : 1 ≤ W) (hle : W ≤ rest.length) (h : f a (rest.take W) = .ok a') :
    feedRecords f W len (fuel + 1) rest cur a = feedRecords f W len fuel (rest.drop W) (cur + W) a' := by
  obtain ⟨b, bs, rfl⟩ := List.exists_cons_of_ne_nil (List.ne_nil_of_length_pos (hW.trans hle))
  rw [feedRecords, if_neg (Nat.not_lt.mpr hle), h]

/-- A whole record that raises ends the loop just past it. -/
theorem feedRecords_succ_of_error {r : Reason} (hW : 1 ≤ W) (hle : W ≤ rest.length)
    (h : f a (rest.take W) = .error (a', r)) :
    feedRecords f W len (fuel + 1) rest cur a = .raised (cur + W) a' r := by
  obtain ⟨b, bs, rfl⟩ := List.exists_cons_of_ne_nil (List.ne_nil_of_length_pos (hW.trans hle))
  rw [feedRecords, if_neg (Nat.not_lt.mpr hle), h]

/-- Records taken without a raise leave the loop at the record after them. -/
theorem feedRecords_skip (hW : 1 ≤ W) {es tail : List Entity} (hrec : records W rest = es ++ tail)
    (h : feedList f es a = .ok a') :
    feedRecords f W len (es.length + fuel) rest cur a =
      feedRecords f W len fuel (rest.drop (es.length * W)) (cur + es.length * W) a' := by
  induction es generalizing rest cur a with
  | nil =>
    cases h
    simp
  | cons v es ih =>
    obtain ⟨hle, hv, hrec⟩ := records_eq_cons hW hrec
    rw [feedList] at h
    split at h
    · cases h
    · next a1 hf =>
      rw [List.length_cons, Nat.add_right_comm, feedRecords_succ_of_ok hW hle (hv ▸ hf), ih hrec h, List.drop_drop,
        Nat.succ_mul, Nat.add_comm W, Nat.add_assoc, Nat.add_comm W]

/-- Where every record is taken without a raise and a partial one is left, the loop raises EXHAUSTED (R42). -/
theorem feedRecords_exhausted (hW : 1 ≤ W) (hfuel : rest.length ≤ fuel) (hmod : rest.length % W ≠ 0)
    (h : feedList f (records W rest) a = .ok a') :
    feedRecords f W len fuel rest cur a = .raised len a' .exhausted := by
  have hdivmod := Nat.div_add_mod' rest.length W
  have hmodlt := Nat.mod_lt rest.length hW
  have hmul := Nat.le_mul_of_pos_right (rest.length / W) hW
  obtain ⟨k, hk⟩ : ∃ k, fuel = rest.length / W + (k + 1) := ⟨fuel - rest.length / W - 1, by omega⟩
  have hskip := feedRecords_skip (len := len) (fuel := k + 1) (cur := cur) hW (List.append_nil _).symm h
  rw [length_records, ← hk] at hskip
  have hleft : (rest.drop (rest.length / W * W)).length = rest.length % W := by rw [List.length_drop]; omega
  rw [hskip, feedRecords_short (List.ne_nil_of_length_pos (by omega)) (by omega)]

/-- The record after the records `es` starts where the records `es` end. -/
theorem take_drop_of_records_eq (hW : 1 ≤ W) {es es' : List Entity} {v : Entity} (hrec : records W rest = es ++ v :: es') :
    W ≤ (rest.drop (es.length * W)).length ∧ (rest.drop (es.length * W)).take W = v := by
  induction es generalizing rest with
  | nil =>
    obtain ⟨hle, hv, -⟩ := records_eq_cons hW hrec
    simpa using And.intro hle hv
  | cons u es ih =>
    obtain ⟨-, -, hrec⟩ := records_eq_cons hW hrec
    have h := ih hrec
    rwa [List.drop_drop, Nat.add_comm, ← Nat.succ_mul] at h

/-- Where a record raises, the loop ends with the cursor just past it (R111). -/
theorem feedRecords_raised (hW : 1 ≤ W) (hfuel : rest.length ≤ fuel) {es es' : List Entity} {v : Entity} {a'' : σ}
    {r : Reason} (hrec : records W rest = es ++ v :: es') (h : feedList f es a = .ok a') (hv : f a' v = .error (a'', r)) :
    feedRecords f W len fuel rest cur a = .raised (cur + (es.length + 1) * W) a'' r := by
  have hlen := length_records W rest
  rw [hrec, List.length_append, List.length_cons] at hlen
  have hdiv := Nat.div_le_self rest.length W
  obtain ⟨k, rfl⟩ : ∃ k, fuel = es.length + (k + 1) := ⟨fuel - es.length - 1, by omega⟩
  obtain ⟨hle, htake⟩ := take_drop_of_records_eq hW hrec
  rw [feedRecords_skip hW hrec h, feedRecords_succ_of_error hW hle (htake ▸ hv), Nat.succ_mul, Nat.add_assoc]

end RecordLoop

/-! The counts. -/

theorem length_dedup_concat (es : List Entity) (v : Entity) :
    (es ++ [v]).dedup.length = if v ∈ es then es.dedup.length else es.dedup.length + 1 := by
  rw [← List.card_toFinset, ← List.card_toFinset, List.toFinset_append, List.toFinset_cons, List.toFinset_nil,
    insert_empty_eq, Finset.union_comm, ← Finset.insert_eq, Finset.card_insert_eq_ite]
  simp only [List.mem_toFinset]

/-- A list of more than k distinct entities has a first one beyond k. -/
theorem exists_first_beyond {k : Nat} {l : List Entity} (h : k < l.dedup.length) :
    ∃ es v es', l = es ++ v :: es' ∧ v ∉ es ∧ es.dedup.length = k := by
  induction l using List.reverseRecOn with
  | nil => simp at h
  | append_singleton l v ih =>
    by_cases hk : k < l.dedup.length
    · obtain ⟨es, u, es', rfl, hrest⟩ := ih hk
      exact ⟨es, u, es' ++ [v], by simp, hrest⟩
    · rw [length_dedup_concat] at h
      split at h
      · exact absurd h hk
      · next hv => exact ⟨l, v, [], rfl, hv, by omega⟩

theorem lookup_cons_eq_ite (w u : Entity) (c : Word64) (m : List (Entity × Word64)) :
    List.lookup u ((w, c) :: m) = if u = w then some c else m.lookup u := by
  by_cases h : u = w
  · subst h; rw [List.lookup_cons_self, if_pos rfl]
  · rw [List.lookup_cons, beq_false_of_ne h, if_neg h]

/-- The first key of a canonical FREQ is the least: an entity before it is new. -/
theorem lookup_eq_none_of_lt {m : List (Entity × Word64)} {w v : Entity} {c : Word64}
    (hm : freqSorted ((w, c) :: m) = true) (hlt : entityLt v w = true) : m.lookup v = none := by
  refine lookup_eq_none_iff_notMem.mpr fun hmem => ?_
  have hloop := entityLt_trans v w v hlt (((freqSorted_cons _ _).mp hm).1 v hmem)
  rw [entityLt_irrefl] at hloop
  cases hloop

/-- Counting an entity raises its own count, from 0 where it is new, and leaves the others. -/
theorem lookup_freqBump {m : List (Entity × Word64)} (hm : freqSorted m = true) (v u : Entity) :
    (freqBump m v).lookup u = if u = v then some ((m.lookup v).getD 0#64 + 1#64) else m.lookup u := by
  induction m with
  | nil => exact lookup_cons_eq_ite v u 1#64 []
  | cons e m ih =>
    obtain ⟨w, c⟩ := e
    unfold freqBump
    split
    · next hw =>
      subst hw
      simp only [lookup_cons_eq_ite]
      split <;> rfl
    · next hw =>
      split
      · next hlt => simp [lookup_cons_eq_ite, Ne.symm hw, lookup_eq_none_of_lt hm hlt]
      · rw [lookup_cons_eq_ite, ih ((freqSorted_cons _ _).mp hm).2, lookup_cons_eq_ite, lookup_cons_eq_ite,
          if_neg (Ne.symm hw)]
        split
        · next huw => rw [if_neg (huw ▸ hw)]
        · rfl

/-- FREQ holds the counts of the entities `es` in canonical form: what ANALYZE has made of them. -/
def Tally (es : List Entity) (m : List (Entity × Word64)) : Prop := freqSorted m = true ∧ CountsOf es m

theorem tally_nil : Tally [] [] := ⟨rfl, List.nodup_nil, fun _ => rfl⟩

theorem Tally.mem_keys_iff {es : List Entity} {m : List (Entity × Word64)} (h : Tally es m) {v : Entity} :
    v ∈ m.map Prod.fst ↔ v ∈ es := by
  obtain ⟨-, -, hcount⟩ := h
  rw [← not_iff_not, ← lookup_eq_none_iff_notMem, hcount]
  simp

theorem Tally.length_eq {es : List Entity} {m : List (Entity × Word64)} (h : Tally es m) :
    m.length = es.dedup.length := by
  have hkeys : (m.map Prod.fst).Perm es.dedup :=
    (List.perm_ext_iff_of_nodup (freqSorted_nodup m h.1) es.nodup_dedup).mpr fun v => by
      rw [h.mem_keys_iff, List.mem_dedup]
  rw [← hkeys.length_eq, List.length_map]

theorem Tally.concat {es : List Entity} {m : List (Entity × Word64)} (h : Tally es m) (v : Entity) :
    Tally (es ++ [v]) (freqBump m v) := by
  obtain ⟨hsorted, -, hcount⟩ := h
  have hbump := freqSorted_freqBump m v hsorted
  refine ⟨hbump, freqSorted_nodup _ hbump, fun u => ?_⟩
  rw [lookup_freqBump hsorted]
  by_cases hu : u = v
  · subst hu
    have hold : (m.lookup u).getD 0#64 = BitVec.ofNat 64 (es.count u) := by
      rw [hcount]
      split
      · rfl
      · next hnew => rw [List.count_eq_zero_of_not_mem hnew]; rfl
    rw [if_pos rfl, hold, if_pos (by simp), List.count_append, List.count_singleton_self, BitVec.ofNat_add]
  · rw [if_neg hu, hcount, List.count_append, List.count_eq_zero_of_not_mem (l := [v]) (by simpa using hu)]
    simp [hu]

/-- An entity that is not new, or new where FREQ is not full, is counted (R74). -/
theorem countEntity_ok {P : Params} {es : List Entity} {m : List (Entity × Word64)} (h : Tally es m) {v : Entity}
    (hroom : v ∈ es ∨ P.maxDistinct ≠ some es.dedup.length) : countEntity P m v = .ok (freqBump m v) := by
  unfold countEntity
  rw [if_neg]
  rw [h.length_eq, Bool.and_eq_true, Bool.not_eq_true', ← Bool.not_eq_true, freqHas_iff, h.mem_keys_iff, beq_iff_eq]
  tauto

/-- A new entity where FREQ is full raises DISTINCT_OVERFLOW, and FREQ stays (R74). -/
theorem countEntity_full {P : Params} {es : List Entity} {m : List (Entity × Word64)} (h : Tally es m) {v : Entity}
    (hnew : v ∉ es) (hfull : P.maxDistinct = some es.dedup.length) :
    countEntity P m v = .error (m, .distinctOverflow) := by
  unfold countEntity
  rw [if_pos]
  rw [h.length_eq, Bool.and_eq_true, Bool.not_eq_true', ← Bool.not_eq_true, freqHas_iff, h.mem_keys_iff, beq_iff_eq]
  exact ⟨hnew, hfull⟩

/-- Within MAX_DISTINCT every entity is counted. -/
theorem exists_tally (P : Params) {es : List Entity} (hfit : ∀ k, P.maxDistinct = some k → es.dedup.length ≤ k) :
    ∃ m, feedList (countEntity P) es [] = .ok m ∧ Tally es m := by
  induction es using List.reverseRecOn with
  | nil => exact ⟨[], rfl, tally_nil⟩
  | append_singleton es v ih =>
    have hconcat := length_dedup_concat es v
    obtain ⟨m, hfeed, hm⟩ := ih fun k hk => le_trans (by rw [hconcat]; split <;> omega) (hfit k hk)
    have hroom : v ∈ es ∨ P.maxDistinct ≠ some es.dedup.length := by
      by_contra! hfull
      have hle := hfit _ hfull.2
      rw [hconcat, if_neg hfull.1] at hle
      omega
    refine ⟨_, ?_, hm.concat v⟩
    rw [feedList_append, hfeed]
    simp only [feedList, countEntity_ok hm hroom]

/-! The command. -/

section Analyze

variable {P : Params} {s : State} (herr : s.err = false) (hW : s.entitySize.toNat ∈ [1, 2, 4, 8])
  {m : List (Entity × Word64)}
include herr hW

theorem runCommand_analyze_done (hmod : s.inStream.length % s.entitySize.toNat = 0)
    (h : feedList (countEntity P) (records s.entitySize.toNat s.inStream) [] = .ok m) :
    runCommand (analyzeBody P) s = { s with freq := m, icur := BitVec.ofNat 64 s.inStream.length } := by
  have hwidth := entityWidth_eq_some s hW
  have hloop := feedRecords_ok _ _ s.inStream.length (one_le_of_entityWidth hwidth) _ _ 0 _ _ le_rfl hmod h
  rw [Nat.zero_add] at hloop
  exact runCommand_of_done herr (by simp only [analyzeBody, hwidth, hloop]; rfl)

theorem runCommand_analyze_exhausted (hmod : s.inStream.length % s.entitySize.toNat ≠ 0)
    (h : feedList (countEntity P) (records s.entitySize.toNat s.inStream) [] = .ok m) :
    runCommand (analyzeBody P) s =
      faulted 1#2 0x01#8 { s with freq := m, icur := BitVec.ofNat 64 s.inStream.length } := by
  have hwidth := entityWidth_eq_some s hW
  have hloop := feedRecords_exhausted (len := s.inStream.length) (cur := 0) (one_le_of_entityWidth hwidth) le_rfl hmod h
  exact runCommand_of_raised (r := .exhausted) herr (by simp only [analyzeBody, hwidth, hloop]; rfl)

theorem runCommand_analyze_distinctOverflow {es es' : List Entity} {v : Entity}
    (hrec : records s.entitySize.toNat s.inStream = es ++ v :: es')
    (h : feedList (countEntity P) es [] = .ok m) (hv : countEntity P m v = .error (m, .distinctOverflow)) :
    runCommand (analyzeBody P) s = faulted 3#2 0x20#8
      { s with freq := m, icur := BitVec.ofNat 64 ((es.length + 1) * s.entitySize.toNat) } := by
  have hwidth := entityWidth_eq_some s hW
  have hloop := feedRecords_raised (len := s.inStream.length) (cur := 0) (one_le_of_entityWidth hwidth) le_rfl hrec h hv
  rw [Nat.zero_add] at hloop
  exact runCommand_of_raised (r := .distinctOverflow) herr (by simp only [analyzeBody, hwidth, hloop]; rfl)

end Analyze

theorem runCommand_analyze_badWidth (P : Params) {s : State} (herr : s.err = false)
    (hW : s.entitySize.toNat ∉ [1, 2, 4, 8]) : runCommand (analyzeBody P) s = faulted 2#2 0x13#8 s :=
  runCommand_of_raised (r := .badWidth) herr (by simp only [analyzeBody, entityWidth_eq_none s hW])

/-- Settles O22: within MAX_DISTINCT the loop counts every record and ends at the last byte. -/
theorem analyzeCountsEveryEntity : Obligations.AnalyzeCountsEveryEntity := by
  unfold Obligations.AnalyzeCountsEveryEntity
  intro s herr hW hmod hfit
  obtain ⟨m, hfeed, -, hcounts⟩ := exists_tally Config.params hfit
  exact ⟨m, by rw [exec_analyze, runCommand_analyze_done herr hW hmod hfeed], hcounts⟩

/-- Settles O23: the width is checked first, a partial record is met after every whole one, and the first entity beyond
MAX_DISTINCT is the first record the loop does not count. -/
theorem analyzeFaults : Obligations.AnalyzeFaults := by
  unfold Obligations.AnalyzeFaults
  intro s herr
  refine ⟨fun hW => ?_, fun hW hmod hfit => ?_, fun hW P k hk hover => ?_⟩
  · rw [exec_analyze, runCommand_analyze_badWidth _ herr hW]
  · obtain ⟨m, hfeed, -, hcounts⟩ := exists_tally Config.params hfit
    exact ⟨m, by rw [exec_analyze, runCommand_analyze_exhausted herr hW hmod hfeed], hcounts⟩
  · obtain ⟨es, v, es', hrec, hnew, hfull⟩ := exists_first_beyond hover
    have hmax : P.maxDistinct = some es.dedup.length := by rw [hk, hfull]
    obtain ⟨m, hfeed, htally⟩ := exists_tally P (es := es) fun n hn => (Option.some.inj (hmax.symm.trans hn)).le
    exact ⟨es, v, es', m, hrec, hnew, hfull, htally.2,
      runCommand_analyze_distinctOverflow herr hW hrec hfeed (countEntity_full htally hnew hmax)⟩

end Sys2Proof.Machine

/-! Where a section's loop stops (20_memory.md R42, R47), and where the packer meets MAX_OUT_LEN (R43, R46). -/

namespace Sys2Proof.Machine

/-! A list loop that raises. -/

section ListLoop

variable {σ β : Type} {f : σ → β → Attempt σ} {xs ys : List β} {a a' : σ} {r : Reason}

theorem feedList_append_of_ok (h : feedList f xs a = .ok a') : feedList f (xs ++ ys) a = feedList f ys a' := by
  rw [feedList_append, h]

theorem feedList_append_of_error {e : σ × Reason} (h : feedList f xs a = .error e) :
    feedList f (xs ++ ys) a = .error e := by
  rw [feedList_append, h]

theorem exists_ok_of_feedList_append (h : feedList f (xs ++ ys) a = .ok a') : ∃ a1, feedList f xs a = .ok a1 := by
  cases hxs : feedList f xs a with
  | ok a1 => exact ⟨a1, rfl⟩
  | error e =>
    rw [feedList_append_of_error hxs] at h
    cases h

theorem feedList_singleton (b : β) : feedList f [b] a = f a b := by
  rw [feedList]
  cases f a b <;> rfl

/-- The loop takes every item but the last, and raises `r` at that one. -/
def RaisesAtLast (f : σ → β → Attempt σ) (bs : List β) (a : σ) (r : Reason) : Prop :=
  ∃ pre b a' e, bs = pre ++ [b] ∧ feedList f pre a = .ok a' ∧ f a' b = .error (e, r)

theorem raisesAtLast_singleton {b : β} {e : σ} (h : f a b = .error (e, r)) : RaisesAtLast f [b] a r :=
  ⟨[], b, a, e, rfl, rfl, h⟩

theorem RaisesAtLast.ne_nil (h : RaisesAtLast f ys a r) : ys ≠ [] := by
  obtain ⟨pre, b, -, -, rfl, -⟩ := h
  exact List.concat_ne_nil b pre

theorem RaisesAtLast.feedList_append (h : RaisesAtLast f xs a r) (ys : List β) :
    ∃ e, feedList f (xs ++ ys) a = .error (e, r) := by
  obtain ⟨pre, b, a', e, rfl, hpre, hb⟩ := h
  refine ⟨e, ?_⟩
  rw [List.append_assoc, feedList_append_of_ok hpre, List.singleton_append, feedList, hb]

/-- Items taken without a raise may come before. -/
theorem RaisesAtLast.prepend (hys : RaisesAtLast f ys a' r) (hxs : feedList f xs a = .ok a') :
    RaisesAtLast f (xs ++ ys) a r := by
  obtain ⟨pre, b, a1, e, rfl, hpre, hb⟩ := hys
  exact ⟨xs ++ pre, b, a1, e, (List.append_assoc ..).symm, (feedList_append_of_ok hxs).trans hpre, hb⟩

/-- Items before the last are taken without a raise. -/
theorem RaisesAtLast.of_append (h : RaisesAtLast f (xs ++ ys) a r) (hne : ys ≠ []) :
    ∃ a', feedList f xs a = .ok a' ∧ RaisesAtLast f ys a' r := by
  obtain ⟨pre, b, a1, e, heq, hpre, hb⟩ := h
  obtain ⟨ys, c, rfl⟩ := (List.eq_nil_or_concat' ys).resolve_left hne
  obtain ⟨rfl, hc⟩ := List.append_inj' ((List.append_assoc ..).trans heq) rfl
  cases hc
  obtain ⟨a', hxs⟩ := exists_ok_of_feedList_append hpre
  exact ⟨a', hxs, ys, b, a1, e, rfl, (feedList_append_of_ok hxs).symm.trans hpre, hb⟩

/-- A loop that raises does so at the last item of some beginning of its list. -/
theorem exists_raisesAtLast {e : σ} (h : feedList f xs a = .error (e, r)) :
    ∃ bs more, xs = bs ++ more ∧ RaisesAtLast f bs a r := by
  induction xs generalizing a with
  | nil => cases h
  | cons b xs ih =>
    cases hb : f a b with
    | error e' =>
      simp only [feedList, hb, Except.error.injEq] at h
      subst h
      exact ⟨[b], xs, rfl, raisesAtLast_singleton hb⟩
    | ok a1 =>
      simp only [feedList, hb] at h
      obtain ⟨bs, more, rfl, hbs⟩ := ih h
      exact ⟨b :: bs, more, rfl, hbs.prepend (xs := [b]) ((feedList_singleton b).trans hb)⟩

end ListLoop

/-! The section loop, byte by byte. -/

section SectionLoop

variable {σ : Type} {f : σ → Bool → Attempt σ} {lb : BitVec 8} {len n cur : Nat} {b : Byte} {rest bs tail : List Byte}
  {bits more : List Bool} {a a' : σ} {r : Reason}

theorem feedSection_nil (hn : n ≠ 0) : feedSection f lb len [] n cur a = .raised len a .exhausted := by
  rw [feedSection, if_neg hn]

theorem feedSection_cons_of_ok (hn : n ≠ 0)
    (h : feedList f (byteBits b (if n = 1 then effBits lb else 8)) a = .ok a') :
    feedSection f lb len (b :: rest) n cur a = feedSection f lb len rest (n - 1) (cur + 1) a' := by
  rw [feedSection, if_neg hn]
  simp only [h]

theorem feedSection_cons_of_error {e : σ} (hn : n ≠ 0)
    (h : feedList f (byteBits b (if n = 1 then effBits lb else 8)) a = .error (e, r)) :
    feedSection f lb len (b :: rest) n cur a = .raised (cur + 1) e r := by
  rw [feedSection, if_neg hn]
  simp only [h]

theorem length_byteBits (b : Byte) (nb : Nat) : (byteBits b nb).length = nb := by simp [byteBits]

/-- The bits of a section are those of its first byte, then those of the rest (R47). -/
theorem sectionBits_cons (lb : BitVec 8) (b : Byte) (bs : List Byte) :
    sectionBits lb (b :: bs) = byteBits b (if (b :: bs).length = 1 then effBits lb else 8) ++ sectionBits lb bs := by
  cases bs <;> simp [sectionBits]

/-- A raise at a bit of the byte at hand ends the loop just past that byte. -/
theorem feedSection_cons_raised (hn : n ≠ 0) (hbyte : byteBits b (if n = 1 then effBits lb else 8) = bits ++ more)
    (h : RaisesAtLast f bits a r) :
    ∃ e, feedSection f lb len (b :: rest) n cur a = .raised (cur + (bits.length + 7) / 8) e r := by
  have hle : (if n = 1 then effBits lb else 8) ≤ 8 := by
    split
    · exact (effBits_range lb).2
    · exact le_rfl
  have hpos : 0 < bits.length := List.length_pos_iff.mpr h.ne_nil
  have hlen := congrArg List.length hbyte
  rw [length_byteBits, List.length_append] at hlen
  obtain ⟨e, he⟩ := h.feedList_append more
  exact ⟨e, by rw [feedSection_cons_of_error hn (hbyte ▸ he), show (bits.length + 7) / 8 = 1 by omega]⟩

/-- A raise at a bit of the section ends the loop just past the byte of that bit. -/
theorem feedSection_raised (hbits : sectionBits lb bs = bits ++ more) (h : RaisesAtLast f bits a r) :
    ∃ e, feedSection f lb len (bs ++ tail) bs.length cur a = .raised (cur + (bits.length + 7) / 8) e r := by
  induction bs generalizing bits cur a with
  | nil => exact absurd (List.append_eq_nil_iff.mp hbits.symm).1 h.ne_nil
  | cons b bs ih =>
    have hn : (b :: bs).length ≠ 0 := Nat.succ_ne_zero _
    rw [sectionBits_cons] at hbits
    rw [List.cons_append]
    rcases List.append_eq_append_iff.mp hbits with ⟨as, rfl, has⟩ | ⟨as, hbyte, -⟩
    · by_cases hnil : as = []
      · exact feedSection_cons_raised hn (by rw [hnil, List.append_nil, List.append_nil]) h
      · have hbs : (b :: bs).length ≠ 1 := by
          intro hone
          rw [List.length_eq_zero_iff.mp (Nat.succ.inj hone)] at has
          exact hnil (List.append_eq_nil_iff.mp has.symm).1
        obtain ⟨a', hok, has'⟩ := h.of_append hnil
        obtain ⟨e, he⟩ := ih (cur := cur + 1) has has'
        refine ⟨e, ?_⟩
        rw [feedSection_cons_of_ok hn hok, List.length_append, length_byteBits, if_neg hbs, List.length_cons,
          Nat.add_sub_cancel, he]
        congr 1
        omega
    · exact feedSection_cons_raised hn hbyte h

/-- Where IN ends inside the section, its whole bytes are taken and the next read finds none (R42). -/
theorem feedSection_exhausted (hlt : bs.length < n) (h : feedList f (sectionBits 0#8 bs) a = .ok a') :
    feedSection f lb len bs n cur a = .raised len a' .exhausted := by
  induction bs generalizing n cur a with
  | nil =>
    cases h
    exact feedSection_nil (Nat.pos_iff_ne_zero.mp hlt)
  | cons b bs ih =>
    rw [List.length_cons] at hlt
    rw [sectionBits_cons, show effBits 0#8 = 8 from rfl, ite_self] at h
    obtain ⟨a1, hb⟩ := exists_ok_of_feedList_append h
    rw [feedSection_cons_of_ok (by omega) (by rw [if_neg (by omega)]; exact hb)]
    exact ih (by omega) ((feedList_append_of_ok hb).symm.trans h)

end SectionLoop

/-! Beginnings of a packed bit string (R46). -/

theorem take_packed (bits : List Bool) (k : Nat) : (packed bits).take k = packed (bits.take (8 * k)) := by
  have hlen : min k ((bits.length + 7) / 8) = ((bits.take (8 * k)).length + 7) / 8 := by
    rw [List.length_take]
    omega
  rw [packed, packed, ← List.map_take, List.take_range, hlen]
  refine List.map_congr_left fun j hj => packedByte_congr _ _ _ fun p hp => ?_
  have hj : j < ((bits.take (8 * k)).length + 7) / 8 := List.mem_range.mp hj
  rw [List.length_take] at hj
  rw [List.getD_eq_getElem?_getD, List.getD_eq_getElem?_getD, List.getElem?_take_of_lt (by omega)]

theorem take_packed_append {xs : List Bool} (ys : List Bool) {k : Nat} (h : 8 * k ≤ xs.length) :
    (packed (xs ++ ys)).take k = (packed xs).take k := by
  rw [take_packed, take_packed, List.take_append_of_le_length h]

/-- Without its last byte a packed string holds its first whole bytes' bits, read eight a byte. -/
theorem sectionBits_dropLast_packed (bits : List Bool) :
    ∃ more, bits = sectionBits 0#8 (packed bits).dropLast ++ more := by
  have hlen : (bits.take (8 * ((bits.length + 7) / 8 - 1))).length % 8 = 0 := by
    rw [List.length_take]
    omega
  have hread := sectionBits_packed (bits.take (8 * ((bits.length + 7) / 8 - 1)))
  rw [hlen, ← take_packed, ← packed_length, ← List.dropLast_eq_take] at hread
  exact ⟨_, by rw [hread, packed_length, List.take_append_drop]⟩

/-! The packer at MAX_OUT_LEN (R43, R46). -/

section Packer

variable {P : Params} {m : Nat} {out : List Byte} {bits : List Bool} {p : Packer}

theorem PackerAfter.out_eq (h : PackerAfter out bits p) : p.out = out ++ (packed bits).take (bits.length / 8) := by
  obtain ⟨-, -, hout, -⟩ := h
  rw [hout, packed, ← List.map_take, List.take_range, min_eq_left (by omega)]

/-- A byte appended to OUT is too long exactly past the room MAX_OUT_LEN leaves. -/
theorem outTooLong_add_iff (hm : P.maxOutLen = some m) {k : Nat} (hk : 0 < k) :
    outTooLong P (out.length + k) = true ↔ m - out.length < k := by
  simp only [outTooLong, hm, decide_eq_true_eq]
  omega

/-- A `Put` that completes no byte asks nothing of OUT. -/
theorem putBit_congr (P Q : Params) (b : Bool) (h : p.n + 1 ≠ 8) : putBit P p b = putBit Q p b := by
  simp only [putBit, if_neg h]

theorem putBit_fits (hm : P.maxOutLen = some m) (hp : PackerAfter out bits p) (b : Bool)
    (hfit : (bits.length + 1) / 8 ≤ m - out.length) :
    ∃ p', putBit P p b = .ok p' ∧ PackerAfter out (bits ++ [b]) p' := by
  by_cases h8 : p.n + 1 = 8
  · have hn := hp.1
    refine putBit_after P out bits b p hp (Bool.eq_false_iff.mpr fun hlong => ?_)
    rw [outTooLong_add_iff hm (by omega)] at hlong
    omega
  · rw [putBit_congr P { P with maxOutLen := none } b h8]
    exact putBit_after _ out bits b p hp rfl

theorem putBit_outOverflow (hm : P.maxOutLen = some m) (hp : PackerAfter out bits p) (b : Bool)
    (hfit : bits.length / 8 ≤ m - out.length) (hover : m - out.length < (bits.length + 1) / 8) :
    putBit P p b = .error (p, .outOverflow) := by
  obtain ⟨hn, -, hout, -⟩ := hp
  have hlong := (outTooLong_add_iff hm (by omega)).mpr hover
  have hlen : p.out.length + 1 = out.length + (bits.length + 1) / 8 := by
    rw [hout, List.length_append, List.length_map, List.length_range]
    omega
  simp only [putBit, if_pos (show p.n + 1 = 8 by omega), appendOut, List.length_singleton, hlen, hlong, if_true]

/-- `Put` of a bit string goes through to its end, or raises at the first byte OUT has no room for, with the bytes that fit
appended. -/
theorem putBits_cases (hm : P.maxOutLen = some m) (more : List Bool) (hp : PackerAfter out bits p)
    (hfit : bits.length / 8 ≤ m - out.length) :
    (∃ p', putBits P more p = .ok p' ∧ PackerAfter out (bits ++ more) p' ∧
      (bits ++ more).length / 8 ≤ m - out.length) ∨
    (∃ p', putBits P more p = .error (p', .outOverflow) ∧
      p'.out = out ++ (packed (bits ++ more)).take (m - out.length)) := by
  induction more generalizing bits p with
  | nil =>
    rw [List.append_nil]
    exact .inl ⟨p, rfl, hp, hfit⟩
  | cons b more ih =>
    rw [List.append_cons]
    by_cases hroom : (bits.length + 1) / 8 ≤ m - out.length
    · obtain ⟨p1, hput, hp1⟩ := putBit_fits hm hp b hroom
      have hcons : putBits P (b :: more) p = putBits P more p1 := by simp only [putBits, feedList, hput]
      rw [hcons]
      exact ih hp1 (by rwa [List.length_append, List.length_singleton])
    · have hput := putBit_outOverflow hm hp b hfit (Nat.not_le.mp hroom)
      refine .inr ⟨p, by simp only [putBits, feedList, hput], ?_⟩
      rw [hp.out_eq, List.append_assoc, show m - out.length = bits.length / 8 by omega, take_packed_append _ (by omega)]

theorem flush_outOverflow (hm : P.maxOutLen = some m) (hp : PackerAfter out bits p)
    (hfit : bits.length / 8 ≤ m - out.length) (hover : m - out.length < (bits.length + 7) / 8) :
    flush P p = .error (p, .outOverflow) ∧ p.out = out ++ (packed bits).take (m - out.length) := by
  refine ⟨?_, by rw [hp.out_eq, show m - out.length = bits.length / 8 by omega]⟩
  obtain ⟨hn, -, hout, -⟩ := hp
  have hlong := (outTooLong_add_iff hm (by omega)).mpr hover
  have hlen : p.out.length + 1 = out.length + (bits.length + 7) / 8 := by
    rw [hout, List.length_append, List.length_map, List.length_range]
    omega
  simp only [flush, if_pos (show 0 < p.n by omega), appendOut, List.length_singleton, hlen, hlong, if_true]

/-- `Pack(bits)` of a string OUT has no room for raises OUT_OVERFLOW with the bytes that fit appended. -/
theorem pack_outOverflow (hm : P.maxOutLen = some m) (hover : m - out.length < (bits.length + 7) / 8) :
    ∃ p, pack P bits out = .error (p, .outOverflow) ∧ p.out = out ++ (packed bits).take (m - out.length) := by
  rcases putBits_cases hm bits (packerAfter_start out) (Nat.zero_le _) with ⟨p, hput, hp, hfit⟩ | ⟨p, hput, hout⟩
  · obtain ⟨hflush, hout⟩ := flush_outOverflow hm hp hfit hover
    exact ⟨p, by simp only [pack, hput, hflush], hout⟩
  · exact ⟨p, by simp only [pack, hput], hout⟩

end Packer

end Sys2Proof.Machine

/-! TENC (42_tree_codec.md R86, R87): the shape code, and what the command leaves. -/

namespace Sys2Proof.Machine

/-! The shape code (R86). -/

theorem length_shape (t : ETree) : (shape t).length = nodeCount t := by
  induction t with
  | absent | leaf => rfl
  | branch f l r ihl ihr =>
    rw [shape, nodeCount, List.length_cons, List.length_append, ihl, ihr]
    omega

theorem count_true_shape (t : ETree) : (shape t).count true = (leaves t).length := by
  induction t with
  | absent | leaf => rfl
  | branch f l r ihl ihr =>
    rw [shape, leaves, List.count_cons_of_ne (by decide), List.count_append, List.length_append, ihl, ihr]

theorem shape_ne_nil {t : ETree} (h : t ≠ .absent) : shape t ≠ [] := by
  cases t with
  | absent => exact absurd rfl h
  | leaf | branch => exact List.cons_ne_nil _ _

theorem length_leafCounts (t : ETree) : (leafCounts t).length = (leaves t).length := by
  induction t with
  | absent | leaf => rfl
  | branch f l r ihl ihr => rw [leafCounts, leaves, List.length_append, List.length_append, ihl, ihr]

/-- Settles O36: each node gives one bit, and a full tree of n leaves has 2n - 1 nodes. -/
theorem shapeCodeCountsNodes : Obligations.ShapeCodeCountsNodes := by
  unfold Obligations.ShapeCodeCountsNodes
  intro T
  refine ⟨length_shape T, count_true_shape T, fun ⟨_, hfull, _⟩ => ?_, ?_⟩
  · have hcount := hfull.nodeCount_eq
    rw [length_leafCounts] at hcount
    rw [length_shape]
    omega
  · rintro ⟨v, f, rfl⟩
    rfl

/-! The command (R87). -/

section Tenc

variable (P : Params) {s : State} (herr : s.err = false)
include herr

theorem runCommand_tenc_absent (htree : s.tree = .absent) :
    runCommand (tencBody P) s = { s with treeByteCount := 0#32, treeLastBits := 0#8 } :=
  runCommand_of_done herr (by rw [tencBody, if_pos htree])

variable (htree : s.tree ≠ .absent)
include htree

theorem runCommand_tenc_done (hroom : outTooLong P (s.outStream.length + ((shape s.tree).length + 7) / 8) = false)
    (hcount : ((shape s.tree).length + 7) / 8 ≤ 2 ^ 32 - 1) :
    runCommand (tencBody P) s = { s with
      outStream := s.outStream ++ packed (shape s.tree)
      treeByteCount := BitVec.ofNat 32 (((shape s.tree).length + 7) / 8)
      treeLastBits := BitVec.ofNat 8 ((shape s.tree).length % 8) } := by
  obtain ⟨p, hpack, hout, hbytes, hlast⟩ := pack_ok P (shape s.tree) s.outStream hroom
  refine runCommand_of_done herr ?_
  rw [tencBody, if_neg htree]
  simp only [hpack, hout, hbytes, hlast, if_neg (Nat.not_lt.mpr hcount)]

theorem runCommand_tenc_countOverflow
    (hroom : outTooLong P (s.outStream.length + ((shape s.tree).length + 7) / 8) = false)
    (hcount : 2 ^ 32 - 1 < ((shape s.tree).length + 7) / 8) :
    runCommand (tencBody P) s =
      faulted 3#2 0x22#8 { s with outStream := s.outStream ++ packed (shape s.tree) } := by
  obtain ⟨p, hpack, hout, hbytes, -⟩ := pack_ok P (shape s.tree) s.outStream hroom
  refine runCommand_of_raised (r := .countOverflow) herr ?_
  rw [tencBody, if_neg htree]
  simp only [hpack, hout, hbytes, if_pos hcount]

theorem runCommand_tenc_outOverflow {m : Nat} (hm : P.maxOutLen = some m)
    (hover : m < s.outStream.length + ((shape s.tree).length + 7) / 8) :
    runCommand (tencBody P) s = faulted 3#2 0x23#8 { s with
      outStream := s.outStream ++ (packed (shape s.tree)).take (m - s.outStream.length) } := by
  have hpos := List.length_pos_iff.mpr (shape_ne_nil htree)
  obtain ⟨p, hpack, hout⟩ := pack_outOverflow (bits := shape s.tree) (out := s.outStream) hm (by omega)
  refine runCommand_of_raised (r := .outOverflow) herr ?_
  rw [tencBody, if_neg htree]
  simp only [hpack, hout]

end Tenc

/-- Settles O30: the packed shape fits OUT on every chip within 2^64 - 1 bytes, and past MAX_OUT_LEN the packer appends the
bytes that fit. -/
theorem tencWritesTheShape : Obligations.TencWritesTheShape := by
  unfold Obligations.TencWritesTheShape
  intro s herr
  refine ⟨fun htree => ?_, fun htree hlen => ⟨fun hcount => ?_, fun hcount => ?_⟩, fun P m htree hm hover => ?_⟩
  · rw [exec_tenc, runCommand_tenc_absent _ herr htree]
  · rw [exec_tenc, runCommand_tenc_done _ herr htree (outTooLong_params _ hlen) hcount]
  · rw [exec_tenc, runCommand_tenc_countOverflow _ herr htree (outTooLong_params _ hlen) hcount]
  · exact runCommand_tenc_outOverflow P herr htree hm hover

end Sys2Proof.Machine

/-! TDEC bit by bit (42_tree_codec.md R88, R89): what the shape code of a tree, its beginnings and the 0 bits after it do to
the stack. -/

namespace Sys2Proof.Machine

/-! The stack (R88, R89). -/

/-- The stack with a complete node `c` put on it: alone it is the root, else it is attached to the top and the nodes that
become full are closed; none is the SLOT_FULL raise (R89). -/
def place (c : DTree) : List DTree → Option (List DTree)
  | [] => some [c]
  | par :: rest => if isFull par then none else popFull (attach par c) rest

/-- A full node is closed at once. -/
theorem popFull_of_isFull {top : DTree} (h : isFull top = true) (rest : List DTree) :
    popFull top rest = place top rest := by
  cases rest with
  | nil => rfl
  | cons par rest => rw [popFull, if_pos h, place]

theorem popFull_of_not_isFull {top : DTree} (h : isFull top = false) (rest : List DTree) :
    popFull top rest = some (top :: rest) := by
  cases rest with
  | nil => rfl
  | cons par rest => rw [popFull, if_neg (Bool.eq_false_iff.mp h)]

theorem isFull_branch_iff {l r : DTree} : isFull (.branch l r) = true ↔ l ≠ .absent ∧ r ≠ .absent := by
  simp [isFull]

/-- The first child of an open DBranch leaves it open. -/
theorem place_left (c : DTree) (rest : List DTree) :
    place c (.branch .absent .absent :: rest) = some (.branch c .absent :: rest) :=
  popFull_of_not_isFull (by simp [isFull, attach]) rest

/-- The second child of a DBranch makes it a complete node. -/
theorem place_right {b c : DTree} (hb : b ≠ .absent) (hc : c ≠ .absent) (rest : List DTree) :
    place c (.branch b .absent :: rest) = place (.branch b c) rest := by
  have hattach : attach (.branch b .absent) c = .branch b c := by
    cases b with
    | absent => exact absurd rfl hb
    | leaf | branch => rfl
  rw [place, if_neg (by simp [isFull]), hattach, popFull_of_isFull (isFull_branch_iff.mpr ⟨hb, hc⟩)]

/-- A full root takes no further node (R88). -/
theorem place_of_isFull {root : DTree} (h : isFull root = true) (c : DTree) (rest : List DTree) :
    place c (root :: rest) = none := by
  rw [place, if_pos h]

/-! One bit (R89). -/

/-- TDEC's working values at its start (R89). -/
def TdecWork.start : TdecWork := { stack := [], idx := 0, nodes := 0 }

@[simp] theorem TdecWork.start_stack : TdecWork.start.stack = [] := rfl
@[simp] theorem TdecWork.start_idx : TdecWork.start.idx = 0 := rfl
@[simp] theorem TdecWork.start_nodes : TdecWork.start.nodes = 0 := rfl

section Bit

variable {P : Params} {elist : List Entity} {a : TdecWork}

theorem tdecBit_false (hnodes : nodesOver P (a.nodes + 1) = false) :
    tdecBit P elist a false =
      .ok { a with stack := .branch .absent .absent :: a.stack, nodes := a.nodes + 1 } := by
  simp [tdecBit, hnodes]

/-- A 0 bit opens a DBranch. -/
theorem feedList_false_cons (hnodes : nodesOver P (a.nodes + 1) = false) (bits : List Bool) :
    feedList (tdecBit P elist) (false :: bits) a = feedList (tdecBit P elist) bits
      { a with stack := .branch .absent .absent :: a.stack, nodes := a.nodes + 1 } := by
  rw [feedList, tdecBit_false hnodes]

theorem tdecBit_true_noOpenBranch (hstack : a.stack = []) : tdecBit P elist a true = .error (a, .noOpenBranch) := by
  simp [tdecBit, hstack]

theorem tdecBit_true_listExhausted (hstack : a.stack ≠ []) (hlist : elist.length ≤ a.idx) :
    tdecBit P elist a true = .error (a, .listExhausted) := by
  obtain ⟨top, rest, hcons⟩ := List.exists_cons_of_ne_nil hstack
  simp [tdecBit, hcons, List.getElem?_eq_none hlist]

variable (hstack : a.stack ≠ []) (hlist : a.idx < elist.length) (hnodes : nodesOver P (a.nodes + 1) = false)
include hstack hlist hnodes

theorem tdecBit_true_of_place {st : List DTree} (hplace : place (.leaf (elist.getD a.idx [])) a.stack = some st) :
    tdecBit P elist a true = .ok { stack := st, idx := a.idx + 1, nodes := a.nodes + 1 } := by
  obtain ⟨top, rest, hcons⟩ := List.exists_cons_of_ne_nil hstack
  rw [hcons, List.getD_eq_getElem _ _ hlist, place] at hplace
  split at hplace
  · cases hplace
  · next hopen => simp [tdecBit, hcons, List.getElem?_eq_getElem hlist, hopen, hnodes, hplace]

theorem tdecBit_true_slotFull (hplace : place (.leaf (elist.getD a.idx [])) a.stack = none) :
    tdecBit P elist a true = .error (a, .slotFull) := by
  obtain ⟨top, rest, hcons⟩ := List.exists_cons_of_ne_nil hstack
  rw [hcons, List.getD_eq_getElem _ _ hlist, place] at hplace
  split at hplace
  · next hfull => simp [tdecBit, hcons, List.getElem?_eq_getElem hlist, hfull]
  · next hopen => simp [tdecBit, hcons, List.getElem?_eq_getElem hlist, hopen, hnodes, hplace]

end Bit

/-! The tree a shape code spells. -/

/-- The tree of the shape of `t`, with the entities of `elist` from place `i` on at its leaves in pre-order. -/
def relabel (elist : List Entity) : ETree → Nat → DTree
  | .absent, _ => .absent
  | .leaf _ _, i => .leaf (elist.getD i [])
  | .branch _ l r, i => .branch (relabel elist l i) (relabel elist r (i + (leaves l).length))

theorem FullTree.relabel_ne_absent {t : ETree} (ht : FullTree t) (elist : List Entity) (i : Nat) :
    relabel elist t i ≠ .absent := by
  cases t with
  | absent => exact ht.elim
  | leaf | branch => nofun

/-- A tree's own leaves give the tree back without its frequencies (R93). -/
theorem relabel_leaves (t : ETree) (before after : List Entity) :
    relabel (before ++ leaves t ++ after) t before.length = strip t := by
  induction t generalizing before after with
  | absent => rfl
  | leaf v f => simp [relabel, leaves, strip]
  | branch f l r ihl ihr =>
    rw [relabel, strip, leaves]
    congr 1
    · have hl := ihl before (leaves r ++ after)
      simpa only [List.append_assoc] using hl
    · have hr := ihr (before ++ leaves l) after
      simpa only [List.append_assoc, List.length_append] using hr

theorem FullTree.strip_ne_absent {t : ETree} (ht : FullTree t) : strip t ≠ .absent := by
  cases t with
  | absent => exact ht.elim
  | leaf | branch => nofun

theorem MergedTree.isFull_strip {t : ETree} (ht : MergedTree t) : isFull (strip t) = true := by
  obtain ⟨⟨f, l, r, rfl⟩, ⟨-, hl, hr⟩, -⟩ := ht
  exact isFull_branch_iff.mpr ⟨hl.strip_ne_absent, hr.strip_ne_absent⟩

theorem FullTree.one_le_leaves {t : ETree} (ht : FullTree t) : 1 ≤ (leaves t).length := by
  have hcount := ht.nodeCount_eq
  rw [length_leafCounts] at hcount
  omega

/-! The shape code of a full tree (R86, R89). -/

section Shape

variable {P : Params} {elist : List Entity} {t : ETree}

/-- The shape code of a full tree puts the tree, with the next entities of ELIST at its leaves, on the stack. A leaf marker
needs an open DBranch. -/
theorem feedList_shape (ht : FullTree t) {a : TdecWork} {st : List DTree}
    (hroot : a.stack = [] → ∀ v f, t ≠ .leaf v f) (hlist : a.idx + (leaves t).length ≤ elist.length)
    (hnodes : nodesOver P (a.nodes + nodeCount t) = false)
    (hplace : place (relabel elist t a.idx) a.stack = some st) :
    feedList (tdecBit P elist) (shape t) a =
      .ok { stack := st, idx := a.idx + (leaves t).length, nodes := a.nodes + nodeCount t } := by
  induction t generalizing a st with
  | absent => exact ht.elim
  | leaf v f =>
    rw [shape, feedList_singleton, tdecBit_true_of_place (fun hnil => hroot hnil v f rfl) hlist hnodes hplace]
    rfl
  | branch f l r ihl ihr =>
    obtain ⟨-, hl, hr⟩ := ht
    simp only [leaves, nodeCount, List.length_append] at hlist hnodes ⊢
    have hleft := ihl (a := { a with stack := .branch .absent .absent :: a.stack, nodes := a.nodes + 1 }) hl nofun
      (by simp only; omega) (nodesOver_mono P (by simp only; omega) hnodes) (place_left _ _)
    have hright := ihr (st := st) (a := { stack := .branch (relabel elist l a.idx) .absent :: a.stack
                                          idx := a.idx + (leaves l).length, nodes := a.nodes + 1 + nodeCount l })
      hr nofun (by simp only; omega) (nodesOver_mono P (by simp only; omega) hnodes)
      ((place_right (hl.relabel_ne_absent _ _) (hr.relabel_ne_absent _ _) _).trans hplace)
    rw [shape, feedList_false_cons (nodesOver_mono P (by omega) hnodes), feedList_append_of_ok hleft, hright]
    simp only [Nat.add_assoc]

/-- A 0 bit and the shape code of a full tree leave a DBranch with one child open. -/
theorem feedList_shape_left (ht : FullTree t) {a : TdecWork} (hlist : a.idx + (leaves t).length ≤ elist.length)
    (hnodes : nodesOver P (a.nodes + 1 + nodeCount t) = false) :
    feedList (tdecBit P elist) (false :: shape t) a =
      .ok { stack := .branch (relabel elist t a.idx) .absent :: a.stack
            idx := a.idx + (leaves t).length, nodes := a.nodes + 1 + nodeCount t } := by
  rw [feedList_false_cons (nodesOver_mono P (by omega) hnodes)]
  exact feedList_shape (a := { a with stack := .branch .absent .absent :: a.stack, nodes := a.nodes + 1 }) ht nofun hlist
    hnodes (place_left _ _)

/-- Where the stack has no place for the tree, the bit that completes it raises SLOT_FULL. -/
theorem raisesAtLast_shape_slotFull (ht : FullTree t) {a : TdecWork} (hstack : a.stack ≠ [])
    (hlist : a.idx + (leaves t).length ≤ elist.length) (hnodes : nodesOver P (a.nodes + nodeCount t) = false)
    (hplace : place (relabel elist t a.idx) a.stack = none) :
    RaisesAtLast (tdecBit P elist) (shape t) a .slotFull := by
  induction t generalizing a with
  | absent => exact ht.elim
  | leaf v f => exact raisesAtLast_singleton (tdecBit_true_slotFull hstack hlist hnodes hplace)
  | branch f l r ihl ihr =>
    obtain ⟨-, hl, hr⟩ := ht
    simp only [leaves, nodeCount, List.length_append] at hlist hnodes
    refine RaisesAtLast.prepend (xs := false :: shape l) ?_
      (feedList_shape_left hl (by omega) (nodesOver_mono P (by omega) hnodes))
    exact ihr hr nofun (by simp only; omega) (nodesOver_mono P (by simp only; omega) hnodes)
      ((place_right (hl.relabel_ne_absent _ _) (hr.relabel_ne_absent _ _) _).trans hplace)

/-- A DBranch with one child is complete only as the one-entity root (R91). -/
theorem isComplete_branch_absent {d : DTree} {ec : Nat} (h : isComplete (.branch d .absent) ec = true) :
    ec = 1 ∧ ∃ v, d = .leaf v := by
  cases d <;> simp_all [isComplete, isFull]

theorem shape_of_relabel_eq_leaf {i : Nat} {v : Entity} (h : relabel elist t i = .leaf v) : shape t = [true] := by
  cases t with
  | absent | branch => cases h
  | leaf => rfl

/-- The nodes `opened` the bits `part` can leave on the stack: one at least unless `part` is empty, and a single one is no
complete root, but for the code `01` where one entity is expected (R91). -/
def OpenedBy (part : List Bool) (opened : List DTree) : Prop :=
  (opened = [] → part = []) ∧
    ∀ root ec, opened = [root] → isComplete root ec = true → part = [false, true] ∧ ec = 1

theorem openedBy_nil : OpenedBy [] [] := ⟨fun _ => rfl, nofun⟩

theorem openedBy_concat {part : List Bool} {opened : List DTree} {d : DTree}
    (h : opened = [] → ∀ v, d = .leaf v → part = [false, true]) :
    OpenedBy part (opened ++ [.branch d .absent]) := by
  refine ⟨fun hnil => absurd hnil (by simp), fun root ec hone hcomplete => ?_⟩
  obtain ⟨hnil, rfl⟩ : opened = [] ∧ .branch d .absent = root := by simpa [List.append_eq_singleton_iff] using hone
  obtain ⟨hec, v, hv⟩ := isComplete_branch_absent hcomplete
  exact ⟨h hnil v hv, hec⟩

/-- A proper beginning of the shape code of a full tree only opens nodes on the stack. -/
theorem exists_feedList_prefix (ht : FullTree t) {part : List Bool} (hpart : part <+: shape t) (hne : part ≠ shape t)
    {a : TdecWork} (hlist : a.idx + part.count true ≤ elist.length) (hnodes : nodesOver P (a.nodes + part.length) = false) :
    ∃ a' opened, feedList (tdecBit P elist) part a = .ok a' ∧ a'.idx = a.idx + part.count true ∧
      a'.stack = opened ++ a.stack ∧ OpenedBy part opened := by
  induction t generalizing a part with
  | absent => exact ht.elim
  | leaf v f =>
    obtain rfl : part = [] := by
      rcases List.prefix_cons_iff.mp hpart with hnil | ⟨q, rfl, hq⟩
      · exact hnil
      · rw [List.prefix_nil] at hq
        exact absurd (hq ▸ rfl) hne
    exact ⟨a, [], rfl, rfl, rfl, openedBy_nil⟩
  | branch f l r ihl ihr =>
    obtain ⟨-, hl, hr⟩ := ht
    rcases List.prefix_cons_iff.mp hpart with rfl | ⟨q, rfl, hq⟩
    · exact ⟨a, [], rfl, rfl, rfl, openedBy_nil⟩
    rw [List.count_cons_of_ne (by decide)] at hlist ⊢
    rw [List.length_cons] at hnodes
    by_cases hleft : shape l <+: q
    · obtain ⟨q, rfl⟩ := hleft
      rw [List.prefix_append_right_inj] at hq
      rw [List.count_append, count_true_shape] at hlist ⊢
      rw [List.length_append, length_shape] at hnodes
      have hfeed := feedList_shape_left (P := P) (elist := elist) (a := a) hl (by omega)
        (nodesOver_mono P (by omega) hnodes)
      obtain ⟨a', opened, hrest, hidx, hstack, hopened⟩ := ihr hr hq (fun heq => hne (heq ▸ rfl))
        (a := { stack := .branch (relabel elist l a.idx) .absent :: a.stack
                idx := a.idx + (leaves l).length, nodes := a.nodes + 1 + nodeCount l })
        (by simp only; omega) (nodesOver_mono P (by simp only; omega) hnodes)
      refine ⟨a', opened ++ [.branch (relabel elist l a.idx) .absent], ?_, hidx.trans (Nat.add_assoc ..), ?_,
        openedBy_concat fun hnil v hv => ?_⟩
      · rw [← List.cons_append, feedList_append_of_ok hfeed, hrest]
      · rw [hstack, List.append_assoc, List.singleton_append]
      · rw [shape_of_relabel_eq_leaf hv, hopened.1 hnil, List.append_nil]
    · have hq := (List.prefix_or_prefix_of_prefix hq (List.prefix_append _ _)).resolve_right hleft
      obtain ⟨a', opened, hrest, hidx, hstack, -⟩ := ihl hl hq (fun heq => hleft (heq ▸ List.prefix_rfl))
        (a := { a with stack := .branch .absent .absent :: a.stack, nodes := a.nodes + 1 }) hlist
        (nodesOver_mono P (by simp only; omega) hnodes)
      refine ⟨a', opened ++ [.branch .absent .absent], ?_, hidx, ?_, openedBy_concat fun _ v hv => by cases hv⟩
      · rw [feedList_false_cons (nodesOver_mono P (by omega) hnodes), hrest]
      · rw [hstack, List.append_assoc, List.singleton_append]

theorem FullTree.exists_shape_eq_concat (ht : FullTree t) : ∃ init, shape t = init ++ [true] := by
  induction t with
  | absent => exact ht.elim
  | leaf v f => exact ⟨[], rfl⟩
  | branch f l r _ ihr =>
    obtain ⟨init, hinit⟩ := ihr ht.2.2
    exact ⟨false :: (shape l ++ init), by rw [shape, hinit, List.cons_append, List.append_assoc]⟩

end Shape

/-! The shape code of a tree BUILD can have written, from the start. -/

section Built

variable {P : Params} {T : ETree}

theorem feedList_builtTree (hT : BuiltTree T) (hne : T ≠ .absent) (hnodes : nodesOver P (nodeCount T) = false)
    (vs : List Entity) :
    feedList (tdecBit P (leaves T ++ vs)) (shape T) .start =
      .ok { stack := [strip T], idx := (leaves T).length, nodes := nodeCount T } := by
  rcases hT with rfl | ⟨v, f, rfl⟩ | hmerged
  · exact absurd rfl hne
  · exact feedList_shape_left (t := .leaf v f) trivial (by simp [leaves]) hnodes
  · have hroot : relabel (leaves T ++ vs) T TdecWork.start.idx = strip T := relabel_leaves T [] vs
    obtain ⟨⟨f, l, r, rfl⟩, hfull, -⟩ := hmerged
    rw [feedList_shape hfull nofun (by simp) (by simpa using hnodes)
      (congrArg (place · []) hroot)]
    simp

/-- With the last of the leaves missing from ELIST, the last leaf marker finds no entity. -/
theorem raisesAtLast_builtTree_listExhausted (hT : BuiltTree T) (hne : T ≠ .absent)
    (hnodes : nodesOver P (nodeCount T) = false) :
    RaisesAtLast (tdecBit P (leaves T).dropLast) (shape T) .start .listExhausted := by
  rcases hT with rfl | ⟨v, f, rfl⟩ | ⟨⟨f, l, r, rfl⟩, hfull, -⟩
  · exact absurd rfl hne
  · have hopen := tdecBit_false (P := P) (elist := []) (a := .start) (nodesOver_mono P (Nat.le_succ 1) hnodes)
    exact (raisesAtLast_singleton (tdecBit_true_listExhausted (List.cons_ne_nil _ _) le_rfl)).prepend (xs := [false])
      ((feedList_singleton false).trans hopen)
  · obtain ⟨init, hinit⟩ := hfull.exists_shape_eq_concat
    have hleaves := count_true_shape (.branch f l r)
    have hcount := length_shape (.branch f l r)
    rw [hinit, List.count_append, List.count_singleton_self] at hleaves
    rw [hinit, List.length_append, List.length_singleton] at hcount
    have hlist : TdecWork.start.idx + init.count true = (leaves (.branch f l r)).dropLast.length := by
      rw [List.length_dropLast, TdecWork.start_idx]
      omega
    obtain ⟨a, opened, hfeed, hidx, hstack, hopened⟩ := exists_feedList_prefix (P := P) hfull ⟨[true], hinit.symm⟩
      (by simp [hinit]) hlist.le (nodesOver_mono P (by rw [TdecWork.start_nodes]; omega) hnodes)
    have hne : a.stack ≠ [] := by
      rw [hstack, TdecWork.start_stack, List.append_nil]
      intro hnil
      rw [hopened.1 hnil] at hinit
      cases hinit
    rw [hinit]
    exact (raisesAtLast_singleton (tdecBit_true_listExhausted hne (hlist.ge.trans hidx.ge))).prepend hfeed

end Built

/-! 0 bits after a tree, and the node limit (R89). -/

theorem feedList_zeros {P : Params} {elist : List Entity} (k : Nat) {a : TdecWork}
    (hnodes : nodesOver P (a.nodes + k) = false) :
    feedList (tdecBit P elist) (List.replicate k false) a =
      .ok { a with stack := List.replicate k (.branch .absent .absent) ++ a.stack, nodes := a.nodes + k } := by
  induction k with
  | zero => rfl
  | succ k ih =>
    rw [List.replicate_succ', feedList_append_of_ok (ih (nodesOver_mono P (by omega) hnodes)), feedList_singleton,
      tdecBit_false hnodes]
    rfl

/-- What a chip without a node limit takes, one with a limit takes as well or raises NODE_OVERFLOW at. -/
theorem tdecBit_of_unlimited {P : Params} {elist : List Entity} {a a' : TdecWork} {b : Bool}
    (h : tdecBit { P with maxDnodes := none } elist a b = .ok a') :
    tdecBit P elist a b = if nodesOver P a'.nodes then .error (a, .nodeOverflow) else .ok a' := by
  have hfree : nodesOver { P with maxDnodes := none } (a.nodes + 1) = false := rfl
  cases b with
  | false =>
    cases (tdecBit_false hfree).symm.trans h
    simp [tdecBit]
  | true =>
    simp only [tdecBit, Bool.true_eq_false, if_false, hfree, Bool.false_eq_true] at h ⊢
    split at h
    · cases h
    · split at h
      · cases h
      · split at h
        · cases h
        · next hopen =>
          split at h
          · cases h
          · next hpop =>
            cases h
            simp only [if_neg hopen]

/-- Nodes within MAX_DNODES at the start and past it at the end of a loop mean NODE_OVERFLOW on the way. -/
theorem feedList_nodeOverflow {P : Params} {elist : List Entity} {bits : List Bool} {a a' : TdecWork}
    (h : feedList (tdecBit { P with maxDnodes := none } elist) bits a = .ok a') (hstart : nodesOver P a.nodes = false)
    (hover : nodesOver P a'.nodes = true) : ∃ e, feedList (tdecBit P elist) bits a = .error (e, .nodeOverflow) := by
  induction bits generalizing a with
  | nil =>
    cases h
    rw [hstart] at hover
    cases hover
  | cons b bits ih =>
    cases hb : tdecBit { P with maxDnodes := none } elist a b with
    | error e =>
      simp only [feedList, hb] at h
      cases h
    | ok a1 =>
      simp only [feedList, hb] at h
      rw [feedList, tdecBit_of_unlimited hb]
      by_cases hnow : nodesOver P a1.nodes = true
      · exact ⟨a, by simp only [if_pos hnow]⟩
      · simp only [if_neg hnow]
        exact ih h (Bool.eq_false_iff.mpr hnow)

end Sys2Proof.Machine

/-! TDEC (42_tree_codec.md R89 to R94): what the command leaves over a section of packed bits, and over the one TENC wrote. -/

namespace Sys2Proof.Machine

/-! The command, by how its loop over the section ends (R89). -/

/-- TDEC's loop over the tree section (R89). -/
def tdecLoop (P : Params) (s : State) : Feed TdecWork :=
  feedSection (tdecBit P s.elist) s.treeLastBits s.inStream.length (inRest s) s.treeByteCount.toNat (cursor s) .start

/-- IN holds, from the cursor on, the packed bits that TREE_BYTE_COUNT and TREE_LAST_BITS announce (R46, R47). -/
structure HoldsSection (s : State) (bits : List Bool) : Prop where
  nonempty : bits ≠ []
  bytes : ∃ tail, s.inStream.drop s.icur.toNat = packed bits ++ tail
  count : s.treeByteCount.toNat = (bits.length + 7) / 8
  last : s.treeLastBits = BitVec.ofNat 8 (bits.length % 8)

/-- The section does not depend on what the entity codec left. -/
theorem HoldsSection.withEntities {s : State} {bits : List Bool} (h : HoldsSection s bits) (es : List Entity)
    (ec : Word32) : HoldsSection { s with elist := es, entityCount := ec } bits :=
  ⟨h.nonempty, h.bytes, h.count, h.last⟩

theorem HoldsSection.count_ne_zero {s : State} {bits : List Bool} (h : HoldsSection s bits) :
    s.treeByteCount.toNat ≠ 0 := by
  have hpos := List.length_pos_iff.mpr h.nonempty
  rw [h.count]
  omega

theorem tdecRoot_eq_some {elist : List Entity} {ec : Nat} {a : TdecWork} {root : DTree} (hstack : a.stack = [root])
    (hec : a.idx = ec) (hlist : a.idx = elist.length) (hroot : isComplete root ec = true) :
    tdecRoot elist ec a = some root := by
  unfold tdecRoot
  rw [hstack]
  exact if_pos ⟨hec, hlist, hroot⟩

theorem tdecRoot_eq_none {elist : List Entity} {ec : Nat} {a : TdecWork}
    (h : ∀ root, a.stack = [root] → a.idx = ec → a.idx = elist.length → isComplete root ec = false) :
    tdecRoot elist ec a = none := by
  unfold tdecRoot
  split
  · next root hstack =>
    refine if_neg fun ⟨hec, hlist, hroot⟩ => ?_
    rw [h root hstack hec hlist] at hroot
    cases hroot
  · rfl

section Tdec

variable {P : Params} {s : State} {bits more : List Bool} (herr : s.err = false)
include herr

theorem runCommand_tdec_raised (hn : s.treeByteCount.toNat ≠ 0) {cur : Nat} {a : TdecWork} {r : Reason}
    (hloop : tdecLoop P s = .raised cur a r) :
    runCommand (tdecBody P) s =
      faulted r.kind.code r.code { s with dtree := .absent, icur := BitVec.ofNat 64 cur } := by
  unfold tdecLoop TdecWork.start at hloop
  refine runCommand_of_raised herr ?_
  rw [tdecBody, if_neg hn]
  simp only [hloop]
  rfl

/-- Over a section whose bits raise, TDEC stops just past the byte of the bit that does. -/
theorem runCommand_tdec_raisesAtLast (hs : HoldsSection s (bits ++ more)) {r : Reason}
    (h : RaisesAtLast (tdecBit P s.elist) bits .start r) :
    runCommand (tdecBody P) s = faulted r.kind.code r.code
      { s with dtree := .absent, icur := BitVec.ofNat 64 (s.icur.toNat + (bits.length + 7) / 8) } := by
  obtain ⟨tail, hbytes⟩ := hs.bytes
  have hread : sectionBits s.treeLastBits (packed (bits ++ more)) = bits ++ more := by
    rw [hs.last, sectionBits_packed]
  obtain ⟨e, he⟩ := feedSection_raised (len := s.inStream.length) (tail := tail) (cur := cursor s) hread h
  rw [packed_length, ← hs.count, ← hbytes] at he
  exact runCommand_tdec_raised herr hs.count_ne_zero he

/-- Where IN ends inside the section and the bits that are left raise nothing, TDEC is exhausted. -/
theorem runCommand_tdec_exhausted (hlt : (s.inStream.drop s.icur.toNat).length < s.treeByteCount.toNat) {a : TdecWork}
    (h : feedList (tdecBit P s.elist) (sectionBits 0#8 (s.inStream.drop s.icur.toNat)) .start = .ok a) :
    runCommand (tdecBody P) s =
      faulted 1#2 0x01#8 { s with dtree := .absent, icur := BitVec.ofNat 64 s.inStream.length } :=
  runCommand_tdec_raised (r := .exhausted) herr (by omega) (feedSection_exhausted hlt h)

omit herr in
theorem tdecLoop_done (hs : HoldsSection s bits) {a : TdecWork}
    (h : feedList (tdecBit P s.elist) bits .start = .ok a) :
    tdecLoop P s = .done (s.icur.toNat + (bits.length + 7) / 8) a := by
  obtain ⟨tail, hbytes⟩ := hs.bytes
  have hread : sectionBits s.treeLastBits (packed bits) = bits := by rw [hs.last, sectionBits_packed]
  have hloop := feedSection_ok (tdecBit P s.elist) s.treeLastBits s.inStream.length (packed bits) tail (cursor s) .start a
    (hread.symm ▸ h)
  rw [packed_length, ← hbytes] at hloop
  rw [tdecLoop, hs.count]
  exact hloop

theorem runCommand_tdec_endMismatch (hs : HoldsSection s bits) {a : TdecWork}
    (h : feedList (tdecBit P s.elist) bits .start = .ok a)
    (hroot : tdecRoot s.elist s.entityCount.toNat a = none) :
    runCommand (tdecBody P) s = faulted 1#2 0x06#8
      { s with dtree := .absent, icur := BitVec.ofNat 64 (s.icur.toNat + (bits.length + 7) / 8) } := by
  have hloop := tdecLoop_done hs h
  unfold tdecLoop TdecWork.start at hloop
  refine runCommand_of_raised (r := .endMismatch) herr ?_
  rw [tdecBody, if_neg hs.count_ne_zero]
  simp only [hloop, hroot]
  rfl

theorem runCommand_tdec_done (hs : HoldsSection s bits) {a : TdecWork} {root : DTree}
    (h : feedList (tdecBit P s.elist) bits .start = .ok a)
    (hroot : tdecRoot s.elist s.entityCount.toNat a = some root) :
    runCommand (tdecBody P) s =
      { s with dtree := root, icur := BitVec.ofNat 64 (s.icur.toNat + (bits.length + 7) / 8) } := by
  have hloop := tdecLoop_done hs h
  unfold tdecLoop TdecWork.start at hloop
  refine runCommand_of_done herr ?_
  rw [tdecBody, if_neg hs.count_ne_zero]
  simp only [hloop, hroot]
  rfl

theorem runCommand_tdec_emptySection (hn : s.treeByteCount.toNat = 0) (h : s.entityCount.toNat = 0 ∧ s.elist = []) :
    runCommand (tdecBody P) s = { s with dtree := .absent } :=
  runCommand_of_done herr (by rw [tdecBody, if_pos hn, if_pos h])

theorem runCommand_tdec_emptySectionMismatch (hn : s.treeByteCount.toNat = 0)
    (h : ¬(s.entityCount.toNat = 0 ∧ s.elist = [])) :
    runCommand (tdecBody P) s = faulted 1#2 0x07#8 { s with dtree := .absent } :=
  runCommand_of_raised (r := .emptySectionMismatch) herr (by rw [tdecBody, if_pos hn, if_neg h])

end Tdec

theorem toNat_eq_zero_iff (w : Word32) : w.toNat = 0 ↔ w = 0#32 := by
  rw [← BitVec.toNat_inj, BitVec.toNat_ofNat, Nat.zero_mod]

/-- Settles O31: no bit is read of a zero-byte section, and only the counts decide. -/
theorem tdecOfAZeroByteSection : Obligations.TdecOfAZeroByteSection := by
  unfold Obligations.TdecOfAZeroByteSection
  intro s herr hcount
  rw [← toNat_eq_zero_iff] at hcount
  rw [← toNat_eq_zero_iff, exec_tdec]
  exact ⟨fun h => congrArg _ (runCommand_tdec_emptySection herr hcount h),
    fun h => congrArg _ (runCommand_tdec_emptySectionMismatch herr hcount h)⟩

/-- The first bit a byte yields is its most significant one (R47). -/
theorem byteBits_eq_cons (b : Byte) {nb : Nat} (h : 1 ≤ nb) : ∃ more, byteBits b nb = b.getLsbD 7 :: more := by
  obtain ⟨k, rfl⟩ := Nat.exists_eq_add_of_le' h
  exact ⟨_, by rw [byteBits_eq, List.range_succ_eq_map, List.map_cons]⟩

/-- Settles O32: the first bit finds no open DBranch, or the first read no byte. -/
theorem tdecFaultsAtTheFirstBit : Obligations.TdecFaultsAtTheFirstBit := by
  unfold Obligations.TdecFaultsAtTheFirstBit
  intro s herr hcount
  have hn : s.treeByteCount.toNat ≠ 0 := mt (toNat_eq_zero_iff _).mp hcount
  rw [exec_tdec]
  refine ⟨fun b rest hrest hbit => congrArg _ ?_, fun hend => congrArg _ ?_⟩
  · obtain ⟨more, hbyte⟩ := byteBits_eq_cons b
      (show 1 ≤ if s.treeByteCount.toNat = 1 then effBits s.treeLastBits else 8 by
        split
        · exact (effBits_range _).1
        · decide)
    rw [hbit] at hbyte
    have hfirst := raisesAtLast_singleton
      (tdecBit_true_noOpenBranch (P := Config.params) (elist := s.elist) TdecWork.start_stack)
    obtain ⟨e, he⟩ := feedSection_cons_raised (len := s.inStream.length) (rest := rest) (cur := cursor s) hn hbyte hfirst
    rw [← hrest] at he
    exact runCommand_tdec_raised herr hn he
  · have hnil : s.inStream.drop s.icur.toNat = [] := List.drop_eq_nil_of_le hend
    exact runCommand_tdec_exhausted herr (by rw [hnil]; exact Nat.pos_of_ne_zero hn) (by rw [hnil]; rfl)

/-! The section TENC wrote (R93). -/

theorem BuiltTree.nodeCount_le {T : ETree} (hT : BuiltTree T) : nodeCount T ≤ 2 * (leaves T).length := by
  rcases hT with rfl | ⟨v, f, rfl⟩ | ⟨-, hfull, -⟩
  · exact le_rfl
  · exact le_rfl
  · have hcount := hfull.nodeCount_eq
    rw [length_leafCounts] at hcount
    omega

theorem BuiltTree.isComplete_strip {T : ETree} (hT : BuiltTree T) (hne : T ≠ .absent) :
    isComplete (strip T) (leaves T).length = true := by
  rcases hT with rfl | ⟨v, f, rfl⟩ | hmerged
  · exact absurd rfl hne
  · rfl
  · simp [isComplete, hmerged.isFull_strip]

/-- The state in which TDEC finds the section TENC wrote of `T`, and in ELIST the leaves. -/
structure AfterTenc (T : ETree) (u : State) : Prop where
  err : u.err = false
  bytes : u.inStream = packed (shape T)
  icur : u.icur = 0#64
  holds : HoldsSection u (shape T)
  elist : u.elist = leaves T

/-- TENC on an empty OUT leaves the section of its tree (R87). -/
theorem afterTenc {P : Params} {s u : State} {ec : Word32} (herr : s.err = false) (hout : s.outStream = [])
    (hT : BuiltTree s.tree) (hne : s.tree ≠ .absent) (hleaves : (leaves s.tree).length < 2 ^ 32)
    (hroom : outTooLong P (nodeCount s.tree) = false)
    (hu : u = { runCommand (tencBody P) s with
      inStream := (runCommand (tencBody P) s).outStream, icur := 0#64, elist := leaves s.tree, entityCount := ec }) :
    AfterTenc s.tree u := by
  have hle := hT.nodeCount_le
  have hpos := List.length_pos_iff.mpr (shape_ne_nil hne)
  have hlen := length_shape s.tree
  have htenc := runCommand_tenc_done P herr hne (outTooLong_mono P (by rw [hout, List.length_nil]; omega) hroom) (by omega)
  rw [htenc, hout, List.nil_append] at hu
  subst hu
  refine ⟨herr, rfl, rfl, ⟨shape_ne_nil hne, ⟨[], (List.append_nil _).symm⟩, ?_, rfl⟩, rfl⟩
  exact Nat.mod_eq_of_lt (by omega)

theorem AfterTenc.length_inStream {T : ETree} {u : State} (hu : AfterTenc T u) :
    u.inStream.length = ((shape T).length + 7) / 8 := by
  rw [hu.bytes, packed_length]

/-- The end of the section is the end of IN. -/
theorem AfterTenc.section_end {T : ETree} {u : State} (hu : AfterTenc T u) :
    u.icur.toNat + ((shape T).length + 7) / 8 = u.inStream.length := by
  rw [hu.icur, hu.length_inStream]
  exact Nat.zero_add _

section OverTenc

variable {P : Params} {T : ETree} {u : State} (hu : AfterTenc T u) (hT : BuiltTree T) (hne : T ≠ .absent)
include hu hT hne

/-- Over a larger tree than MAX_DNODES allows, NODE_OVERFLOW comes before the end of the section. -/
theorem runCommand_tdec_nodeOverflow {m : Nat} (hm : P.maxDnodes = some m) (hover : m < nodeCount T) :
    ∃ cur, runCommand (tdecBody P) u =
      faulted 3#2 0x21#8 { u with dtree := .absent, icur := BitVec.ofNat 64 cur } := by
  have hlist : u.elist = leaves T ++ [] := by rw [hu.elist, List.append_nil]
  have hfree := feedList_builtTree (P := { P with maxDnodes := none }) hT hne rfl []
  rw [← hlist] at hfree
  obtain ⟨e, he⟩ := feedList_nodeOverflow hfree (by simp [nodesOver, hm]) (by simp [nodesOver, hm, hover])
  obtain ⟨bits, more, hbits, hraises⟩ := exists_raisesAtLast he
  exact ⟨_, runCommand_tdec_raisesAtLast (r := .nodeOverflow) hu.err (hbits ▸ hu.holds) hraises⟩

variable (hnodes : nodesOver P (nodeCount T) = false)
include hnodes

theorem runCommand_tdec_rebuilds (hec : u.entityCount.toNat = (leaves T).length) :
    runCommand (tdecBody P) u = { u with dtree := strip T, icur := BitVec.ofNat 64 u.inStream.length } := by
  have hlist : u.elist = leaves T ++ [] := by rw [hu.elist, List.append_nil]
  rw [← hu.section_end]
  refine runCommand_tdec_done hu.err hu.holds (hlist ▸ feedList_builtTree hT hne hnodes [])
    (tdecRoot_eq_some rfl hec.symm ?_ ?_)
  · rw [hu.elist]
  · rw [hec]
    exact hT.isComplete_strip hne

/-- With more entities in ELIST than leaves, or another ENTITY_COUNT than their number, the end check fails. -/
theorem runCommand_tdec_miscount (vs : List Entity) (ec : Word32)
    (hmis : ec.toNat = (leaves T).length → vs ≠ []) :
    runCommand (tdecBody P) { u with elist := leaves T ++ vs, entityCount := ec } = faulted 1#2 0x06#8 { u with
      elist := leaves T ++ vs, entityCount := ec, dtree := .absent, icur := BitVec.ofNat 64 u.inStream.length } := by
  rw [← hu.section_end]
  refine runCommand_tdec_endMismatch hu.err (hu.holds.withEntities _ _) (feedList_builtTree hT hne hnodes vs)
    (tdecRoot_eq_none fun _ _ hec hlen => absurd ?_ (hmis hec.symm))
  rw [List.length_append] at hlen
  exact List.length_eq_zero_iff.mp (by simpa using hlen)

theorem runCommand_tdec_listExhausted (ec : Word32) :
    runCommand (tdecBody P) { u with elist := (leaves T).dropLast, entityCount := ec } = faulted 1#2 0x03#8 { u with
      elist := (leaves T).dropLast, entityCount := ec
      dtree := .absent, icur := BitVec.ofNat 64 u.inStream.length } := by
  have hholds := hu.holds.withEntities (leaves T).dropLast ec
  rw [← List.append_nil (shape T)] at hholds
  rw [← hu.section_end]
  exact runCommand_tdec_raisesAtLast (s := { u with elist := (leaves T).dropLast, entityCount := ec })
    (r := .listExhausted) hu.err hholds (raisesAtLast_builtTree_listExhausted hT hne hnodes)

theorem runCommand_tdec_truncated :
    runCommand (tdecBody P) { u with inStream := u.inStream.dropLast } = faulted 1#2 0x01#8 { u with
      inStream := u.inStream.dropLast, dtree := .absent, icur := BitVec.ofNat 64 (u.inStream.length - 1) } := by
  have hlist : u.elist = leaves T ++ [] := by rw [hu.elist, List.append_nil]
  have hfeed := feedList_builtTree hT hne hnodes []
  obtain ⟨more, hmore⟩ := sectionBits_dropLast_packed (shape T)
  rw [← hlist, hmore, ← hu.bytes] at hfeed
  obtain ⟨a, ha⟩ := exists_ok_of_feedList_append hfeed
  have hdrop : u.inStream.dropLast.drop u.icur.toNat = u.inStream.dropLast := by rw [hu.icur]; rfl
  have hcount := hu.holds.count_ne_zero
  have hlen : u.inStream.dropLast.length < u.treeByteCount.toNat := by
    rw [List.length_dropLast, hu.length_inStream, ← hu.holds.count]
    omega
  rw [runCommand_tdec_exhausted (s := { u with inStream := u.inStream.dropLast }) hu.err (by rwa [hdrop])
    (by rw [hdrop]; exact ha), List.length_dropLast]

end OverTenc

/-- Settles O33: the section's bits put `strip` of the tree on the stack, and the end check accepts it. -/
theorem tdecRebuildsTheTencTree : Obligations.TdecRebuildsTheTencTree := by
  unfold Obligations.TdecRebuildsTheTencTree
  intro P s u herr hout hT hne hleaves hroom hnodes hu
  have hec : u.entityCount.toNat = (leaves s.tree).length := by
    rw [hu]
    exact Nat.mod_eq_of_lt hleaves
  have hrun := runCommand_tdec_rebuilds (afterTenc herr hout hT hne hleaves hroom hu) hT hne hnodes hec
  exact ⟨hrun, fun hP => congrArg _ (hP ▸ hrun)⟩

/-- Settles O35: the chip without a node limit would take the whole section. -/
theorem tdecStopsAtTheNodeLimit : Obligations.TdecStopsAtTheNodeLimit := by
  unfold Obligations.TdecStopsAtTheNodeLimit
  intro P s u m herr hout hT hne hleaves hroom hm hover hu
  obtain ⟨cur, hrun⟩ := runCommand_tdec_nodeOverflow (afterTenc herr hout hT hne hleaves hroom hu) hT hne hm hover
  rw [hrun]
  exact ⟨rfl, rfl, rfl, rfl⟩

end Sys2Proof.Machine

/-! TDEC over sections TENC does not write (42_tree_codec.md R91, R94): 0 bits after a tree, a beginning of a tree, and a second
tree after a full root. -/

namespace Sys2Proof.Machine

theorem MergedTree.ne_absent {t : ETree} (ht : MergedTree t) : t ≠ .absent := by
  obtain ⟨⟨f, l, r, rfl⟩, -⟩ := ht
  nofun

section Malformed

variable {P : Params} {s : State} {T : ETree} (herr : s.err = false)
include herr

/-- 0 bits after a tree leave DBranches open above the root. -/
theorem runCommand_tdec_zerosAfter (hT : BuiltTree T) (hne : T ≠ .absent) {vs : List Entity} {k : Nat}
    (hlist : s.elist = leaves T ++ vs) (hnodes : nodesOver P (nodeCount T + (k + 1)) = false)
    (hs : HoldsSection s (shape T ++ List.replicate (k + 1) false)) :
    runCommand (tdecBody P) s = faulted 1#2 0x06#8 { s with
      dtree := .absent, icur := BitVec.ofNat 64 (s.icur.toNat + ((shape T).length + (k + 1) + 7) / 8) } := by
  have hfeed := (feedList_append_of_ok (ys := List.replicate (k + 1) false)
    (feedList_builtTree hT hne (nodesOver_mono P (by omega) hnodes) vs)).trans (feedList_zeros (k + 1) hnodes)
  rw [← hlist] at hfeed
  have hend := runCommand_tdec_endMismatch herr hs hfeed (tdecRoot_eq_none fun root hstack =>
    absurd (congrArg List.length hstack) (by simp))
  rwa [List.length_append, List.length_replicate] at hend

/-- A section that ends inside a tree leaves no complete root, but for the one-entity code `01`. -/
theorem runCommand_tdec_endsInside (hT : MergedTree T) {part : List Bool} (hpart : part <+: shape T)
    (hne : part ≠ shape T) (hsingle : part = [false, true] → s.entityCount ≠ 1#32)
    (hlist : part.count true ≤ s.elist.length) (hnodes : nodesOver P part.length = false) (hs : HoldsSection s part) :
    runCommand (tdecBody P) s = faulted 1#2 0x06#8 { s with
      dtree := .absent, icur := BitVec.ofNat 64 (s.icur.toNat + (part.length + 7) / 8) } := by
  obtain ⟨-, hfull, -⟩ := hT
  obtain ⟨a, opened, hfeed, -, hstack, -, hroot⟩ := exists_feedList_prefix (P := P) (elist := s.elist) (a := .start) hfull
    hpart hne (by simpa using hlist) (by simpa using hnodes)
  rw [TdecWork.start_stack, List.append_nil] at hstack
  refine runCommand_tdec_endMismatch herr hs hfeed (tdecRoot_eq_none fun root hone _ _ => ?_)
  by_contra hcomplete
  obtain ⟨hcode, hec⟩ := hroot root _ (hstack.symm.trans hone) (Bool.eq_true_of_not_eq_false hcomplete)
  exact hsingle hcode (BitVec.eq_of_toNat_eq hec)

/-- A second tree finds no slot in a full root, at the bit that completes it. -/
theorem runCommand_tdec_secondTree {T' : ETree} (hT : MergedTree T) (hT' : FullTree T') {vs : List Entity}
    (hlist : s.elist = leaves T ++ leaves T' ++ vs) (hnodes : nodesOver P (nodeCount T + nodeCount T') = false)
    {more : List Bool} (hs : HoldsSection s (shape T ++ shape T' ++ more)) :
    runCommand (tdecBody P) s = faulted 1#2 0x04#8 { s with
      dtree := .absent, icur := BitVec.ofNat 64 (s.icur.toNat + ((shape T ++ shape T').length + 7) / 8) } := by
  have hfirst := feedList_builtTree (.inr (.inr hT)) hT.ne_absent (nodesOver_mono P (Nat.le_add_right _ _) hnodes)
    (leaves T' ++ vs)
  rw [← List.append_assoc, ← hlist] at hfirst
  have hsecond := raisesAtLast_shape_slotFull (elist := s.elist)
    (a := { stack := [strip T], idx := (leaves T).length, nodes := nodeCount T }) hT' (List.cons_ne_nil _ _)
    (by rw [hlist, List.append_assoc, List.length_append, List.length_append]; simp only; omega) hnodes
    (place_of_isFull hT.isFull_strip _ _)
  exact runCommand_tdec_raisesAtLast (r := .slotFull) herr hs (hsecond.prepend hfirst)

end Malformed

/-- Settles O34: over TENC's section the loop misses a byte, an entity or a count; over the others the stack never holds
exactly one complete root. -/
theorem tdecDetectsTruncationAndMiscount : Obligations.TdecDetectsTruncationAndMiscount := by
  unfold Obligations.TdecDetectsTruncationAndMiscount
  refine ⟨fun P s u herr hout hT hne hleaves hroom hnodes hu => ?_,
    fun P s T k vs tail herr hT hne hlist hnodes hbytes hcount hlast => ?_,
    fun P s T part tail herr hT hpart hnil hne hsingle hlist hnodes hbytes hcount hlast => ?_,
    fun P s T T' more vs tail herr hT hT' hlist hnodes hbytes hcount hlast => ?_⟩
  · have hafter := afterTenc herr hout hT hne hleaves hroom hu
    refine ⟨runCommand_tdec_truncated hafter hT hne hnodes,
      fun v ec => runCommand_tdec_miscount hafter hT hne hnodes [v] ec fun _ => List.cons_ne_nil _ _,
      fun ec => runCommand_tdec_listExhausted hafter hT hne hnodes ec, fun ec hec => ?_⟩
    have hmis := runCommand_tdec_miscount hafter hT hne hnodes [] ec fun h => absurd h hec
    rwa [List.append_nil, ← hafter.elist] at hmis
  · have hlen : (shape T ++ List.replicate (k + 1) false).length = (shape T).length + (k + 1) := by simp
    exact runCommand_tdec_zerosAfter herr hT hne hlist hnodes
      ⟨by simp, ⟨tail, hbytes⟩, by rw [hlen, hcount], by rw [hlen, hlast]⟩
  · exact runCommand_tdec_endsInside herr hT hpart hne hsingle hlist hnodes ⟨hnil, ⟨tail, hbytes⟩, hcount, hlast⟩
  · exact runCommand_tdec_secondTree herr hT hT' hlist hnodes
      ⟨by simp [shape_ne_nil hT.ne_absent], ⟨tail, hbytes⟩, hcount, hlast⟩

end Sys2Proof.Machine

/-! The entity codec (43_entity_codec.md R95 to R98): EENC's loop over the leaves, EDEC's two ends, and EDEC over what EENC
wrote. -/

namespace Sys2Proof.Machine

/-! EENC on one leaf and on a list of leaves (R95). -/

section EencLoop

variable {P : Params} {a : EencWork} {v : Entity}

theorem eencLeaf_ok (hcount : a.count ≠ 2 ^ 32 - 1) (hroom : outTooLong P (a.out.length + v.length) = false) :
    eencLeaf P a v = .ok { out := a.out ++ v, count := a.count + 1 } := by
  rw [eencLeaf, if_neg hcount, appendOut_eq_some P a.out v hroom]

theorem eencLeaf_countOverflow (hcount : a.count = 2 ^ 32 - 1) : eencLeaf P a v = .error (a, .countOverflow) := by
  rw [eencLeaf, if_pos hcount]

theorem eencLeaf_outOverflow (hcount : a.count ≠ 2 ^ 32 - 1) (hover : outTooLong P (a.out.length + v.length) = true) :
    eencLeaf P a v = .error (a, .outOverflow) := by
  rw [eencLeaf, if_neg hcount, appendOut, if_pos hover]

/-- Leaves that can be counted and that OUT has room for are appended and counted. -/
theorem feedList_eencLeaf_ok {es : List Entity} (hcount : a.count + es.length ≤ 2 ^ 32 - 1)
    (hroom : outTooLong P (a.out.length + es.flatten.length) = false) :
    feedList (eencLeaf P) es a = .ok { out := a.out ++ es.flatten, count := a.count + es.length } := by
  induction es generalizing a with
  | nil => simp [feedList]
  | cons v es ih =>
    rw [List.length_cons] at hcount
    rw [List.flatten_cons, List.length_append] at hroom
    have hleaf := eencLeaf_ok (v := v) (a := a) (by omega) (outTooLong_mono P (by omega) hroom)
    have hrest := ih (a := { out := a.out ++ v, count := a.count + 1 }) (by simp only; omega)
      (by rwa [List.length_append, Nat.add_assoc])
    rw [feedList, hleaf, List.flatten_cons, List.length_cons, ← List.append_assoc, Nat.add_comm es.length, ← Nat.add_assoc]
    exact hrest

end EencLoop

/-! The command EENC (R95). -/

section Eenc

variable (P : Params) {s : State} (herr : s.err = false)
include herr

theorem runCommand_eenc_done (hcount : (leaves s.tree).length ≤ 2 ^ 32 - 1)
    (hroom : outTooLong P (s.outStream.length + (leaves s.tree).flatten.length) = false) :
    runCommand (eencBody P) s = { s with
      outStream := s.outStream ++ (leaves s.tree).flatten
      entityCount := BitVec.ofNat 32 (leaves s.tree).length } := by
  have hloop := feedList_eencLeaf_ok (a := { out := s.outStream, count := 0 }) (by rwa [Nat.zero_add]) hroom
  rw [Nat.zero_add] at hloop
  exact runCommand_of_done herr (by rw [eencBody, hloop]; rfl)

/-- A leaf that raises leaves the leaves before it appended and counted (R111; log 22). -/
theorem runCommand_eenc_raised {es es' : List Entity} {v : Entity} {r : Reason} (hleaves : leaves s.tree = es ++ v :: es')
    (hcount : es.length ≤ 2 ^ 32 - 1) (hroom : outTooLong P (s.outStream.length + es.flatten.length) = false)
    (hv : eencLeaf P { out := s.outStream ++ es.flatten, count := es.length } v =
      .error ({ out := s.outStream ++ es.flatten, count := es.length }, r)) :
    runCommand (eencBody P) s = faulted r.kind.code r.code { s with
      outStream := s.outStream ++ es.flatten, entityCount := BitVec.ofNat 32 es.length } := by
  have hloop := feedList_eencLeaf_ok (a := { out := s.outStream, count := 0 }) (by rwa [Nat.zero_add]) hroom
  rw [Nat.zero_add] at hloop
  refine runCommand_of_raised herr ?_
  rw [eencBody, hleaves, feedList_append_of_ok hloop, feedList, hv]
  rfl

end Eenc

/-- Settles O37: the loop takes every leaf it can count and has room for, and raises at the first one it cannot. -/
theorem eencWritesTheLeaves : Obligations.EencWritesTheLeaves := by
  unfold Obligations.EencWritesTheLeaves
  refine fun s herr => ⟨fun hcount hlen => ?_, fun hcount hlen => ?_, fun P es v es' hleaves hcount hroom hover => ?_⟩
  · rw [exec_eenc, runCommand_eenc_done _ herr hcount (outTooLong_params _ hlen)]
  · have hsplit := (List.take_append_drop (2 ^ 32 - 1) (leaves s.tree)).symm
    rw [List.drop_eq_getElem_cons hcount] at hsplit
    have htake : ((leaves s.tree).take (2 ^ 32 - 1)).length = 2 ^ 32 - 1 := List.length_take_of_le hcount.le
    rw [exec_eenc, runCommand_eenc_raised _ herr hsplit htake.le (outTooLong_params _ hlen)
      (eencLeaf_countOverflow htake), htake]
    rfl
  · refine runCommand_eenc_raised P (r := .outOverflow) herr hleaves hcount.le hroom
      (eencLeaf_outOverflow hcount.ne ?_)
    rwa [List.length_append]

/-! The command EDEC (R96). -/

section Edec

variable {s : State} (herr : s.err = false)
include herr

theorem runCommand_edec_badEntitySize (hW : s.entitySize.toNat ∉ [1, 2, 4, 8]) :
    runCommand edecBody s = faulted 1#2 0x08#8 s :=
  runCommand_of_raised (r := .badEntitySize) herr (by rw [edecBody, entityWidth_eq_none s hW])

variable (hW : s.entitySize.toNat ∈ [1, 2, 4, 8])
include hW

theorem runCommand_edec_done
    (hlen : s.entityCount.toNat * s.entitySize.toNat ≤ (s.inStream.drop s.icur.toNat).length) :
    runCommand edecBody s = { s with
      elist := (List.range s.entityCount.toNat).map fun i =>
        (s.inStream.drop (s.icur.toNat + i * s.entitySize.toNat)).take s.entitySize.toNat
      icur := BitVec.ofNat 64 (s.icur.toNat + s.entityCount.toNat * s.entitySize.toNat) } := by
  have hloop := takeRecords_ok s.entitySize.toNat s.inStream.length s.entityCount.toNat (inRest s) (cursor s) [] hlen
  simp only [inRest, List.drop_drop, List.nil_append] at hloop
  exact runCommand_of_done herr (by simp only [edecBody, entityWidth_eq_some s hW, inRest, hloop]; rfl)

theorem runCommand_edec_exhausted
    (hlen : (s.inStream.drop s.icur.toNat).length < s.entityCount.toNat * s.entitySize.toNat) :
    runCommand edecBody s = faulted 1#2 0x01#8 { s with
      elist := records s.entitySize.toNat (s.inStream.drop s.icur.toNat)
      icur := BitVec.ofNat 64 s.inStream.length } := by
  have hwidth := entityWidth_eq_some s hW
  have hloop := takeRecords_exhausted s.entitySize.toNat s.inStream.length s.entityCount.toNat
    (one_le_of_entityWidth hwidth) (inRest s) (cursor s) [] hlen
  exact runCommand_of_raised (r := .exhausted) herr (by simp only [edecBody, hwidth, hloop]; rfl)

end Edec

/-- Settles O38: the width is checked first, and then the bytes at the cursor either hold every record or do not. -/
theorem edecReadsTheRecords : Obligations.EdecReadsTheRecords := by
  unfold Obligations.EdecReadsTheRecords
  refine fun s herr => ⟨by decide, fun hW => ?_, fun hW hfits => ?_, fun hW hcount hshort => ?_⟩
  · rw [exec_edec, runCommand_edec_badEntitySize herr hW]
  · have hlen : s.entityCount.toNat * s.entitySize.toNat ≤ (s.inStream.drop s.icur.toNat).length := by
      rcases hfits with hnone | hfits
      · simp [hnone]
      · rw [List.length_drop]
        omega
    rw [exec_edec, runCommand_edec_done herr hW hlen]
  · have hpos : 0 < s.entityCount.toNat * s.entitySize.toNat :=
      Nat.mul_pos (Nat.pos_of_ne_zero hcount) (one_le_of_entityWidth (entityWidth_eq_some s hW))
    rw [exec_edec, runCommand_edec_exhausted herr hW (by rw [List.length_drop]; omega)]

/-! EDEC over the section EENC wrote (R97, R98). -/

/-- Entities of W bytes, written one after the other. -/
theorem length_flatten_of_width {W : Nat} {es : List Entity} (hes : ∀ v ∈ es, v.length = W) :
    es.flatten.length = es.length * W := by
  rw [List.length_flatten, List.map_congr_left hes, List.map_const', List.sum_replicate, smul_eq_mul]

theorem records_flatten {W : Nat} (hW : 1 ≤ W) {es : List Entity} (hes : ∀ v ∈ es, v.length = W) :
    records W es.flatten = es := by
  induction es with
  | nil => exact records_nil W
  | cons v es ih =>
    obtain ⟨hv, hes⟩ := List.forall_mem_cons.mp hes
    rw [List.flatten_cons, records_cons W _ hW (by rw [List.length_append]; omega), List.take_left' hv,
      List.drop_left' hv, ih hes]

/-- What a state holds in which IN is the section of the entities `es` of W bytes, with the cursor at its start. -/
structure HoldsEntities (u : State) (W : Nat) (es : List Entity) : Prop where
  err : u.err = false
  size : u.entitySize.toNat = W
  legal : W ∈ [1, 2, 4, 8]
  width : ∀ v ∈ es, v.length = W
  count : u.entityCount.toNat = es.length
  icur : u.icur = 0#64
  bytes : u.inStream = es.flatten

section HoldsEntities

variable {u : State} {W : Nat} {es : List Entity} (hu : HoldsEntities u W es)
include hu

theorem HoldsEntities.size_mem : u.entitySize.toNat ∈ [1, 2, 4, 8] := hu.size ▸ hu.legal

theorem HoldsEntities.one_le : 1 ≤ W := hu.size ▸ one_le_of_entityWidth (entityWidth_eq_some u hu.size_mem)

theorem HoldsEntities.length_inStream : u.inStream.length = es.length * W := by
  rw [hu.bytes, length_flatten_of_width hu.width]

theorem HoldsEntities.icur_toNat : u.icur.toNat = 0 := congrArg BitVec.toNat hu.icur

theorem runCommand_edec_readsBack :
    runCommand edecBody u = { u with elist := es, icur := BitVec.ofNat 64 u.inStream.length } := by
  have hdiv : u.inStream.length / W = es.length := by rw [hu.length_inStream, Nat.mul_div_cancel _ hu.one_le]
  have hrecords : (List.range es.length).map (fun i => (u.inStream.drop (i * W)).take W) = es := by
    rw [← hdiv]
    exact (congrArg (records W) hu.bytes).trans (records_flatten hu.one_le hu.width)
  rw [runCommand_edec_done hu.err hu.size_mem]
  · simp only [hu.count, hu.size, hu.icur_toNat, Nat.zero_add, hrecords, hu.length_inStream]
  · rw [hu.icur_toNat, hu.count, hu.size, List.drop_zero, hu.length_inStream]

theorem runCommand_edec_truncated (hne : es ≠ []) :
    runCommand edecBody { u with inStream := u.inStream.dropLast } = faulted 1#2 0x01#8 { u with
      inStream := u.inStream.dropLast
      elist := records u.entitySize.toNat (u.inStream.dropLast.drop u.icur.toNat)
      icur := BitVec.ofNat 64 u.inStream.dropLast.length } := by
  refine runCommand_edec_exhausted (s := { u with inStream := u.inStream.dropLast }) hu.err hu.size_mem ?_
  have hpos := Nat.mul_pos (List.length_pos_iff.mpr hne) hu.one_le
  simp only [hu.icur_toNat, hu.count, hu.size, List.drop_zero, List.length_dropLast, hu.length_inStream]
  omega

end HoldsEntities

/-- Settles O39: EENC leaves the section of its leaves, whose records are the leaves, and one byte less is too few. -/
theorem edecReadsBackEenc : Obligations.EdecReadsBackEenc := by
  unfold Obligations.EdecReadsBackEenc
  intro s t u W herr hout hsize hlegal hwidth hcount heenc hu
  have hW : W ≤ 8 := (by decide : ∀ w ∈ [1, 2, 4, 8], w ≤ 8) W hlegal
  have hlen := length_flatten_of_width hwidth
  have hbound := Nat.mul_le_mul hcount hW
  rw [exec_eenc, runCommand_eenc_done _ herr hcount
    (outTooLong_params _ (by rw [hout, hlen, List.length_nil]; omega)), hout, List.nil_append] at heenc
  cases heenc
  have hholds : HoldsEntities u W (leaves s.tree) := by
    subst hu
    refine ⟨herr, ?_, hlegal, hwidth, Nat.mod_eq_of_lt (by omega), rfl, rfl⟩
    exact (congrArg BitVec.toNat hsize).trans (Nat.mod_eq_of_lt (by omega))
  refine ⟨hlen, rfl, by rw [exec_edec, runCommand_edec_readsBack hholds], fun hne => ?_⟩
  exact ⟨_, by rw [exec_edec, runCommand_edec_truncated hholds hne], rfl, rfl, rfl⟩

end Sys2Proof.Machine

/-! PENC (44_payload_codec.md R99): its loop is the packer over the codes, and what the command leaves. -/

namespace Sys2Proof.Machine

theorem codeBits_nil (t : ETree) : codeBits t [] = [] := rfl

theorem codeBits_cons (t : ETree) (v : Entity) (es : List Entity) :
    codeBits t (v :: es) = (codeOf (codeTable t) v).getD [] ++ codeBits t es := rfl

theorem codeBits_append (t : ETree) (xs ys : List Entity) : codeBits t (xs ++ ys) = codeBits t xs ++ codeBits t ys :=
  List.flatMap_append

theorem codeBits_concat (t : ETree) (es : List Entity) (v : Entity) :
    codeBits t (es ++ [v]) = codeBits t es ++ (codeOf (codeTable t) v).getD [] := by
  rw [codeBits_append, codeBits_cons, codeBits_nil, List.append_nil]

/-! The loop (R99). -/

section PencLoop

variable {P : Params} {t : ETree} {p : Packer} {es : List Entity} {v : Entity}

/-- An entity with a code puts the bits of its code. -/
theorem encodeEntity_eq_putBits (hv : codeOf (codeTable t) v ≠ none) :
    encodeEntity P (codeTable t) p v = putBits P ((codeOf (codeTable t) v).getD []) p := by
  obtain ⟨code, hcode⟩ := Option.ne_none_iff_exists'.mp hv
  rw [encodeEntity, hcode, Option.getD_some]

theorem encodeEntity_codeMissing (hv : codeOf (codeTable t) v = none) :
    encodeEntity P (codeTable t) p v = .error (p, .codeMissing) := by
  rw [encodeEntity, hv]

/-- Entities that have codes put the bits of their codes, one after the other. -/
theorem feedList_encodeEntity (hes : ∀ u ∈ es, codeOf (codeTable t) u ≠ none) :
    feedList (encodeEntity P (codeTable t)) es p = putBits P (codeBits t es) p := by
  induction es generalizing p with
  | nil => rfl
  | cons v es ih =>
    obtain ⟨hv, hes⟩ := List.forall_mem_cons.mp hes
    rw [feedList, encodeEntity_eq_putBits hv, codeBits_cons, putBits, putBits, feedList_append]
    cases feedList (putBit P) ((codeOf (codeTable t) v).getD []) p with
    | error e => rfl
    | ok p' => exact ih hes

/-- With room in OUT for the whole bytes of their codes, the entities are packed. -/
theorem exists_packed_entities {out : List Byte} (hes : ∀ u ∈ es, codeOf (codeTable t) u ≠ none)
    (hroom : outTooLong P (out.length + (codeBits t es).length / 8) = false) :
    ∃ p, feedList (encodeEntity P (codeTable t)) es (.start out) = .ok p ∧ PackerAfter out (codeBits t es) p := by
  rw [feedList_encodeEntity hes]
  exact putBits_after P out _ [] _ (packerAfter_start out) (by rwa [List.length_nil, Nat.zero_add])

end PencLoop

/-! The command. -/

theorem runCommand_penc_badWidth (P : Params) {s : State} (herr : s.err = false)
    (hW : s.entitySize.toNat ∉ [1, 2, 4, 8]) : runCommand (pencBody P) s = faulted 2#2 0x13#8 (pencClear s) :=
  runCommand_of_raised (r := .badWidth) herr (pencBody_badWidth P s (entityWidth_eq_none s hW))

/-- The bits of the data section, where every record of IN has a code (R99). -/
def dataBits (s : State) : List Bool := codeBits s.tree (records s.entitySize.toNat s.inStream)

/-- PENC's loop over the records of IN (R99). -/
def pencLoop (P : Params) (s : State) : Feed Packer :=
  feedRecords (encodeEntity P (codeTable s.tree)) s.entitySize.toNat s.inStream.length s.inStream.length s.inStream 0
    (.start s.outStream)

theorem outTooLong_of_le {P : Params} {m n : Nat} (hm : P.maxOutLen = some m) (h : n ≤ m) : outTooLong P n = false := by
  simp only [outTooLong, hm, decide_eq_false (Nat.not_lt.mpr h)]

section Penc

variable {P : Params} {s : State} (herr : s.err = false) (hW : s.entitySize.toNat ∈ [1, 2, 4, 8])
include herr hW

/-- A raise in the loop ends the command. -/
theorem runCommand_penc_of_raised {cur : Nat} {p : Packer} {r : Reason} (hloop : pencLoop P s = .raised cur p r) :
    runCommand (pencBody P) s = faulted r.kind.code r.code
      { s with dataByteCount := 0#64, dataLastBits := 0#8, outStream := p.out, icur := BitVec.ofNat 64 cur } := by
  unfold pencLoop at hloop
  refine runCommand_of_raised herr ?_
  simp only [pencBody, entityWidth_eq_some s hW, hloop]
  rfl

/-- The entity after the entities `es` raises. -/
theorem runCommand_penc_raised {es es' : List Entity} {v : Entity} {p p' : Packer} {r : Reason}
    (hrec : records s.entitySize.toNat s.inStream = es ++ v :: es')
    (hfeed : feedList (encodeEntity P (codeTable s.tree)) es (.start s.outStream) = .ok p)
    (hv : encodeEntity P (codeTable s.tree) p v = .error (p', r)) :
    runCommand (pencBody P) s = faulted r.kind.code r.code { s with
      dataByteCount := 0#64, dataLastBits := 0#8, outStream := p'.out
      icur := BitVec.ofNat 64 ((es.length + 1) * s.entitySize.toNat) } := by
  have hloop := feedRecords_raised (len := s.inStream.length) (cur := 0)
    (one_le_of_entityWidth (entityWidth_eq_some s hW)) le_rfl hrec hfeed hv
  rw [Nat.zero_add] at hloop
  exact runCommand_penc_of_raised herr hW hloop

theorem runCommand_penc_codeMissing {es es' : List Entity} {v : Entity}
    (hrec : records s.entitySize.toNat s.inStream = es ++ v :: es')
    (hes : ∀ u ∈ es, codeOf (codeTable s.tree) u ≠ none) (hv : codeOf (codeTable s.tree) v = none)
    (hroom : outTooLong P (s.outStream.length + (codeBits s.tree es).length / 8) = false) :
    runCommand (pencBody P) s = faulted 2#2 0x14#8 { s with
      dataByteCount := 0#64, dataLastBits := 0#8
      outStream := s.outStream ++ (packed (codeBits s.tree es)).take ((codeBits s.tree es).length / 8)
      icur := BitVec.ofNat 64 ((es.length + 1) * s.entitySize.toNat) } := by
  obtain ⟨p, hfeed, hp⟩ := exists_packed_entities hes hroom
  rw [← hp.out_eq]
  exact runCommand_penc_raised (r := .codeMissing) herr hW hrec hfeed (encodeEntity_codeMissing hv)

theorem runCommand_penc_entityOverflow {m : Nat} {es es' : List Entity} {v : Entity} (hm : P.maxOutLen = some m)
    (hrec : records s.entitySize.toNat s.inStream = es ++ v :: es')
    (hcodes : ∀ u ∈ es ++ [v], codeOf (codeTable s.tree) u ≠ none)
    (hfit : s.outStream.length + (codeBits s.tree es).length / 8 ≤ m)
    (hover : m < s.outStream.length + (codeBits s.tree (es ++ [v])).length / 8) :
    runCommand (pencBody P) s = faulted 3#2 0x23#8 { s with
      dataByteCount := 0#64, dataLastBits := 0#8
      outStream := s.outStream ++ (packed (codeBits s.tree (es ++ [v]))).take (m - s.outStream.length)
      icur := BitVec.ofNat 64 ((es.length + 1) * s.entitySize.toNat) } := by
  obtain ⟨hes, hv⟩ := List.forall_mem_append.mp hcodes
  have hv := hv v (List.mem_singleton_self v)
  obtain ⟨p, hfeed, hp⟩ := exists_packed_entities hes (outTooLong_of_le hm hfit)
  rw [codeBits_concat] at hover ⊢
  rcases putBits_cases hm ((codeOf (codeTable s.tree) v).getD []) hp (by omega) with ⟨-, -, -, hle⟩ | ⟨p', hput, hout⟩
  · omega
  · rw [← hout]
    exact runCommand_penc_raised (r := .outOverflow) herr hW hrec hfeed ((encodeEntity_eq_putBits hv).trans hput)

variable (hcodes : ∀ u ∈ records s.entitySize.toNat s.inStream, codeOf (codeTable s.tree) u ≠ none)
include hcodes

theorem runCommand_penc_exhausted (hmod : s.inStream.length % s.entitySize.toNat ≠ 0)
    (hroom : outTooLong P (s.outStream.length + (dataBits s).length / 8) = false) :
    runCommand (pencBody P) s = faulted 1#2 0x01#8 { s with
      dataByteCount := 0#64, dataLastBits := 0#8
      outStream := s.outStream ++ (packed (dataBits s)).take ((dataBits s).length / 8)
      icur := BitVec.ofNat 64 s.inStream.length } := by
  obtain ⟨p, hfeed, hp⟩ := exists_packed_entities hcodes hroom
  rw [dataBits, ← hp.out_eq]
  exact runCommand_penc_of_raised (r := .exhausted) herr hW
    (feedRecords_exhausted (one_le_of_entityWidth (entityWidth_eq_some s hW)) le_rfl hmod hfeed)

variable (hmod : s.inStream.length % s.entitySize.toNat = 0)
include hmod

omit herr in
/-- Where every entity is packed, the loop ends at the end of IN. -/
theorem exists_pencLoop_done (hroom : outTooLong P (s.outStream.length + (dataBits s).length / 8) = false) :
    ∃ p, pencLoop P s = .done s.inStream.length p ∧ PackerAfter s.outStream (dataBits s) p := by
  obtain ⟨p, hfeed, hp⟩ := exists_packed_entities hcodes hroom
  have hloop := feedRecords_ok _ _ s.inStream.length (one_le_of_entityWidth (entityWidth_eq_some s hW)) _ _ 0 _ _ le_rfl
    hmod hfeed
  rw [Nat.zero_add] at hloop
  exact ⟨p, hloop, hp⟩

theorem runCommand_penc_flushOverflow {m : Nat} (hm : P.maxOutLen = some m)
    (hfit : s.outStream.length + (dataBits s).length / 8 ≤ m)
    (hover : m < s.outStream.length + ((dataBits s).length + 7) / 8) :
    runCommand (pencBody P) s = faulted 3#2 0x23#8 { s with
      dataByteCount := 0#64, dataLastBits := 0#8
      outStream := s.outStream ++ (packed (dataBits s)).take (m - s.outStream.length)
      icur := BitVec.ofNat 64 s.inStream.length } := by
  obtain ⟨p, hloop, hp⟩ := exists_pencLoop_done hW hcodes hmod (outTooLong_of_le hm hfit)
  obtain ⟨hflush, hout⟩ := flush_outOverflow hm hp (by omega) (by omega)
  unfold pencLoop at hloop
  rw [← hout]
  refine runCommand_of_raised (r := .outOverflow) herr ?_
  simp only [pencBody, entityWidth_eq_some s hW, hloop, hflush]
  rfl

variable (hroom : outTooLong P (s.outStream.length + ((dataBits s).length + 7) / 8) = false)
include hroom

theorem runCommand_penc_done (hcount : ((dataBits s).length + 7) / 8 ≤ 2 ^ 64 - 1) :
    runCommand (pencBody P) s = { s with
      outStream := s.outStream ++ packed (dataBits s)
      dataByteCount := BitVec.ofNat 64 (((dataBits s).length + 7) / 8)
      dataLastBits := BitVec.ofNat 8 ((dataBits s).length % 8)
      icur := BitVec.ofNat 64 s.inStream.length } := by
  obtain ⟨p, hloop, hp⟩ := exists_pencLoop_done hW hcodes hmod (outTooLong_mono P (by omega) hroom)
  obtain ⟨p', hflush, hout, hbytes, hlast⟩ := flush_after P _ _ p hp hroom
  unfold pencLoop at hloop
  refine runCommand_of_done herr ?_
  simp only [pencBody, entityWidth_eq_some s hW, hloop, hflush, hout, hbytes, hlast, if_neg (Nat.not_lt.mpr hcount)]
  rfl

theorem runCommand_penc_countOverflow (hcount : 2 ^ 64 - 1 < ((dataBits s).length + 7) / 8) :
    runCommand (pencBody P) s = faulted 3#2 0x22#8 { s with
      dataByteCount := 0#64, dataLastBits := 0#8
      outStream := s.outStream ++ packed (dataBits s)
      icur := BitVec.ofNat 64 s.inStream.length } := by
  obtain ⟨p, hloop, hp⟩ := exists_pencLoop_done hW hcodes hmod (outTooLong_mono P (by omega) hroom)
  obtain ⟨p', hflush, hout, hbytes, -⟩ := flush_after P _ _ p hp hroom
  unfold pencLoop at hloop
  refine runCommand_of_raised (r := .countOverflow) herr ?_
  simp only [pencBody, entityWidth_eq_some s hW, hloop, hflush, hout, hbytes, if_pos hcount]
  rfl

end Penc

/-- Settles O40: the loop packs the codes of every record, and the flush completes the section. -/
theorem pencWritesTheCodes : Obligations.PencWritesTheCodes := by
  unfold Obligations.PencWritesTheCodes
  intro s herr hW hmod hcodes hlen
  have hcount := (Nat.le_add_left _ s.outStream.length).trans hlen
  exact congrArg _ (runCommand_penc_done herr hW hcodes hmod (outTooLong_params _ hlen) hcount)

/-- Settles O41: the width is checked first; then the loop stops at an entity or at an incomplete record, or the flush does, or
the byte count does not fit. -/
theorem pencFaults : Obligations.PencFaults := by
  unfold Obligations.PencFaults
  refine fun s herr => ⟨fun hW => ?_, fun hW es v es' hrec hes hv hlen => ?_, fun hW hmod hcodes hlen => ?_,
    fun hW P m es v es' hm hrec hcodes hfit hover => ?_, fun hW hmod hcodes P m hm hfit hover => ?_,
    fun hW hmod hcodes P hroom hcount => ?_⟩
  · exact congrArg _ (runCommand_penc_badWidth _ herr hW)
  · exact congrArg _ (runCommand_penc_codeMissing herr hW hrec hes hv (outTooLong_params _ hlen))
  · exact congrArg _ (runCommand_penc_exhausted herr hW hcodes hmod (outTooLong_params _ hlen))
  · exact runCommand_penc_entityOverflow herr hW hm hrec hcodes hfit hover
  · exact runCommand_penc_flushOverflow herr hW hcodes hmod hm hfit hover
  · exact runCommand_penc_countOverflow herr hW hcodes hmod hroom hcount

end Sys2Proof.Machine

/-! PDEC (44_payload_codec.md R100, R101): its walk over the codes of a tree, and what the command leaves. -/

namespace Sys2Proof.Machine

/-! A section's loop at the bit that raises, with the state the raise keeps (20_memory.md R47, 60_exceptions.md R111). -/

section SectionRaise

variable {σ : Type} {f : σ → Bool → Attempt σ} {lb : BitVec 8} {len cur : Nat} {bs tail : List Byte} {a a' e : σ}
  {r : Reason}

/-- A section whose bits raise ends its loop in the state of that raise. -/
theorem feedSection_of_error (h : feedList f (sectionBits lb bs) a = .error (e, r)) :
    ∃ c, feedSection f lb len (bs ++ tail) bs.length cur a = .raised c e r := by
  induction bs generalizing cur a with
  | nil => cases h
  | cons b bs ih =>
    have hn : (b :: bs).length ≠ 0 := Nat.succ_ne_zero _
    rw [sectionBits_cons, feedList_append] at h
    split at h
    · next hb =>
      cases h
      exact ⟨_, feedSection_cons_of_error hn hb⟩
    · next hb =>
      obtain ⟨c, hc⟩ := ih (cur := cur + 1) h
      exact ⟨c, by rw [List.cons_append, feedSection_cons_of_ok hn hb]; exact hc⟩

/-- A raise at a bit of the section ends the loop just past the byte of that bit, in the state of the raise. -/
theorem feedSection_raised_at {pre more : List Bool} {b : Bool} (hbits : sectionBits lb bs = pre ++ [b] ++ more)
    (hpre : feedList f pre a = .ok a') (hb : f a' b = .error (e, r)) :
    feedSection f lb len (bs ++ tail) bs.length cur a = .raised (cur + ((pre ++ [b]).length + 7) / 8) e r := by
  have herror : feedList f (sectionBits lb bs) a = .error (e, r) := by
    rw [hbits, List.append_assoc, feedList_append_of_ok hpre, List.singleton_append, feedList, hb]
  obtain ⟨e', hend⟩ := feedSection_raised (len := len) (tail := tail) (cur := cur) hbits
    ((raisesAtLast_singleton hb).prepend hpre)
  obtain ⟨c, hstate⟩ := feedSection_of_error (len := len) (tail := tail) (cur := cur) herror
  cases hend.symm.trans hstate
  exact hend

end SectionRaise

/-! One bit (R100). -/

section PdecBit

variable {P : Params} {root l r : DTree} {out : List Byte} {b : Bool} {v : Entity}

/-- A move to a node that is no leaf emits nothing. -/
theorem pdecBit_move (h : ∀ v, (if b then r else l) ≠ .leaf v) :
    pdecBit P root { pos := .branch l r, out := out } b = .ok { pos := if b then r else l, out := out } := by
  simp only [pdecBit]

theorem pdecBit_emit (h : (if b then r else l) = .leaf v) (hroom : outTooLong P (out.length + v.length) = false) :
    pdecBit P root { pos := .branch l r, out := out } b = .ok { pos := root, out := out ++ v } := by
  simp only [pdecBit, h, appendOut_eq_some P out v hroom]

theorem pdecBit_outOverflow (h : (if b then r else l) = .leaf v) (hover : outTooLong P (out.length + v.length) = true) :
    pdecBit P root { pos := .branch l r, out := out } b =
      .error ({ pos := .branch l r, out := out }, .outOverflow) := by
  simp only [pdecBit, h, appendOut, if_pos hover]

theorem pdecBit_walkNotBranch :
    pdecBit P root { pos := .absent, out := out } b = .error ({ pos := .absent, out := out }, .walkNotBranch) := rfl

end PdecBit

/-! The walk along a path of the tree (R84, R100). -/

theorem strip_eq_leaf {t : ETree} {v : Entity} (h : strip t = .leaf v) : ∃ f, t = .leaf v f := by
  cases t with
  | absent | branch => cases h
  | leaf u f =>
    cases h
    exact ⟨f, rfl⟩

/-- The node before a leaf on its path is the Branch the leaf hangs from. -/
theorem exists_branch_of_descend_concat {t : ETree} {path : List Bool} {b : Bool} {v : Entity} {f : Word64}
    (h : descend t (path ++ [b]) = .leaf v f) :
    ∃ g l r, descend t path = .branch g l r ∧ (if b then r else l) = .leaf v f := by
  rw [descend_append] at h
  cases ht : descend t path with
  | absent | leaf => simp [ht] at h
  | branch g l r =>
    rw [ht, descend_branch_cons, descend_nil] at h
    exact ⟨g, l, r, rfl, h⟩

section Walk

variable {P : Params} {root : DTree} {out : List Byte} {v : Entity}

/-- Short of its leaf, a path is walked without anything emitted. -/
theorem feedList_pdecBit_path {t : ETree} {path rest : List Bool} {f : Word64} (h : descend t (path ++ rest) = .leaf v f)
    (hrest : rest ≠ []) :
    feedList (pdecBit P root) path { pos := strip t, out := out } = .ok { pos := strip (descend t path), out := out } := by
  induction path generalizing t with
  | nil => rw [descend_nil, feedList]
  | cons b path ih =>
    cases t with
    | absent | leaf => simp at h
    | branch g l r =>
      rw [List.cons_append, descend_branch_cons] at h
      have hmove : ∀ u, (if b then strip r else strip l) ≠ .leaf u := by
        intro u hu
        rw [← apply_ite strip] at hu
        obtain ⟨w, hw⟩ := strip_eq_leaf hu
        rw [hw] at h
        exact hrest (List.append_eq_nil_iff.mp (eq_nil_of_descend_leaf h)).2
      rw [feedList, strip, pdecBit_move hmove, ← apply_ite strip, descend_branch_cons]
      exact ih h

variable {T : ETree} (hT : BuiltTree T) {c : List Bool} (hc : codeOf (codeTable T) v = some c)
include hT hc

/-- A code ends with the move from a Branch to the leaf. -/
theorem exists_lastMove : ∃ path b l r, c = path ++ [b] ∧ (if b then r else l) = .leaf v ∧
    feedList (pdecBit P root) path { pos := strip T, out := out } = .ok { pos := .branch l r, out := out } := by
  obtain ⟨f, hpath⟩ := (codeOf_codeTable_eq_some_iff hT.nodup_leaves).mp hc
  rcases List.eq_nil_or_concat' c with rfl | ⟨path, b, rfl⟩
  · exact absurd ((descend_nil T).symm.trans hpath) (hT.ne_leaf v f)
  · obtain ⟨g, l, r, hbranch, hleaf⟩ := exists_branch_of_descend_concat hpath
    refine ⟨path, b, strip l, strip r, rfl, ?_, ?_⟩
    · rw [← apply_ite strip, hleaf, strip]
    · rw [feedList_pdecBit_path hpath (List.cons_ne_nil _ _), hbranch, strip]

theorem feedList_code (hroom : outTooLong P (out.length + v.length) = false) :
    feedList (pdecBit P root) c { pos := strip T, out := out } = .ok { pos := root, out := out ++ v } := by
  obtain ⟨path, b, l, r, rfl, hleaf, hwalk⟩ := exists_lastMove (P := P) (root := root) (out := out) hT hc
  rw [feedList_append_of_ok hwalk, feedList_singleton, pdecBit_emit hleaf hroom]

/-- A proper beginning of a code is walked without anything emitted. -/
theorem exists_feedList_part {part : List Bool} (hpart : part <+: c) (hne : part ≠ c) :
    ∃ pos, feedList (pdecBit P root) part { pos := strip T, out := out } = .ok { pos := pos, out := out } := by
  obtain ⟨f, hpath⟩ := (codeOf_codeTable_eq_some_iff hT.nodup_leaves).mp hc
  obtain ⟨rest, rfl⟩ := hpart
  exact ⟨_, feedList_pdecBit_path hpath fun hnil => hne (by rw [hnil, List.append_nil])⟩

end Walk

section Codes

variable {P : Params} {T : ETree} {out : List Byte} {es : List Entity}

/-- In the one-entity tree a 1 bit moves to the absent child (R101). -/
theorem SingleTree.feedList_true (hT : SingleTree T) (root : DTree) :
    feedList (pdecBit P root) [true] { pos := strip T, out := out } = .ok { pos := .absent, out := out } := by
  obtain ⟨v, f, rfl⟩ := hT
  rfl

/-- What may be left of a section after whole codes, without a raise: a proper beginning of a code, or the move into the
absent child of the one-entity tree (R101). -/
def UnfinishedTail (T : ETree) (part : List Bool) : Prop :=
  (∃ v c, codeOf (codeTable T) v = some c ∧ part <+: c ∧ part ≠ c) ∨ (SingleTree T ∧ part = [true])

variable (hT : BuiltTree T)
include hT

theorem UnfinishedTail.exists_feedList {part : List Bool} (h : UnfinishedTail T part) (root : DTree) :
    ∃ pos, feedList (pdecBit P root) part { pos := strip T, out := out } = .ok { pos := pos, out := out } := by
  rcases h with ⟨v, c, hc, hpart, hne⟩ | ⟨hsingle, rfl⟩
  · exact exists_feedList_part hT hc hpart hne
  · exact ⟨_, hsingle.feedList_true root⟩

variable (hes : ∀ v ∈ es, codeOf (codeTable T) v ≠ none)
  (hroom : outTooLong P (out.length + es.flatten.length) = false)
include hes hroom

/-- Over the codes of a list of entities the walk emits exactly those, and ends at the root (R100). -/
theorem feedList_codeBits :
    feedList (pdecBit P (strip T)) (codeBits T es) { pos := strip T, out := out } =
      .ok { pos := strip T, out := out ++ es.flatten } := by
  induction es generalizing out with
  | nil => rw [codeBits_nil, feedList, List.flatten_nil, List.append_nil]
  | cons v es ih =>
    obtain ⟨hv, hes⟩ := List.forall_mem_cons.mp hes
    obtain ⟨c, hc⟩ := Option.ne_none_iff_exists'.mp hv
    rw [List.flatten_cons, List.length_append, ← Nat.add_assoc] at hroom
    have hcode := feedList_code (P := P) (root := strip T) (out := out) hT hc
      (outTooLong_mono P (Nat.le_add_right _ _) hroom)
    rw [codeBits_cons, hc, Option.getD_some, feedList_append_of_ok hcode, ih hes (by rwa [List.length_append]),
      List.flatten_cons, List.append_assoc]

theorem exists_feedList_unfinished {part : List Bool} (hpart : UnfinishedTail T part) :
    ∃ pos, feedList (pdecBit P (strip T)) (codeBits T es ++ part) { pos := strip T, out := out } =
      .ok { pos := pos, out := out ++ es.flatten } := by
  rw [feedList_append_of_ok (feedList_codeBits hT hes hroom)]
  exact hpart.exists_feedList hT _

end Codes

/-! The command, by how its loop over the section ends (R100). -/

/-- PDEC's loop over the data section (R100). -/
def pdecLoop (P : Params) (s : State) : Feed PdecWork :=
  feedSection (pdecBit P s.dtree) s.dataLastBits s.inStream.length (inRest s) s.dataByteCount.toNat (cursor s)
    { pos := s.dtree, out := s.outStream }

/-- IN holds, from the cursor on, the packed bits that DATA_BYTE_COUNT and DATA_LAST_BITS announce (R46, R47). -/
structure HoldsData (s : State) (bits : List Bool) : Prop where
  bytes : ∃ tail, s.inStream.drop s.icur.toNat = packed bits ++ tail
  count : s.dataByteCount.toNat = (bits.length + 7) / 8
  last : s.dataLastBits = BitVec.ofNat 8 (bits.length % 8)

theorem HoldsData.sectionBits_eq {s : State} {bits : List Bool} (h : HoldsData s bits) :
    sectionBits s.dataLastBits (packed bits) = bits := by
  rw [h.last, sectionBits_packed]

section Pdec

variable {P : Params} {s : State} (herr : s.err = false)
include herr

theorem runCommand_pdec_of_done {cur : Nat} {a : PdecWork} (hloop : pdecLoop P s = .done cur a) :
    runCommand (pdecBody P) s = { s with outStream := a.out, icur := BitVec.ofNat 64 cur } := by
  unfold pdecLoop at hloop
  exact runCommand_of_done herr (by simp only [pdecBody, hloop]; rfl)

theorem runCommand_pdec_of_raised {cur : Nat} {a : PdecWork} {r : Reason} (hloop : pdecLoop P s = .raised cur a r) :
    runCommand (pdecBody P) s =
      faulted r.kind.code r.code { s with outStream := a.out, icur := BitVec.ofNat 64 cur } := by
  unfold pdecLoop at hloop
  exact runCommand_of_raised herr (by simp only [pdecBody, hloop]; rfl)

theorem runCommand_pdec_done {bits : List Bool} (hs : HoldsData s bits) {a : PdecWork}
    (h : feedList (pdecBit P s.dtree) bits { pos := s.dtree, out := s.outStream } = .ok a) :
    runCommand (pdecBody P) s =
      { s with outStream := a.out, icur := BitVec.ofNat 64 (s.icur.toNat + (bits.length + 7) / 8) } := by
  obtain ⟨tail, hbytes⟩ := hs.bytes
  have hloop := feedSection_ok (pdecBit P s.dtree) s.dataLastBits s.inStream.length (packed bits) tail (cursor s) _ a
    (hs.sectionBits_eq.symm ▸ h)
  rw [packed_length, ← hs.count, ← hbytes, hs.count] at hloop
  exact runCommand_pdec_of_done herr (hs.count ▸ hloop)

/-- Over a section whose bits raise, PDEC stops just past the byte of the bit that does. -/
theorem runCommand_pdec_raisedAt {pre more : List Bool} {b : Bool} (hs : HoldsData s (pre ++ [b] ++ more))
    {a e : PdecWork} {r : Reason} (hpre : feedList (pdecBit P s.dtree) pre { pos := s.dtree, out := s.outStream } = .ok a)
    (hb : pdecBit P s.dtree a b = .error (e, r)) :
    runCommand (pdecBody P) s = faulted r.kind.code r.code { s with
      outStream := e.out, icur := BitVec.ofNat 64 (s.icur.toNat + ((pre ++ [b]).length + 7) / 8) } := by
  obtain ⟨tail, hbytes⟩ := hs.bytes
  have hloop := feedSection_raised_at (len := s.inStream.length) (tail := tail) (cur := cursor s) hs.sectionBits_eq hpre hb
  rw [packed_length, ← hs.count, ← hbytes] at hloop
  exact runCommand_pdec_of_raised herr hloop

/-- Where IN ends inside the section and the bits that are left raise nothing, PDEC is exhausted (R42). -/
theorem runCommand_pdec_exhausted (hlt : (s.inStream.drop s.icur.toNat).length < s.dataByteCount.toNat) {a : PdecWork}
    (h : feedList (pdecBit P s.dtree) (sectionBits 0#8 (s.inStream.drop s.icur.toNat))
      { pos := s.dtree, out := s.outStream } = .ok a) :
    runCommand (pdecBody P) s =
      faulted 1#2 0x01#8 { s with outStream := a.out, icur := BitVec.ofNat 64 s.inStream.length } :=
  runCommand_pdec_of_raised (r := .exhausted) herr (feedSection_exhausted hlt h)

theorem runCommand_pdec_emptySection (hn : s.dataByteCount.toNat = 0) : runCommand (pdecBody P) s = s := by
  have hloop : pdecLoop P s = .done (cursor s) { pos := s.dtree, out := s.outStream } := by
    rw [pdecLoop, hn, feedSection_zero]
  rw [runCommand_pdec_of_done herr hloop, cursor, BitVec.ofNat_toNat, BitVec.setWidth_eq]

/-- Without a tree the first bit is no move (R100). -/
theorem runCommand_pdec_noTree (hn : s.dataByteCount.toNat ≠ 0) (htree : s.dtree = .absent)
    (hlt : s.icur.toNat < s.inStream.length) :
    runCommand (pdecBody P) s = faulted 1#2 0x05#8 { s with icur := BitVec.ofNat 64 (s.icur.toNat + 1) } := by
  obtain ⟨more, hbyte⟩ := byteBits_eq_cons s.inStream[s.icur.toNat]
    (show 1 ≤ if s.dataByteCount.toNat = 1 then effBits s.dataLastBits else 8 by
      split
      · exact (effBits_range _).1
      · decide)
  have hloop : pdecLoop P s =
      .raised (cursor s + 1) { pos := .absent, out := s.outStream } .walkNotBranch := by
    rw [pdecLoop, inRest, cursor, List.drop_eq_getElem_cons hlt, htree]
    exact feedSection_cons_of_error hn (by rw [hbyte, feedList, pdecBit_walkNotBranch])
  exact runCommand_pdec_of_raised herr hloop

section Codes

variable {T : ETree} (hT : BuiltTree T) (htree : s.dtree = strip T) {es : List Entity}
  (hes : ∀ v ∈ es, codeOf (codeTable T) v ≠ none)
include hT htree hes

/-- Over whole codes, and then part of one or nothing, PDEC appends the entities of the whole codes (R101). -/
theorem runCommand_pdec_unfinished (hroom : outTooLong P (s.outStream.length + es.flatten.length) = false)
    {part : List Bool} (hpart : UnfinishedTail T part) (hs : HoldsData s (codeBits T es ++ part)) :
    runCommand (pdecBody P) s = { s with
      outStream := s.outStream ++ es.flatten
      icur := BitVec.ofNat 64 (s.icur.toNat + ((codeBits T es ++ part).length + 7) / 8) } := by
  obtain ⟨pos, hfeed⟩ := exists_feedList_unfinished hT hes hroom hpart
  exact runCommand_pdec_done herr hs (htree ▸ hfeed)

theorem runCommand_pdec_decodes (hroom : outTooLong P (s.outStream.length + es.flatten.length) = false)
    (hs : HoldsData s (codeBits T es)) :
    runCommand (pdecBody P) s = { s with
      outStream := s.outStream ++ es.flatten
      icur := BitVec.ofNat 64 (s.icur.toNat + ((codeBits T es).length + 7) / 8) } :=
  runCommand_pdec_done herr hs (htree ▸ feedList_codeBits hT hes hroom)

/-- Where IN ends after whole codes and then part of one, PDEC is exhausted with the entities of the whole codes appended. -/
theorem runCommand_pdec_endsInside (hroom : outTooLong P (s.outStream.length + es.flatten.length) = false)
    {part : List Bool} (hpart : UnfinishedTail T part)
    (hbytes : s.inStream.drop s.icur.toNat = packed (codeBits T es ++ part))
    (hmod : (codeBits T es ++ part).length % 8 = 0)
    (hlt : (codeBits T es ++ part).length / 8 < s.dataByteCount.toNat) :
    runCommand (pdecBody P) s = faulted 1#2 0x01#8 { s with
      outStream := s.outStream ++ es.flatten, icur := BitVec.ofNat 64 s.inStream.length } := by
  obtain ⟨pos, hfeed⟩ := exists_feedList_unfinished hT hes hroom hpart
  have hread := sectionBits_packed (codeBits T es ++ part)
  rw [hmod, ← hbytes] at hread
  exact runCommand_pdec_exhausted herr (by rw [hbytes, packed_length]; omega) (by rw [hread, htree]; exact hfeed)

/-- The first entity OUT has no room for raises OUT_OVERFLOW at the last bit of its code (R43). -/
theorem runCommand_pdec_outOverflow {v : Entity} (hv : codeOf (codeTable T) v ≠ none)
    (hroom : outTooLong P (s.outStream.length + es.flatten.length) = false)
    (hover : outTooLong P (s.outStream.length + es.flatten.length + v.length) = true) {more : List Bool}
    (hs : HoldsData s (codeBits T (es ++ [v]) ++ more)) :
    runCommand (pdecBody P) s = faulted 3#2 0x23#8 { s with
      outStream := s.outStream ++ es.flatten
      icur := BitVec.ofNat 64 (s.icur.toNat + ((codeBits T (es ++ [v])).length + 7) / 8) } := by
  obtain ⟨c, hc⟩ := Option.ne_none_iff_exists'.mp hv
  obtain ⟨path, b, l, r, rfl, hleaf, hwalk⟩ := exists_lastMove (P := P) (root := strip T)
    (out := s.outStream ++ es.flatten) hT hc
  rw [codeBits_concat, hc, Option.getD_some, ← List.append_assoc] at hs ⊢
  have hpre := (feedList_append_of_ok (feedList_codeBits hT hes hroom)).trans hwalk
  exact runCommand_pdec_raisedAt (r := .outOverflow) herr hs (htree ▸ hpre)
    (pdecBit_outOverflow hleaf (by rwa [List.length_append]))

omit hT in
/-- After the move into the absent child of the one-entity tree no further bit is a move (R101). -/
theorem runCommand_pdec_walkNotBranch (hsingle : SingleTree T)
    (hroom : outTooLong P (s.outStream.length + es.flatten.length) = false) {b : Bool} {more : List Bool}
    (hs : HoldsData s (codeBits T es ++ [true, b] ++ more)) :
    runCommand (pdecBody P) s = faulted 1#2 0x05#8 { s with
      outStream := s.outStream ++ es.flatten
      icur := BitVec.ofNat 64 (s.icur.toNat + ((codeBits T es ++ [true, b]).length + 7) / 8) } := by
  rw [show codeBits T es ++ [true, b] = codeBits T es ++ [true] ++ [b] by simp] at hs ⊢
  have hpre := (feedList_append_of_ok (feedList_codeBits (.inr (.inl hsingle)) hes hroom)).trans
    (hsingle.feedList_true (strip T))
  exact runCommand_pdec_raisedAt (r := .walkNotBranch) herr hs (htree ▸ hpre) pdecBit_walkNotBranch

end Codes

end Pdec

/-- Settles O42: a zero-byte section has no bit, no tree has no move, and an IN that ends inside the section leaves the codes
that are whole. -/
theorem pdecCornerCases : Obligations.PdecCornerCases := by
  unfold Obligations.PdecCornerCases
  intro s herr
  have hcount : s.dataByteCount ≠ 0#64 → s.dataByteCount.toNat ≠ 0 := mt fun h => BitVec.eq_of_toNat_eq h
  refine ⟨fun hn => ?_, fun hn htree hlt => ?_, fun hn hend => ?_,
    fun T es part hT htree hes hpart hbytes hmod hlt hlen => ?_⟩
  · rw [exec_pdec, runCommand_pdec_emptySection herr (by rw [hn]; rfl)]
  · rw [exec_pdec, runCommand_pdec_noTree herr (hcount hn) htree hlt]
  · have hnil : s.inStream.drop s.icur.toNat = [] := List.drop_eq_nil_of_le hend
    exact congrArg _ (runCommand_pdec_exhausted herr (by rw [hnil]; exact Nat.pos_of_ne_zero (hcount hn))
      (by rw [hnil]; rfl))
  · exact congrArg _ (runCommand_pdec_endsInside herr hT htree hes (outTooLong_params _ hlen) hpart hbytes hmod hlt)

/-- Settles O43: the walk over the codes emits exactly the entities, and stops at the first one OUT has no room for. -/
theorem pdecDecodesTheCodes : Obligations.PdecDecodesTheCodes := by
  unfold Obligations.PdecDecodesTheCodes
  intro s T es tail herr hT htree hes hbytes hcount hlast
  have hs : HoldsData s (codeBits T es) := ⟨⟨tail, hbytes⟩, hcount, hlast⟩
  refine ⟨fun hlen => ?_, fun P es₁ v es₂ hsplit hroom hover => ?_⟩
  · rw [exec_pdec, runCommand_pdec_decodes herr hT htree hes (outTooLong_params _ hlen) hs]
  · rw [hsplit, List.append_cons] at hes
    rw [hsplit, List.append_cons, codeBits_append] at hs
    obtain ⟨hes₁, -⟩ := List.forall_mem_append.mp hes
    obtain ⟨hes₁, hv⟩ := List.forall_mem_append.mp hes₁
    exact runCommand_pdec_outOverflow herr hT htree hes₁ (hv v (List.mem_singleton_self v)) hroom hover hs

/-- Settles O44: part of a code emits nothing, and no bit is a move from the absent child. -/
theorem pdecDropsAnUnfinishedTail : Obligations.PdecDropsAnUnfinishedTail := by
  unfold Obligations.PdecDropsAnUnfinishedTail
  refine ⟨fun s T es part herr hT htree hes hpart hbytes hcount hlast hlen => ?_,
    fun s T es b more tail herr hT htree hes hbytes hcount hlast hlen => ?_⟩
  · rw [exec_pdec, runCommand_pdec_unfinished herr hT htree hes (outTooLong_params _ hlen) hpart
      ⟨⟨[], by rw [hbytes, List.append_nil]⟩, hcount, hlast⟩]
  · rw [exec_pdec, runCommand_pdec_walkNotBranch herr htree hes hT (outTooLong_params _ hlen)
      ⟨⟨tail, hbytes⟩, hcount, hlast⟩]

end Sys2Proof.Machine

/-! DECODE over too few bytes (44_payload_codec.md R104): each of its commands takes the bytes its counts call for, or
records a MALFORMED fault. -/

namespace Sys2Proof.Machine

/-- A fault of kind MALFORMED is recorded (R106). -/
def Malformed (s : State) : Prop := s.err = true ∧ s.kind = 1#2

theorem malformed_faulted (r : BitVec 8) (s : State) : Malformed (faulted 1#2 r s) := ⟨rfl, rfl⟩

theorem malformed_of_kind {r : Reason} (h : r.kind = .malformed) (s : State) :
    Malformed (faulted r.kind.code r.code s) := by
  rw [h]
  exact malformed_faulted r.code s

/-- A recorded fault stays through every later command (R26). -/
theorem Malformed.runCommand {s : State} (h : Malformed s) (body : State → CmdResult) :
    Malformed (runCommand body s) := by
  rw [runCommand_rejected body s h.1]
  exact h

/-- Without a node limit each branch of TDEC's bit goes on or raises a MALFORMED reason (R89, R107). -/
theorem tdecBit_malformed {P : Params} (hP : P.maxDnodes = none) (elist : List Entity) (a : TdecWork) (b : Bool) :
    AttemptHolds (fun _ => True) (fun _ r => r.kind = .malformed) (tdecBit P elist a b) := by
  have hnodes (k : Nat) : nodesOver P k = false := by simp only [nodesOver, hP]
  simp only [tdecBit, hnodes, Bool.false_eq_true, if_false]
  repeat' split
  all_goals trivial

/-- Without a limit of OUT PDEC's bits raise MALFORMED reasons only (R107). -/
theorem pdecBit_malformed {P : Params} (hP : P.maxOutLen = none) (root : DTree) (a : PdecWork) (b : Bool) :
    AttemptHolds (fun _ => True) (fun _ r => r.kind = .malformed) (pdecBit P root a b) := by
  have happend (out bs : List Byte) : appendOut P out bs = some (out ++ bs) :=
    appendOut_eq_some P out bs (by simp only [outTooLong, hP])
  simp only [pdecBit, happend]
  split
  · split <;> trivial
  · rfl

/-- A section whose bits raise MALFORMED reasons only is taken whole, or ends in a MALFORMED reason. -/
theorem feedSection_malformed {σ : Type} {f : σ → Bool → Attempt σ} (lb : BitVec 8)
    (hf : ∀ a b, AttemptHolds (fun _ => True) (fun _ r => r.kind = .malformed) (f a b)) (len : Nat) (rest : List Byte)
    (n cur : Nat) (a : σ) :
    FeedHolds (fun c _ => c = cur + n ∧ n ≤ rest.length) (fun _ _ r => r.kind = .malformed)
      (feedSection f lb len rest n cur a) := by
  have hloop := feedSection_holds lb len (fun a b _ => hf a b) rest n cur a trivial
  cases hfeed : feedSection f lb len rest n cur a <;> rw [hfeed] at hloop
  case done =>
    obtain ⟨hcur, hn, -⟩ := hloop
    exact ⟨hcur, hn⟩
  case raised =>
    rcases hloop with ⟨hkind, -⟩ | ⟨-, rfl, -⟩
    · exact hkind
    · rfl

/-! The three commands of DECODE. -/

section Reads

variable {P : Params} {s : State} (herr : s.err = false) (hcur : s.icur.toNat ≤ s.inStream.length)
include herr hcur

theorem runCommand_edec_reads :
    Malformed (runCommand edecBody s) ∨
      s.icur.toNat + s.entityCount.toNat * s.entitySize.toNat ≤ s.inStream.length ∧
        ∃ es, runCommand edecBody s = { s with
          elist := es, icur := BitVec.ofNat 64 (s.icur.toNat + s.entityCount.toNat * s.entitySize.toNat) } := by
  by_cases hW : s.entitySize.toNat ∈ [1, 2, 4, 8]
  · rcases Nat.lt_or_ge (s.inStream.drop s.icur.toNat).length (s.entityCount.toNat * s.entitySize.toNat) with hlt | hge
    · exact .inl (runCommand_edec_exhausted herr hW hlt ▸ malformed_faulted _ _)
    · refine .inr ⟨?_, _, runCommand_edec_done herr hW hge⟩
      rw [List.length_drop] at hge
      omega
  · exact .inl (runCommand_edec_badEntitySize herr hW ▸ malformed_faulted _ _)

theorem runCommand_tdec_reads (hP : P.maxDnodes = none) :
    Malformed (runCommand (tdecBody P) s) ∨
      s.icur.toNat + s.treeByteCount.toNat ≤ s.inStream.length ∧
        ∃ root, runCommand (tdecBody P) s =
          { s with dtree := root, icur := BitVec.ofNat 64 (s.icur.toNat + s.treeByteCount.toNat) } := by
  by_cases hn : s.treeByteCount.toNat = 0
  · by_cases hcounts : s.entityCount.toNat = 0 ∧ s.elist = []
    · refine .inr ⟨by rwa [hn], .absent, ?_⟩
      rw [runCommand_tdec_emptySection herr hn hcounts, hn, Nat.add_zero, BitVec.ofNat_toNat, BitVec.setWidth_eq]
    · exact .inl (runCommand_tdec_emptySectionMismatch herr hn hcounts ▸ malformed_faulted _ _)
  · have hends : FeedHolds (fun c _ => c = cursor s + s.treeByteCount.toNat ∧ s.treeByteCount.toNat ≤ (inRest s).length)
        (fun _ _ r => r.kind = .malformed) (tdecLoop P s) :=
      feedSection_malformed _ (tdecBit_malformed hP s.elist) _ _ _ _ _
    cases hloop : tdecLoop P s <;> rw [hloop] at hends
    case raised => exact .inl (runCommand_tdec_raised herr hn hloop ▸ malformed_of_kind hends _)
    case done cur a =>
      obtain ⟨rfl, hle⟩ := hends
      rw [inRest, List.length_drop] at hle
      unfold tdecLoop TdecWork.start at hloop
      cases hroot : tdecRoot s.elist s.entityCount.toNat a with
      | none =>
        left
        rw [runCommand_of_raised herr (r := .endMismatch) (by simp only [tdecBody, if_neg hn, hloop, hroot]; rfl)]
        exact malformed_faulted _ _
      | some root =>
        refine .inr ⟨?_, root, runCommand_of_done herr (by simp only [tdecBody, if_neg hn, hloop, hroot]; rfl)⟩
        rw [cursor] at hle
        omega

theorem runCommand_pdec_reads (hP : P.maxOutLen = none) :
    Malformed (runCommand (pdecBody P) s) ∨ s.icur.toNat + s.dataByteCount.toNat ≤ s.inStream.length := by
  have hends : FeedHolds (fun c _ => c = cursor s + s.dataByteCount.toNat ∧ s.dataByteCount.toNat ≤ (inRest s).length)
      (fun _ _ r => r.kind = .malformed) (pdecLoop P s) :=
    feedSection_malformed _ (pdecBit_malformed hP s.dtree) _ _ _ _ _
  cases hloop : pdecLoop P s <;> rw [hloop] at hends
  case raised => exact .inl (runCommand_pdec_of_raised herr hloop ▸ malformed_of_kind hends _)
  case done =>
    obtain ⟨-, hle⟩ := hends
    rw [inRest, List.length_drop, cursor] at hle
    omega

end Reads

/-- Settles O49: where no command records a MALFORMED fault, the three have taken the bytes all counts call for. -/
theorem decodeNeedsEveryByte : Obligations.DecodeNeedsEveryByte := by
  unfold Obligations.DecodeNeedsEveryByte
  intro P s hnodes hout herr hcur hlen hshort
  show Malformed (decodeRun P s)
  unfold decodeRun
  rcases runCommand_edec_reads herr hcur with hbad | ⟨hedec, es, hs₁⟩
  · exact (hbad.runCommand _).runCommand _
  generalize hc₁ : s.icur.toNat + s.entityCount.toNat * s.entitySize.toNat = c₁ at hedec hs₁
  have htoNat {c : Nat} (hc : c ≤ s.inStream.length) : (BitVec.ofNat 64 c).toNat = c :=
    Nat.mod_eq_of_lt (hc.trans_lt hlen)
  have htdec := runCommand_tdec_reads (P := P) (s := { s with elist := es, icur := BitVec.ofNat 64 c₁ }) herr
    (by rwa [htoNat hedec]) hnodes
  rw [hs₁]
  rcases htdec with hbad | ⟨htdec, root, hs₂⟩
  · exact hbad.runCommand _
  rw [htoNat hedec] at htdec hs₂
  have hpdec := runCommand_pdec_reads (P := P)
    (s := { s with elist := es, dtree := root, icur := BitVec.ofNat 64 (c₁ + s.treeByteCount.toNat) }) herr
    (by rwa [htoNat htdec]) hout
  rw [hs₂]
  refine hpdec.resolve_right fun hpdec => ?_
  rw [htoNat htdec] at hpdec
  simp only at hpdec
  omega

end Sys2Proof.Machine

/-! ENCODE and then DECODE (44_payload_codec.md R102, R103): what the sections hold, and how the one reads what the other
wrote. -/

namespace Sys2Proof.Machine

/-! The records of IN (10_state.md R34). -/

theorem length_of_mem_records {W : Nat} {bs : List Byte} {v : Entity} (h : v ∈ records W bs) : v.length = W := by
  obtain ⟨k, hk, rfl⟩ := List.mem_map.mp h
  have hle := (Nat.mul_le_mul_right W (List.mem_range.mp hk)).trans (Nat.div_mul_le_self bs.length W)
  rw [Nat.succ_mul] at hle
  rw [List.length_take, List.length_drop]
  omega

/-- A sequence of whole records is its records, one after the other. -/
theorem flatten_records {W : Nat} (hW : 1 ≤ W) {bs : List Byte} (hmod : bs.length % W = 0) :
    (records W bs).flatten = bs := by
  obtain ⟨n, hn⟩ := Nat.dvd_of_mod_eq_zero hmod
  induction n generalizing bs with
  | zero => rw [List.length_eq_zero_iff.mp hn, records_nil, List.flatten_nil]
  | succ n ih =>
    rw [Nat.mul_succ] at hn
    have hdrop : (bs.drop W).length = W * n := by rw [List.length_drop, hn, Nat.add_sub_cancel]
    rw [records_cons W bs hW (by omega), List.flatten_cons, ih (by rw [hdrop, Nat.mul_mod_right]) hdrop,
      List.take_append_drop]

/-- The entities written one after the other are read back at the multiples of their width. -/
theorem map_take_drop_flatten {W : Nat} {es : List Entity} (hes : ∀ v ∈ es, v.length = W) (tail : List Byte) :
    (List.range es.length).map (fun i => ((es.flatten ++ tail).drop (i * W)).take W) = es := by
  induction es with
  | nil => rfl
  | cons v es ih =>
    obtain ⟨hv, hes⟩ := List.forall_mem_cons.mp hes
    rw [List.length_cons, List.range_succ_eq_map, List.map_cons, List.map_map, List.flatten_cons, List.append_assoc]
    congr 1
    · rw [Nat.zero_mul, List.drop_zero, List.take_left' hv]
    · refine (List.map_congr_left fun i _ => ?_).trans (ih hes)
      rw [Function.comp_apply, Nat.succ_mul, Nat.add_comm, ← List.drop_drop, List.drop_left' hv]

/-! The length of a code (R84). -/

theorem length_le_height {t : ETree} {path : List Bool} {v : Entity} {f : Word64} (h : descend t path = .leaf v f) :
    path.length ≤ height t := by
  induction path generalizing t with
  | nil => exact Nat.zero_le _
  | cons b path ih =>
    cases t with
    | absent | leaf => cases h
    | branch g l r =>
      have hle := ih h
      rw [List.length_cons, height]
      cases b <;> simp only [Bool.false_eq_true, if_true, if_false] at hle <;> omega

theorem BuiltTree.height_le {T : ETree} (hT : BuiltTree T) : height T ≤ (leaves T).length := by
  rcases hT with rfl | ⟨v, f, rfl⟩ | ⟨-, hfull, -⟩
  · exact le_rfl
  · exact le_rfl
  · rw [← length_leafCounts]
    exact hfull.height_lt.le

theorem BuiltTree.length_codeBits_le {T : ETree} (hT : BuiltTree T) (es : List Entity) :
    (codeBits T es).length ≤ es.length * (leaves T).length := by
  induction es with
  | nil => exact Nat.zero_le _
  | cons v es ih =>
    have hcode : ((codeOf (codeTable T) v).getD []).length ≤ (leaves T).length := by
      cases hc : codeOf (codeTable T) v with
      | none => exact Nat.zero_le _
      | some c =>
        obtain ⟨f, hpath⟩ := (codeOf_codeTable_eq_some_iff hT.nodup_leaves).mp hc
        exact (length_le_height hpath).trans hT.height_le
    rw [codeBits_cons, List.length_append, List.length_cons, Nat.succ_mul]
    omega

/-! The tree of an input. -/

/-- T is a tree of R35 whose leaves are the entities `es` of W bytes, each once. -/
structure TreeFor (W : Nat) (T : ETree) (es : List Entity) : Prop where
  built : BuiltTree T
  mem_leaves : ∀ v, v ∈ leaves T ↔ v ∈ es
  length_leaves : (leaves T).length ≤ es.length
  width : ∀ v ∈ es, v.length = W

theorem leaves_buildTree_perm (P : Params) (m : List (Entity × Word64)) (k : Nat) :
    (leaves (buildTree P m k).1).Perm (m.map Prod.fst) := by
  match m with
  | [] => exact .nil
  | [_] => exact .refl _
  | e :: e' :: m =>
    have hperm := (greedyMerge_buildTree P k (m := e :: e' :: m) (by simp)).leaves_perm
    rwa [flatMap_leaves_leafPool] at hperm

/-- BUILD's tree of the counts of the records is a tree for the records (R74, R75). -/
theorem treeFor_buildTree (P : Params) {W k : Nat} {bs : List Byte} {m : List (Entity × Word64)}
    (hm : Tally (records W bs) m) : TreeFor W (buildTree P m k).1 (records W bs) where
  built := (buildTree_greedy P m k hm.2.1).built
  mem_leaves v := (leaves_buildTree_perm P m k).mem_iff.trans hm.mem_keys_iff
  length_leaves := by
    rw [(leaves_buildTree_perm P m k).length_eq, List.length_map, hm.length_eq]
    exact (List.dedup_sublist _).length_le
  width _ := length_of_mem_records

/-- What ENCODE writes of a tree and a list of entities: the leaves, the shape, the codes (R67). -/
def encoding (T : ETree) (es : List Entity) : List Byte := (leaves T).flatten ++ packed (shape T) ++ packed (codeBits T es)

theorem length_encoding (T : ETree) (es : List Entity) :
    (encoding T es).length =
      (leaves T).flatten.length + ((shape T).length + 7) / 8 + ((codeBits T es).length + 7) / 8 := by
  rw [encoding, List.length_append, List.length_append, packed_length, packed_length]

section TreeFor

variable {W : Nat} {T : ETree} {es : List Entity} (h : TreeFor W T es)
include h

theorem TreeFor.width_leaves : ∀ v ∈ leaves T, v.length = W := fun v hv => h.width v ((h.mem_leaves v).mp hv)

theorem TreeFor.has_codes : ∀ v ∈ es, codeOf (codeTable T) v ≠ none := fun v hv hnone =>
  codeOf_codeTable_eq_none_iff.mp hnone ((h.mem_leaves v).mpr hv)

theorem TreeFor.length_shape_le : (shape T).length ≤ 2 * es.length := by
  rw [length_shape]
  exact h.built.nodeCount_le.trans (Nat.mul_le_mul_left 2 h.length_leaves)

variable (hlen : es.length < 2 ^ 32)
include hlen

theorem TreeFor.length_codeBits_le : (codeBits T es).length ≤ (2 ^ 32 - 1) * (2 ^ 32 - 1) :=
  (h.built.length_codeBits_le es).trans
    (Nat.mul_le_mul (Nat.le_sub_one_of_lt hlen) (h.length_leaves.trans (Nat.le_sub_one_of_lt hlen)))

theorem TreeFor.length_encoding_lt (hW : W ∈ [1, 2, 4, 8]) : (encoding T es).length < 2 ^ 64 := by
  have hW : W ≤ 8 := (by decide : ∀ w ∈ [1, 2, 4, 8], w ≤ 8) W hW
  have hleaves := Nat.mul_le_mul (h.length_leaves.trans (Nat.le_sub_one_of_lt hlen)) hW
  have hshape := h.length_shape_le
  have hcodes := h.length_codeBits_le hlen
  rw [length_encoding, length_flatten_of_width h.width_leaves]
  omega

end TreeFor

/-! ENCODE (R67). -/

/-- TENC, with or without a tree: no tree gives no bit (R87). -/
theorem runCommand_tenc_shape (P : Params) {s : State} (herr : s.err = false)
    (hroom : outTooLong P (s.outStream.length + ((shape s.tree).length + 7) / 8) = false)
    (hcount : ((shape s.tree).length + 7) / 8 ≤ 2 ^ 32 - 1) :
    runCommand (tencBody P) s = { s with
      outStream := s.outStream ++ packed (shape s.tree)
      treeByteCount := BitVec.ofNat 32 (((shape s.tree).length + 7) / 8)
      treeLastBits := BitVec.ofNat 8 ((shape s.tree).length % 8) } := by
  by_cases htree : s.tree = .absent
  · rw [runCommand_tenc_absent P herr htree, htree, shape, packed_nil, List.append_nil]
    rfl
  · exact runCommand_tenc_done P herr htree hroom hcount

/-- The registers and OUT as ENCODE leaves them for a tree and a list of entities of W bytes (R67, R102). -/
structure Encoded (W : Nat) (T : ETree) (es : List Entity) (e : State) : Prop where
  noFault : NoFault e
  size : e.entitySize.toNat = W
  entities : e.entityCount.toNat = (leaves T).length
  treeBytes : e.treeByteCount.toNat = ((shape T).length + 7) / 8
  treeLast : e.treeLastBits = BitVec.ofNat 8 ((shape T).length % 8)
  dataBytes : e.dataByteCount.toNat = ((codeBits T es).length + 7) / 8
  dataLast : e.dataLastBits = BitVec.ofNat 8 ((codeBits T es).length % 8)
  out : e.outStream = encoding T es

/-- EENC, TENC and PENC on an empty OUT, where the limits allow the three sections (R67). -/
theorem encoded_sections {P : Params} {s : State} {W : Nat} (hs : NoFault s) (hout : s.outStream = [])
    (hsize : s.entitySize.toNat = W) (hW : W ∈ [1, 2, 4, 8]) (hmod : s.inStream.length % W = 0)
    (hlen : (records W s.inStream).length < 2 ^ 32) (hT : TreeFor W s.tree (records W s.inStream))
    (hroom : outTooLong P (encoding s.tree (records W s.inStream)).length = false) :
    Encoded W s.tree (records W s.inStream)
      (runCommand (pencBody P) (runCommand (tencBody P) (runCommand (eencBody P) s))) := by
  obtain ⟨herr, hrej⟩ := hs
  subst hsize
  have hleaves := hT.length_leaves
  have hshape := hT.length_shape_le
  have hcodes : (dataBits s).length ≤ _ := hT.length_codeBits_le hlen
  rw [length_encoding, ← dataBits] at hroom
  have heenc := runCommand_eenc_done P herr (by omega) (outTooLong_mono P (by rw [hout, List.length_nil]; omega) hroom)
  have htenc := runCommand_tenc_shape P (s := { s with
    outStream := s.outStream ++ (leaves s.tree).flatten, entityCount := BitVec.ofNat 32 (leaves s.tree).length })
    herr (outTooLong_mono P (by simp only [hout, List.nil_append]; omega) hroom) (by simp only; omega)
  have hpenc := runCommand_penc_done (P := P) (s := { s with
    outStream := s.outStream ++ (leaves s.tree).flatten ++ packed (shape s.tree)
    entityCount := BitVec.ofNat 32 (leaves s.tree).length
    treeByteCount := BitVec.ofNat 32 (((shape s.tree).length + 7) / 8)
    treeLastBits := BitVec.ofNat 8 ((shape s.tree).length % 8) })
    herr hW hT.has_codes hmod
    (by simp only [hout, List.nil_append, List.length_append, packed_length]; exact hroom)
    (Nat.le_trans (m := ((dataBits s).length + 7) / 8) le_rfl (by omega))
  rw [heenc, htenc, hpenc]
  exact ⟨⟨herr, hrej⟩, rfl, Nat.mod_eq_of_lt (by omega), Nat.mod_eq_of_lt (by omega), rfl,
    Nat.mod_eq_of_lt (a := ((dataBits s).length + 7) / 8) (by omega), rfl, by simp only [hout, List.nil_append]; rfl⟩

/-- ENCODE from an empty OUT, where the limits allow its counts and its sections (R102). -/
theorem encoded_encodeRun {P : Params} {s : State} {W : Nat} {m : List (Entity × Word64)} (hs : NoFault s)
    (hout : s.outStream = []) (hsize : s.entitySize.toNat = W) (hW : W ∈ [1, 2, 4, 8]) (hmod : s.inStream.length % W = 0)
    (hlen : (records W s.inStream).length < 2 ^ 32) (hfeed : feedList (countEntity P) (records W s.inStream) [] = .ok m)
    (hT : TreeFor W (buildTree P m s.draws).1 (records W s.inStream))
    (hroom : outTooLong P (encoding (buildTree P m s.draws).1 (records W s.inStream)).length = false) :
    Encoded W (buildTree P m s.draws).1 (records W s.inStream) (encodeRun P s) := by
  subst hsize
  have hbuild := runCommand_build P (s := { s with freq := m, icur := BitVec.ofNat 64 s.inStream.length }) hs.1
  rw [encodeRun, runCommand_analyze_done hs.1 hW hmod hfeed, hbuild]
  exact encoded_sections (s := { s with
    tree := (buildTree P m s.draws).1, draws := (buildTree P m s.draws).2, freq := []
    icur := BitVec.ofNat 64 s.inStream.length }) hs hout rfl hW hmod hlen hT hroom

/-! DECODE (R67). -/

/-- EDEC over the section of a list of entities, wherever in IN it stands (R96). -/
theorem runCommand_edec_section {s : State} (herr : s.err = false) (hW : s.entitySize.toNat ∈ [1, 2, 4, 8])
    {es : List Entity} (hes : ∀ v ∈ es, v.length = s.entitySize.toNat) (hcount : s.entityCount.toNat = es.length)
    {tail : List Byte} (hbytes : s.inStream.drop s.icur.toNat = es.flatten ++ tail) :
    runCommand edecBody s =
      { s with elist := es, icur := BitVec.ofNat 64 (s.icur.toNat + es.flatten.length) } := by
  have hlen := length_flatten_of_width hes
  rw [runCommand_edec_done herr hW (by rw [hbytes, List.length_append, hcount]; omega)]
  simp only [← List.drop_drop, hbytes, hcount, hlen, map_take_drop_flatten hes]

/-- TDEC over the section of a tree of R35, wherever in IN it stands (R89, R92). -/
theorem runCommand_tdec_section {P : Params} {s : State} (herr : s.err = false) {T : ETree} (hT : BuiltTree T)
    (hnodes : nodesOver P (nodeCount T) = false) (hlist : s.elist = leaves T)
    (hec : s.entityCount.toNat = (leaves T).length) {tail : List Byte}
    (hbytes : s.inStream.drop s.icur.toNat = packed (shape T) ++ tail)
    (hcount : s.treeByteCount.toNat = ((shape T).length + 7) / 8)
    (hlast : s.treeLastBits = BitVec.ofNat 8 ((shape T).length % 8)) :
    runCommand (tdecBody P) s =
      { s with dtree := strip T, icur := BitVec.ofNat 64 (s.icur.toNat + ((shape T).length + 7) / 8) } := by
  by_cases hne : T = .absent
  · subst hne
    rw [runCommand_tdec_emptySection herr hcount ⟨hec, hlist⟩]
    simp [shape, strip]
  · have hfeed := feedList_builtTree hT hne hnodes []
    rw [List.append_nil, ← hlist] at hfeed
    refine runCommand_tdec_done herr ⟨shape_ne_nil hne, ⟨tail, hbytes⟩, hcount, hlast⟩ hfeed
      (tdecRoot_eq_some rfl (by rw [hec, hlist]) rfl ?_)
    rw [hec]
    exact hT.isComplete_strip hne

theorem drop_encoding_leaves (T : ETree) (es : List Entity) :
    (encoding T es).drop (leaves T).flatten.length = packed (shape T) ++ packed (codeBits T es) := by
  rw [encoding, List.append_assoc, List.drop_left]

theorem drop_encoding_shape (T : ETree) (es : List Entity) :
    (encoding T es).drop ((leaves T).flatten.length + ((shape T).length + 7) / 8) = packed (codeBits T es) ++ [] := by
  rw [← List.drop_drop, drop_encoding_leaves, ← packed_length, List.drop_left, List.append_nil]

/-- DECODE of what ENCODE left, on a chip whose limits allow the tree and the entities (R102). -/
theorem Encoded.decodes {P : Params} {W : Nat} {T : ETree} {es : List Entity} {e : State} (he : Encoded W T es e)
    (hW : W ∈ [1, 2, 4, 8]) (hT : TreeFor W T es) (hlen : es.length < 2 ^ 32)
    (hnodes : nodesOver P (nodeCount T) = false) (hroom : outTooLong P es.flatten.length = false) :
    NoFault (decodeRun P { e with outStream := [], inStream := e.outStream, icur := 0#64 }) ∧
      (decodeRun P { e with outStream := [], inStream := e.outStream, icur := 0#64 }).outStream = es.flatten := by
  obtain ⟨⟨herr, hrej⟩, rfl, hentities, htreeBytes, htreeLast, hdataBytes, hdataLast, hbytes⟩ := he
  have hbound := hT.length_encoding_lt hlen hW
  rw [length_encoding] at hbound
  have hcur₁ : (BitVec.ofNat 64 (leaves T).flatten.length).toNat = (leaves T).flatten.length :=
    Nat.mod_eq_of_lt (by omega)
  have hcur₂ : (BitVec.ofNat 64 ((leaves T).flatten.length + ((shape T).length + 7) / 8)).toNat =
      (leaves T).flatten.length + ((shape T).length + 7) / 8 := Nat.mod_eq_of_lt (by omega)
  have hedec := runCommand_edec_section (s := { e with outStream := [], inStream := encoding T es, icur := 0#64 })
    herr hW hT.width_leaves hentities (List.append_assoc ..)
  have htdec := runCommand_tdec_section (P := P) (s := { e with
      outStream := [], inStream := encoding T es, elist := leaves T
      icur := BitVec.ofNat 64 (leaves T).flatten.length })
    herr hT.built hnodes rfl hentities (hcur₁.symm ▸ drop_encoding_leaves T es) htreeBytes htreeLast
  have hpdec := runCommand_pdec_decodes (P := P) (T := T) (es := es) (s := { e with
      outStream := [], inStream := encoding T es, elist := leaves T, dtree := strip T
      icur := BitVec.ofNat 64 ((leaves T).flatten.length + ((shape T).length + 7) / 8) })
    herr hT.built rfl hT.has_codes (by simpa using hroom)
    ⟨⟨[], hcur₂.symm ▸ drop_encoding_shape T es⟩, hdataBytes, hdataLast⟩
  simp only [BitVec.toNat_ofNat, Nat.zero_mod, Nat.zero_add] at hedec
  rw [hcur₁] at htdec
  rw [hbytes, decodeRun, hedec, htdec, hpdec]
  exact ⟨⟨herr, hrej⟩, List.nil_append _⟩

/-- Settles O47: without the limits the tree, the sections and the entities of any input shorter than 2^32 bytes fit. -/
theorem decodeInvertsEncodeOfAnyInput : Obligations.DecodeInvertsEncodeOfAnyInput := by
  unfold Obligations.DecodeInvertsEncodeOfAnyInput
  intro P S W e d hdistinct hnodes hroom hW hmod hS he hd
  have hW8 : 1 ≤ W ∧ W ≤ 8 := (by decide : ∀ w ∈ [1, 2, 4, 8], 1 ≤ w ∧ w ≤ 8) W hW
  have hfree (n : Nat) : outTooLong P n = false := by simp only [outTooLong, hroom]
  have hlen : (records W S).length < 2 ^ 32 := by
    rw [length_records]
    exact (Nat.div_le_self _ _).trans_lt hS
  obtain ⟨m, hfeed, hm⟩ := exists_tally P (es := records W S) fun k hk => by rw [hdistinct] at hk; cases hk
  have hT := treeFor_buildTree P (k := 0) hm
  have hencoded : Encoded W (buildTree P m 0).1 (records W S) e := he ▸
    encoded_encodeRun (s := { State.reset with inStream := S, entitySize := BitVec.ofNat 8 W }) ⟨rfl, rfl⟩ rfl
      (Nat.mod_eq_of_lt (by omega)) hW hmod hlen hfeed hT (hfree _)
  obtain ⟨hfault, hout⟩ := hencoded.decodes (P := P) hW hT hlen (by simp only [nodesOver, hnodes]) (hfree _)
  rw [← hd, flatten_records hW8.1 hmod] at hout
  exact ⟨hencoded.noFault, hd ▸ hfault, hout⟩

/-! The empty input (R103). -/

/-- ENCODE of the empty input: no record, no tree, no bit, on every chip. -/
theorem encodeRun_empty (P : Params) {W : Nat} (hW : W ∈ [1, 2, 4, 8]) :
    encodeRun P { State.reset with entitySize := BitVec.ofNat 8 W } =
      { State.reset with entitySize := BitVec.ofNat 8 W } := by
  fin_cases hW <;> rfl

/-- DECODE of three sections of no byte. -/
theorem decodeRun_empty (P : Params) {W : Nat} (hW : W ∈ [1, 2, 4, 8]) :
    decodeRun P { State.reset with entitySize := BitVec.ofNat 8 W } =
      { State.reset with entitySize := BitVec.ofNat 8 W } := by
  fin_cases hW <;> rfl

/-- Settles O48: neither run changes anything, whatever the chip. -/
theorem emptyInputRoundTrip : Obligations.EmptyInputRoundTrip := by
  unfold Obligations.EmptyInputRoundTrip
  intro P W e d hW he hd
  rw [encodeRun_empty P hW] at he
  rw [he, decodeRun_empty P hW] at hd
  subst he hd
  exact ⟨⟨rfl, rfl⟩, rfl, rfl, rfl, rfl, ⟨rfl, rfl⟩, rfl⟩

end Sys2Proof.Machine

/-! The reasons a command can raise (60_exceptions.md R107): those of its loops, and those its pseudocode raises itself. -/

namespace Sys2Proof.Machine

/-! Where a loop raises, its reason is one of `p`. -/

/-- Every reason this loop answer raises is one of `p`. -/
def AttemptRaises {σ : Type} (p : Reason → Prop) (x : Attempt σ) : Prop := AttemptHolds (fun _ => True) (fun _ r => p r) x

/-- Every reason this answer of a loop that reads IN raises is one of `p`. -/
def FeedRaises {σ : Type} (p : Reason → Prop) (x : Feed σ) : Prop := FeedHolds (fun _ _ => True) (fun _ _ r => p r) x

section LoopReasons

variable {σ β : Type} {p : Reason → Prop}

theorem feedList_raises {f : σ → β → Attempt σ} (hf : ∀ a b, AttemptRaises p (f a b)) (bs : List β) (a : σ) :
    AttemptRaises p (feedList f bs a) :=
  feedList_holds (fun a b _ _ => hf a b) a trivial

/-- The section loop raises what its bits raise, and EXHAUSTED (R47). -/
theorem feedSection_raises {f : σ → Bool → Attempt σ} (hexhausted : p .exhausted) (hf : ∀ a b, AttemptRaises p (f a b))
    (lb : BitVec 8) (len : Nat) (rest : List Byte) (n cur : Nat) (a : σ) :
    FeedRaises p (feedSection f lb len rest n cur a) := by
  have hloop := feedSection_holds lb len (fun a b _ => hf a b) rest n cur a trivial
  cases hfeed : feedSection f lb len rest n cur a <;> rw [hfeed] at hloop
  case done => trivial
  case raised =>
    rcases hloop with ⟨hr, -⟩ | ⟨-, rfl, -⟩
    · exact hr
    · exact hexhausted

/-- The record loop raises what its records raise, and EXHAUSTED (R42). -/
theorem feedRecords_raises {f : σ → Entity → Attempt σ} (hexhausted : p .exhausted) (hf : ∀ a v, AttemptRaises p (f a v))
    {W : Nat} (hW : 1 ≤ W) (bs : List Byte) (a : σ) : FeedRaises p (feedRecords f W bs.length bs.length bs 0 a) := by
  have hloop := feedRecords_holds W bs.length hW (fun a v _ _ => hf a v) bs.length bs 0 a le_rfl trivial
  cases hfeed : feedRecords f W bs.length bs.length bs 0 a <;> rw [hfeed] at hloop
  case done => trivial
  case raised =>
    rcases hloop with ⟨hr, -⟩ | ⟨-, rfl, -⟩
    · exact hr
    · exact hexhausted

theorem takeRecords_raises (hexhausted : p .exhausted) {W : Nat} (hW : 1 ≤ W) (len n : Nat) (rest : List Byte) (cur : Nat)
    (es : List Entity) : FeedRaises p (takeRecords W len n rest cur es) := by
  by_cases hn : n * W ≤ rest.length
  · rw [takeRecords_ok W len n rest cur es hn]; trivial
  · rw [takeRecords_exhausted W len n hW rest cur es (Nat.not_le.mp hn)]; exact hexhausted

/-! The packer raises OUT_OVERFLOW only (R43, R46). -/

theorem putBit_raises (P : Params) (hover : p .outOverflow) (k : Packer) (bit : Bool) :
    AttemptRaises p (putBit P k bit) := by
  simp only [putBit]
  split
  · split
    · exact hover
    · trivial
  · trivial

theorem putBits_raises (P : Params) (hover : p .outOverflow) (bits : List Bool) (k : Packer) :
    AttemptRaises p (putBits P bits k) :=
  feedList_raises (putBit_raises P hover) bits k

theorem flush_raises (P : Params) (hover : p .outOverflow) (k : Packer) : AttemptRaises p (flush P k) := by
  unfold flush
  split
  · split
    · exact hover
    · trivial
  · trivial

theorem pack_raises (P : Params) (hover : p .outOverflow) (bits : List Bool) (out : List Byte) :
    AttemptRaises p (pack P bits out) := by
  have hput := putBits_raises P hover bits (Packer.start out)
  unfold pack
  split <;> rename_i h <;> rw [h] at hput
  · exact hput
  · exact flush_raises P hover _

end LoopReasons

/-! One round of each command's loop. -/

/-- R107's table lists the reason `r`, with its kind, for the command `i`. -/
@[reducible] def Listed (i : Instr) (r : Reason) : Prop := (r.kind.code, r.code) ∈ raisedCodes i

theorem countEntity_raises (P : Params) (m : List (Entity × Word64)) (v : Entity) :
    AttemptRaises (Listed .analyze) (countEntity P m v) := by
  unfold countEntity
  split
  · exact (by decide : Listed .analyze .distinctOverflow)
  · trivial

theorem encodeEntity_raises (P : Params) (table : List (Entity × List Bool)) (k : Packer) (v : Entity) :
    AttemptRaises (Listed .penc) (encodeEntity P table k v) := by
  unfold encodeEntity
  split
  · exact (by decide : Listed .penc .codeMissing)
  · exact putBits_raises P (by decide) _ k

theorem eencLeaf_raises (P : Params) (a : EencWork) (v : Entity) : AttemptRaises (Listed .eenc) (eencLeaf P a v) := by
  unfold eencLeaf
  split
  · exact (by decide : Listed .eenc .countOverflow)
  · split
    · exact (by decide : Listed .eenc .outOverflow)
    · trivial

theorem pdecBit_raises (P : Params) (root : DTree) (a : PdecWork) (bit : Bool) :
    AttemptRaises (Listed .pdec) (pdecBit P root a bit) := by
  unfold pdecBit
  split
  · split
    · split
      · exact (by decide : Listed .pdec .outOverflow)
      · trivial
    · trivial
  · exact (by decide : Listed .pdec .walkNotBranch)

theorem tdecBit_raises (P : Params) (elist : List Entity) (a : TdecWork) (bit : Bool) :
    AttemptRaises (Listed .tdec) (tdecBit P elist a bit) := by
  unfold tdecBit
  split
  · split
    · exact (by decide : Listed .tdec .nodeOverflow)
    · trivial
  · split
    · exact (by decide : Listed .tdec .noOpenBranch)
    · split
      · exact (by decide : Listed .tdec .listExhausted)
      · split
        · exact (by decide : Listed .tdec .slotFull)
        · split
          · exact (by decide : Listed .tdec .nodeOverflow)
          · split
            · exact (by decide : Listed .tdec .slotFull)
            · trivial

/-! Each pseudocode. -/

/-- Every reason this end of a pseudocode raises is one of `p`. -/
def ResultRaises (p : Reason → Prop) : CmdResult → Prop
  | .done _ => True
  | .raised _ r => p r

theorem getbitBody_raises (byte : BitVec 8) (pos : BitVec 4) (s : State) :
    ResultRaises (Listed (.getbit byte pos)) (getbitBody byte pos s) := by
  unfold getbitBody
  split
  · exact List.mem_singleton_self _
  · trivial

theorem setbitBody_raises (byte : BitVec 8) (pos : BitVec 4) (s : State) :
    ResultRaises (Listed (.setbit byte pos)) (setbitBody byte pos s) := by
  unfold setbitBody
  split
  · exact List.mem_singleton_self _
  · trivial

theorem rdfixBody_raises (P : Params) {nw : BitVec 4} (hnw : nw.toNat ∈ [1, 2, 4, 8]) (s : State) :
    ResultRaises (Listed (.rdfix nw)) (rdfixBody P nw s) := by
  rcases Nat.lt_or_ge s.inStream.length (cursor s + nw.toNat) with hlt | hge
  · rw [rdfixBody_exhausted P hnw hlt]; exact List.mem_singleton_self _
  · rw [rdfixBody_done P hnw hge]; trivial

theorem wrfixBody_raises (P : Params) {nw : BitVec 4} (hnw : nw.toNat ∈ [1, 2, 4, 8]) (s : State) :
    ResultRaises (Listed (.wrfix nw)) (wrfixBody P nw s) := by
  cases h : outTooLong P (s.outStream.length + nw.toNat) with
  | true => rw [wrfixBody_outOverflow P hnw h]; exact List.mem_singleton_self _
  | false => rw [wrfixBody_done P hnw h]; trivial

theorem analyzeBody_raises (P : Params) (s : State) : ResultRaises (Listed .analyze) (analyzeBody P s) := by
  unfold analyzeBody
  split
  · exact (by decide : Listed .analyze .badWidth)
  · next W hwidth =>
    have hloop := feedRecords_raises (by decide) (countEntity_raises P) (one_le_of_entityWidth hwidth) s.inStream []
    split <;> rename_i h <;> rw [h] at hloop
    · trivial
    · exact hloop

theorem tencBody_raises (P : Params) (s : State) : ResultRaises (Listed .tenc) (tencBody P s) := by
  have hpack := pack_raises (p := Listed .tenc) P (by decide) (shape s.tree) s.outStream
  unfold tencBody
  split
  · trivial
  · split <;> rename_i h <;> rw [h] at hpack
    · exact hpack
    · split
      · exact (by decide : Listed .tenc .countOverflow)
      · trivial

theorem tdecBody_raises (P : Params) (s : State) : ResultRaises (Listed .tdec) (tdecBody P s) := by
  have hloop := feedSection_raises (by decide) (tdecBit_raises P s.elist) s.treeLastBits s.inStream.length (inRest s)
    s.treeByteCount.toNat (cursor s) { stack := [], idx := 0, nodes := 0 }
  unfold tdecBody
  split
  · split
    · trivial
    · exact (by decide : Listed .tdec .emptySectionMismatch)
  · split <;> rename_i h <;> rw [h] at hloop
    · exact hloop
    · split
      · exact (by decide : Listed .tdec .endMismatch)
      · trivial

theorem eencBody_raises (P : Params) (s : State) : ResultRaises (Listed .eenc) (eencBody P s) := by
  have hloop := feedList_raises (eencLeaf_raises P) (leaves s.tree) { out := s.outStream, count := 0 }
  unfold eencBody
  split <;> rename_i h <;> rw [h] at hloop
  · exact hloop
  · trivial

theorem edecBody_raises (s : State) : ResultRaises (Listed .edec) (edecBody s) := by
  unfold edecBody
  split
  · exact (by decide : Listed .edec .badEntitySize)
  · next W hwidth =>
    have hloop := takeRecords_raises (p := Listed .edec) (by decide) (one_le_of_entityWidth hwidth) s.inStream.length
      s.entityCount.toNat (inRest s) (cursor s) []
    split <;> rename_i h <;> rw [h] at hloop
    · trivial
    · exact hloop

theorem pencBody_raises (P : Params) (s : State) : ResultRaises (Listed .penc) (pencBody P s) := by
  unfold pencBody
  split
  · exact (by decide : Listed .penc .badWidth)
  · next W hwidth =>
    have hloop := feedRecords_raises (by decide) (encodeEntity_raises P (codeTable s.tree))
      (one_le_of_entityWidth hwidth) s.inStream (Packer.start s.outStream)
    split <;> rename_i h <;> rw [h] at hloop
    · exact hloop
    · next k =>
      have hflush := flush_raises (p := Listed .penc) P (by decide) k
      split <;> rename_i h <;> rw [h] at hflush
      · exact hflush
      · split
        · exact (by decide : Listed .penc .countOverflow)
        · trivial

theorem pdecBody_raises (P : Params) (s : State) : ResultRaises (Listed .pdec) (pdecBody P s) := by
  have hloop := feedSection_raises (by decide) (pdecBit_raises P s.dtree) s.dataLastBits s.inStream.length (inRest s)
    s.dataByteCount.toNat (cursor s) { pos := s.dtree, out := s.outStream }
  unfold pdecBody
  split <;> rename_i h <;> rw [h] at hloop
  · exact hloop
  · trivial

/-- The NW of a well-formed RDFIX or WRFIX is a byte width (R61, R62). -/
theorem toNat_mem_of_nwLegal {nw : BitVec 4} (h : nwLegal nw = true) : nw.toNat ∈ [1, 2, 4, 8] := by
  revert nw; decide

/-- A command that a word can say raises only what R107 lists for it, on every chip. An RDFIX or WRFIX of no legal width
would raise BAD_ENCODING, which R107 lists for Issue alone (log 11). -/
theorem commandBody_raises (P : Params) {i : Instr} (hwf : i.wellFormed = true) (s : State) :
    ResultRaises (Listed i) (commandBody P i s) := by
  cases i with
  | getbit byte pos => exact getbitBody_raises byte pos s
  | setbit byte pos => exact setbitBody_raises byte pos s
  | rdfix nw => exact rdfixBody_raises P (toNat_mem_of_nwLegal hwf) s
  | wrfix nw => exact wrfixBody_raises P (toNat_mem_of_nwLegal hwf) s
  | analyze => exact analyzeBody_raises P s
  | build => trivial
  | tenc => exact tencBody_raises P s
  | tdec => exact tdecBody_raises P s
  | eenc => exact eencBody_raises P s
  | edec => exact edecBody_raises s
  | penc => exact pencBody_raises P s
  | pdec => exact pdecBody_raises P s

/-! The record in STATUS (R111, R122). -/

/-- A pseudocode that leaves ERR at 0 ends with ERR = 1 only by a raise, whose kind and reason are what STATUS records. -/
theorem runCommand_records {p : Reason → Prop} {body : State → CmdResult} {s : State} (herr : s.err = false)
    (hkept : (resultState (body s)).err = false) (hraises : ResultRaises p (body s)) (h : (runCommand body s).err = true) :
    ∃ r, p r ∧ (runCommand body s).kind = r.kind.code ∧ (runCommand body s).reason = r.code := by
  rw [runCommand_runs body s herr] at h ⊢
  cases hb : body s with
  | done u =>
    rw [hb] at h hkept
    exact absurd (hkept.symm.trans h) Bool.false_ne_true
  | raised u r =>
    rw [hb] at hraises
    exact ⟨r, hraises, rfl, rfl⟩

/-- Settles O16: no pseudocode writes STATUS itself, so the record is that of its raise, which R107 lists. -/
theorem commandsRaiseOnlyTheirReasons : Obligations.CommandsRaiseOnlyTheirReasons := by
  unfold Obligations.CommandsRaiseOnlyTheirReasons
  intro i s t hwf herr h ht
  rw [exec_eq_runCommand] at h
  cases h
  have hkept := (commandBody_frame Config.params i s).2.err.trans herr
  obtain ⟨r, hr, hkind, hreason⟩ := runCommand_records herr hkept (commandBody_raises Config.params hwf s) ht
  rw [hkind, hreason]
  exact hr

/-- Settles O15: a step does the host's next action, and there is none. -/
theorem idleEngineKeepsItsState : Obligations.IdleEngineKeepsItsState := by
  unfold Obligations.IdleEngineKeepsItsState
  exact step_idle

end Sys2Proof.Machine

/-! Reset() and the end of every command (70_reset_and_hazards.md R123, R129). -/

namespace Sys2Proof.Machine

/-- After Reset() STATUS shows IN_EOF alone: IN is empty with the cursor at its end, and there is no tree (R39). -/
theorem statusWord_resetBlock (s : State) : statusWord (resetBlock s) = 0x00000020#32 := by
  simp [statusWord, inEof, treeValid, dtreeValid, State.reset]

/-- Settles O9: Reset() is `resetBlock`, which takes every register and structure from `State.reset`. -/
theorem resetActionSetsEveryValue : Obligations.ResetActionSetsEveryValue := by
  unfold Obligations.ResetActionSetsEveryValue
  intro s rest
  refine ⟨resetBlock { s with host := rest }, step_action s .reset rest, statusWord_resetBlock _, ?_⟩
  simp [State.reset]

/-- Settles O60: every command is `runCommand` of its pseudocode, a total function whose faults are next states (R112). -/
theorem everyCommandEnds : Obligations.EveryCommandEnds := by
  unfold Obligations.EveryCommandEnds
  intro i s
  exact ⟨runCommand (commandBody Config.params i) s, exec_eq_runCommand i s⟩

end Sys2Proof.Machine
